-- ==== Sys2Proof/Word.lean ====
section
/-! DEFINITION. The widths of HTB, its words, and the records its memory spaces hold
(spec/00_scope.md section 4, spec/10_state.md section 6). -/

namespace Sys2Proof

/-- `LEN_W`, the width of a symbol count and of a sequence length (R10; the spec's default, log 7). -/
abbrev lenW : Nat := 16

/-- `ELEN_W = LEN_W + 8`, the width of a stream length and of a stream position (R11). -/
abbrev elenW : Nat := lenW + 8

/-- `NIDX_W`, the width of a node index and of the registers that count entries and nodes (R8). -/
abbrev nidxW : Nat := 9

/-- `CODE_MAX`, the most digits a code can have, and so the width of the field `code` (R9, R41). -/
abbrev codeMax : Nat := 255

/-- An 8-bit element: a symbol (R6), a digit character (R42), a command word (R90). -/
abbrev Byte := BitVec 8

/-- A symbol count or a sequence length (R10). -/
abbrev LenWord := BitVec lenW

/-- A length of, or a position in, the encoded stream (R11). -/
abbrev StreamWord := BitVec elenW

/-- An index of space NODE, and the type of FT_K, NODE_CNT and ROOT (R8, R27 to R29). -/
abbrev NodeIndex := BitVec nidxW

/-- An entry of the FrequencyTable: a key and its count (R39). -/
structure FtEntry where
  sym : Byte
  cnt : LenWord
  deriving DecidableEq, Repr, Inhabited

/-- A TreeNode, the tagged variant of R40. Children are named by their index in NODE. -/
inductive Node where
  | leaf (sym : Byte) (freq : LenWord)
  | internal (freq : LenWord) (left right : NodeIndex)
  deriving DecidableEq, Repr, Inhabited

/-- The five fields of a NODE element as the host reads them (R40, D34); `kind` is 1 for Internal. -/
structure NodeRecord where
  kind : BitVec 1
  freq : LenWord
  sym : Byte
  left : NodeIndex
  right : NodeIndex
  deriving DecidableEq, Repr, Inhabited

/-- An entry of the CodeTable (R41): digit j of the code is bit j of `code`. -/
structure CtEntry where
  valid : Bool
  len : BitVec 8
  code : BitVec codeMax
  deriving DecidableEq, Repr, Inhabited

/-- What a host read returns: a register's number or one whole element of a space (R60, R68). -/
inductive HostValue where
  | reg (v : Nat)
  | byte (b : Byte)
  | entry (e : FtEntry)
  | node (r : NodeRecord)
  | code (c : CtEntry)
  deriving DecidableEq, Repr, Inhabited

end Sys2Proof
end

