-- ==== Sys2Proof/Config.lean ====
section
/-! DEFINITION. The sizes that follow from the widths, the defaults of the digit parameters (spec/00_scope.md
section 4; `Parameters` in Machine/State.lean holds the parameters themselves) and the free values: what the spec leaves unspecified is an opaque constant without a body, so that no proof can see a value of it. -/

namespace Sys2Proof.Config

/-- The default of the parameter `DIGIT0`, the character '0' (R12). -/
def digit0 : Byte := 0x30

/-- The default of the parameter `DIGIT1`, the character '1' (R12). -/
def digit1 : Byte := 0x31

/-- `A_MAX`: the alphabet has at most 256 symbols; the number of elements of FT and of CT (R7). -/
def alphabetMax : Nat := 256

/-- `NODE_MAX`: the number of elements of NODE (R8). -/
def nodeMax : Nat := 511

/-- `N_MAX`: the longest symbol sequence; the number of elements of SYM and of DEC (R10). -/
def seqMax : Nat := 2 ^ lenW - 1

/-- `E_MAX`: the number of elements of ENC (R11). -/
def streamMax : Nat := 2 ^ elenW - 1

/-- Free value (DESIGN CHOICE, log 4): what element `index` of the byte space `space` (0 SYM, 4 ENC, 5 DEC)
reads as in epoch `epoch` when nothing has been written there since reset (R52, R79, U6). -/
opaque unwrittenByte (epoch space index : Nat) : Byte

/-- Free value (DESIGN CHOICE, log 4): an element of FT that nothing has written since reset (R52). -/
opaque unwrittenEntry (epoch index : Nat) : FtEntry

/-- Free value (DESIGN CHOICE, log 4): an element of NODE that nothing has written since reset (R52). -/
opaque unwrittenNode (epoch index : Nat) : NodeRecord

/-- Free value (DESIGN CHOICE, log 5): what a refused host read returns (R45, R73, U7, U8). -/
opaque refusedRead (epoch : Nat) : HostValue

end Sys2Proof.Config
end

