-- ==== Sys2Proof/Syntax.lean ====
section
/-! DEFINITION. The seven commands, the command word's fields, the host's transactions and the host script
notation (spec/30_encoding.md, spec/20_memory.md R68). -/

namespace Sys2Proof

/-- The commands: one constructor per row of spec/opcode_table.json. No command has an operand field (R91). -/
inductive Instr where
  | nop
  | clear
  | count
  | build
  | gentab
  | encode
  | decode
  deriving DecidableEq, Repr

/-- The two fields of the one command format `C` (R90): RSV in bits 7:4, OP in bits 3:0. -/
structure CommandWord where
  rsv : BitVec 4
  op : BitVec 4
  deriving DecidableEq, Repr

/-- The thirteen registers (R21 to R33). -/
inductive Reg where
  | cmd | status | errcode | errPos | errVal | symLen | ftK | nodeCnt | root | encLen | expCnt | decLen | decPos
  deriving DecidableEq, Repr

/-- The six memory spaces (10_state.md section 6). -/
inductive Space where
  | sym | ft | node | ct | enc | dec
  deriving DecidableEq, Repr

/-- A host transaction (R68), and the reset input (R230). Register indices and space ids are the numbers the
host uses, reserved ones included. A space write carries one 8-bit element: both writable spaces, SYM and ENC,
hold such elements, and a write to any other space is ignored whatever it carries (R44, log 15). -/
inductive Transaction where
  | regRead (index : Nat)
  | regWrite (index value : Nat)
  | spaceRead (id index : Nat)
  | spaceWrite (id index : Nat) (value : Byte)
  | reset
  deriving DecidableEq, Repr

/-- One entry of the host's program: a transaction, how many of the host's following transactions arrive before
the command that this one starts has completed (the duration of a command is unspecified, R239; log 2), and
the condition of COMPRESS (R98, log 18): with `some n` the host makes it only if STATUS.ERR = 0, and otherwise neither
it nor the `n` transactions after it, the STATUS reads of the same command. -/
structure HostEvent where
  txn : Transaction
  overlap : Nat := 0
  ifNoError : Option Nat := none
  deriving DecidableEq, Repr

/-- The statements and pseudo-statements of the host script notation (R97, R98). `start i polls` writes the
command word and reads STATUS until BUSY = 0, seeing BUSY = 1 `polls` times; `compress` and `expand` say the same of
each of their commands, since the duration of a command is unspecified there too (R239; log 2, log 18). `wr` does not wait:
`overlap` says how many of the transactions after it arrive before the command that a write to CMD starts has completed,
any number for the same reason (log 2, log 18); a write to another register starts none. A text is the
list of its characters' 8-bit codes; in a LOADENC text '0' is DIGIT0 and '1' is DIGIT1 (R98). -/
inductive Statement where
  | wr (reg : Reg) (value : Nat) (overlap : Nat)
  | rd (reg : Reg)
  | wm (space : Space) (index : Nat) (value : Byte)
  | rm (space : Space) (index : Nat)
  | start (i : Instr) (polls : Nat)
  | reset
  | loadSym (text : List Byte)
  | loadEnc (digits : List Byte)
  | compress (countPolls buildPolls gentabPolls encodePolls : Nat)
  | expand (n polls : Nat)
  deriving DecidableEq, Repr

end Sys2Proof
end

