-- ==== Sys2Proof/WellFormed.lean ====
section
/-! DEFINITION. The checks on syntax: the command word (R90, R93), the commands, the script statements whose
text must fit its space (R97, R98, R232), and the parameters (R10, R12). -/

namespace Sys2Proof

/-- RSV "must be 0b0000" (R90). -/
def CommandWord.rsvZero (c : CommandWord) : Bool := c.rsv == 0

/-- OP 0x0 to 0x6 is assigned, 0x7 to 0xF is illegal (R92). -/
def CommandWord.opAssigned (c : CommandWord) : Bool := decide (c.op.toNat ≤ 6)

/-- A legal command word (R93). -/
def CommandWord.wellFormed (c : CommandWord) : Bool := c.rsvZero && c.opAssigned

/-- Every command is well formed: it has no field to check (R91). -/
def Instr.wellFormed (i : Instr) : Bool :=
  match i with
  | .nop => true
  | .clear => true
  | .count => true
  | .build => true
  | .gentab => true
  | .encode => true
  | .decode => true

/-- A LOADSYM text has at most N_MAX symbols and a LOADENC text at most E_MAX digits (R10, R11, R232). -/
def Statement.wellFormed (st : Statement) : Bool :=
  match st with
  | .wr _ _ _ => true
  | .rd _ => true
  | .wm _ _ _ => true
  | .rm _ _ => true
  | .start i _ => i.wellFormed
  | .reset => true
  | .loadSym text => decide (text.length ≤ Config.seqMax)
  | .loadEnc digits => decide (digits.length ≤ Config.streamMax)
  | .compress _ _ _ _ => true
  | .expand _ _ => true

/-- The constraints on the parameters: `LEN_W` at least 1 (R10), two distinct digit elements (R12, D5). No machine
has other ones: `Machine.Parameters` carries this check. -/
def parametersOk (len : Nat) (d0 d1 : Byte) : Bool := decide (1 ≤ len) && d0 != d1

end Sys2Proof
end

