-- ==== Sys2Proof/Decode.lean ====
section
/-! DEFINITION. Decoding of the command word, total on all 256 values (R93), and the encoder, both from the
opcode map of R92. -/

namespace Sys2Proof

/-- What the decoder answers: a command, or why the word is illegal (R93, R95). -/
inductive Decoded where
  | command (i : Instr)
  | reservedBitsSet
  | opcodeUnassigned
  deriving DecidableEq, Repr

/-- The fields of a command word: RSV is bits 7:4, OP is bits 3:0 (R90). -/
def CommandWord.ofByte (w : Byte) : CommandWord := ⟨w.extractLsb' 4 4, w.extractLsb' 0 4⟩

/-- The command word with the given fields (R90). -/
def CommandWord.toByte (c : CommandWord) : Byte := c.rsv ++ c.op

/-- The opcode map (R92). -/
def commandOfOp (op : BitVec 4) : Decoded :=
  match op.toNat with
  | 0 => .command .nop
  | 1 => .command .clear
  | 2 => .command .count
  | 3 => .command .build
  | 4 => .command .gentab
  | 5 => .command .encode
  | 6 => .command .decode
  | _ => .opcodeUnassigned

/-- Decoding (R93): a word whose RSV is not 0 is illegal whatever its OP. -/
def decode (w : Byte) : Decoded :=
  let c := CommandWord.ofByte w
  if c.rsv = 0 then commandOfOp c.op else .reservedBitsSet

/-- The opcode of a command (R92). -/
def opcode (i : Instr) : BitVec 4 :=
  match i with
  | .nop => 0x0
  | .clear => 0x1
  | .count => 0x2
  | .build => 0x3
  | .gentab => 0x4
  | .encode => 0x5
  | .decode => 0x6

/-- The command word of a command: RSV = 0 and its opcode (R90, R92). -/
def encode (i : Instr) : Byte := CommandWord.toByte ⟨0, opcode i⟩

/-- The decoder on a row of spec/opcode_table.json: a command is one 8-bit word, so the low 8 of the `nbits`
bits of `w` are decoded; there is no byte order to choose (R63, R90). -/
def decodeTableWord (nbits w : Nat) : Option Instr :=
  match decode (BitVec.ofNat 8 (w % 2 ^ nbits)) with
  | .command i => some i
  | .reservedBitsSet => none
  | .opcodeUnassigned => none

end Sys2Proof
end

