-- ==== Sys2Proof/Machine/State.lean ====
section
/-! DEFINITION. The state of HTB as plain data (spec/10_state.md), its reasons to stop, and the state after
reset (R51 to R53, R231). -/

namespace Sys2Proof.Machine

/-- A memory space: (element index, element) pairs. An unlisted index of SYM, FT, NODE, ENC and DEC has never
been written since reset (R52); an unlisted index of CT is the invalid entry (R53). For 8-bit elements this is a
list of `Host.Cell`. -/
abbrev Memory (α : Type) := List (Nat × α)

/-- ERRCODE: the closed set of the codes HTB produces (R23, U10). -/
inductive ErrorCode where
  | none
  | emptyInput
  | unknownSymbol
  | truncatedStream
  | malformedStream
  | noTree
  | illegalCommand
  deriving DecidableEq, Repr

/-- The parameters DIGIT0 and DIGIT1 of the machine: two distinct 8-bit elements, with their check (R12, D5). -/
structure Parameters where
  digit0 : Byte
  digit1 : Byte
  ok : parametersOk lenW digit0 digit1 = true
  deriving DecidableEq, Repr

/-- The defaults of R12. -/
def Parameters.default : Parameters := ⟨Config.digit0, Config.digit1, by decide⟩

/-- Everything the spec gives the machine, the model's own fields, and the parameters it is built with
(INVENTORY.md, State). -/
structure State where
  /-- STATUS.ERR (R22). -/
  err : Bool
  /-- STATUS.TREE_VALID (R22). -/
  treeValid : Bool
  /-- STATUS.TRAILING (R22). -/
  trailing : Bool
  /-- ERRCODE (R23). -/
  errCode : ErrorCode
  /-- ERR_POS (R24). -/
  errPos : StreamWord
  /-- ERR_VAL (R25). -/
  errVal : Byte
  /-- SYM_LEN (R26). -/
  symLen : LenWord
  /-- FT_K (R27). -/
  ftK : NodeIndex
  /-- NODE_CNT (R28). -/
  nodeCnt : NodeIndex
  /-- ROOT (R29). -/
  root : NodeIndex
  /-- ENC_LEN (R30). -/
  encLen : StreamWord
  /-- EXP_CNT (R31). -/
  expCnt : LenWord
  /-- DEC_LEN (R32). -/
  decLen : LenWord
  /-- DEC_POS (R33). -/
  decPos : StreamWord
  /-- Space SYM (R38). -/
  sym : Memory Byte
  /-- Space FT (R39). -/
  ft : Memory FtEntry
  /-- Space NODE (R40). -/
  node : Memory Node
  /-- Space CT (R41). -/
  ct : Memory CtEntry
  /-- Space ENC (R42). -/
  enc : Memory Byte
  /-- Space DEC (R43). -/
  dec : Memory Byte
  /-- The model's own: the command that has started and not completed. STATUS.BUSY is 1 exactly when there is
  one (R22, R180; log 20). -/
  running : Option Instr
  /-- The model's own: how many of the host's next transactions arrive before that command completes (log 2). -/
  overlap : Nat
  /-- The model's own: the host's transactions still to come, in order; the program (R37, R72; log 1). -/
  host : List HostEvent
  /-- The model's own: what the host's latest read returned (R68). -/
  readData : Option HostValue
  /-- The model's own: the counter that the free values of Config are applied to (log 4, log 5). -/
  epoch : Nat
  /-- The parameters the machine is built with (R12); no step changes them (log 7). -/
  params : Parameters
  deriving DecidableEq, Repr

/-- The reasons the machine stops. HTB itself never does: its errors are next states (R200, R209). -/
inductive Fault where
  /-- Raised by GENTAB alone, when the nodes reached from ROOT hold a path of more than CODE_MAX digits, which
  the field `code` cannot hold. No tree that BUILD makes has one (R145), so no run from reset reaches it; the
  spec gives such a state no effect. Safe: the model stops (log 9). -/
  | pathTooLong
  deriving DecidableEq, Repr

/-- The reasons the model gives an instruction no meaning. -/
inductive Refusal where
  /-- An arm of `exec` that has no meaning yet; no arm raises it now. Safe: the model stops. -/
  | notModelled (mnemonic : String)
  deriving DecidableEq, Repr

/-- The state right after reset: every register 0, every CodeTable entry invalid, the other spaces never written
(R51 to R53, R231). `running` to `epoch` are the model's own fields (log 6); the parameters are the defaults of R12
(log 7). -/
def State.reset : State where
  err := false
  treeValid := false
  trailing := false
  errCode := .none
  errPos := 0
  errVal := 0
  symLen := 0
  ftK := 0
  nodeCnt := 0
  root := 0
  encLen := 0
  expCnt := 0
  decLen := 0
  decPos := 0
  sym := []
  ft := []
  node := []
  ct := []
  enc := []
  dec := []
  running := none
  overlap := 0
  host := []
  readData := none
  epoch := 0
  params := Parameters.default

end Sys2Proof.Machine
end

