-- ==== Sys2Proof/Machine/Ops.lean ====
section
/-! DEFINITION. The named operations over memory spaces (R60, R78), the completion of a command (R180, R181)
and the taking of an error (R182, R209), which every command shares. -/

namespace Sys2Proof.Machine

/-! ### Memory spaces -/

/-- The element listed at index `i`, if any. -/
def Memory.read? {α : Type} (m : Memory α) (i : Nat) : Option α :=
  match m with
  | [] => none
  | (k, v) :: rest => if k = i then some v else Memory.read? rest i

/-- `MemWrite` (R78): list `v` at index `i`, keeping the indices rising. -/
def Memory.write {α : Type} (m : Memory α) (i : Nat) (v : α) : Memory α :=
  match m with
  | [] => [(i, v)]
  | (k, w) :: rest =>
    if k < i then (k, w) :: Memory.write rest i v
    else if k = i then (i, v) :: rest
    else (i, v) :: (k, w) :: rest

/-- Write the elements of a sequence at `base`, `base + 1`, ..., in that order (R61). -/
def Memory.writeSeq {α : Type} (m : Memory α) (base : Nat) (vs : List α) : Memory α :=
  match vs with
  | [] => m
  | v :: rest => Memory.writeSeq (m.write base v) (base + 1) rest

/-- The indices of a memory rise strictly from above `low` on. -/
def Memory.risingFrom {α : Type} (low : Nat) (m : Memory α) : Bool :=
  match m with
  | [] => true
  | (k, _) :: rest => decide (low ≤ k) && Memory.risingFrom (k + 1) rest

/-- The canonical form: indices strictly rising, each below the space's size. -/
def Memory.wf {α : Type} (size : Nat) (m : Memory α) : Bool :=
  Memory.risingFrom 0 m && m.all (fun c => decide (c.1 < size))

/-! ### The CodeTable's entries (R41, R53) -/

end Sys2Proof.Machine

namespace Sys2Proof

/-- The invalid entry: "When valid = 0, len and code are 0" (R41). -/
def CtEntry.invalid : CtEntry := ⟨false, 0, 0⟩

/-- The number that has digit j of the path as its bit j. -/
def pathBits (path : List Bool) : Nat :=
  match path with
  | [] => 0
  | d :: rest => d.toNat + 2 * pathBits rest

/-- The valid entry that holds a path: digit 0 is bit 0 of `code`; 0 is left, 1 is right (R41, R140). -/
def CtEntry.ofPath (path : List Bool) : CtEntry :=
  ⟨true, BitVec.ofNat 8 path.length, BitVec.ofNat codeMax (pathBits path)⟩

/-- The digits of an entry's code, digit 0 first (R41, R62). -/
def CtEntry.digits (e : CtEntry) : List Bool :=
  (List.range e.len.toNat).map (fun j => e.code.getLsbD j)

end Sys2Proof

namespace Sys2Proof.Machine

/-- `MemRead(CT, s)`: every entry is defined since reset, an unlisted one is invalid (R53, R79). -/
def readCode (ct : Memory CtEntry) (s : Byte) : CtEntry :=
  (ct.read? s.toNat).getD CtEntry.invalid

/-- `MemWrite(CT, s, e)`: writing the invalid entry unlists the index, so that equal tables are equal lists. -/
def writeCode (ct : Memory CtEntry) (s : Byte) (e : CtEntry) : Memory CtEntry :=
  if e = CtEntry.invalid then ct.filter (fun c => c.1 != s.toNat) else ct.write s.toNat e

/-- Every entry invalid: what CLEAR, GENTAB's NoTreeError and reset leave (R53, R142, R184). -/
def invalidTable : Memory CtEntry := []

/-! ### Nodes (R40) -/

end Sys2Proof.Machine

namespace Sys2Proof

/-- The record the host reads for a node: the fields the variant does not have read 0 (R40). -/
def Node.record (n : Node) : NodeRecord :=
  match n with
  | .leaf sym freq => ⟨0, freq, sym, 0, 0⟩
  | .internal freq left right => ⟨1, freq, 0, left, right⟩

/-- The tagged variant that a record stands for. -/
def NodeRecord.node (r : NodeRecord) : Node :=
  if r.kind = 0 then .leaf r.sym r.freq else .internal r.freq r.left r.right

/-- The frequency field of a node. -/
def Node.freq (n : Node) : LenWord :=
  match n with
  | .leaf _ freq => freq
  | .internal freq _ _ => freq

end Sys2Proof

namespace Sys2Proof.Machine

/-! ### Completion and error entry -/

/-- The end of every command (R180 step 6): BUSY <- 0. The next command sees a new epoch: an element never
written is fixed for one command and not promised equal in another (U6, log 4). -/
def State.finish (s : State) : State :=
  { s with running := none, overlap := 0, epoch := s.epoch + 1 }

/-- Success status (R181): ERR, ERRCODE, ERR_POS and ERR_VAL are written 0, and the command ends. -/
def State.succeed (s : State) : State :=
  { s.finish with err := false, errCode := .none, errPos := 0, errVal := 0 }

/-- `raise E(pos, val)` (R182, R209): ERR <- 1, the record is written, and the command ends. What the command
zeroes of its own output object (R210) it has done in `s`. There is no return from an error: HTB is idle and ready
after it (R211), and the next command's success status clears the record (R181). -/
def State.raise (s : State) (e : ErrorCode) (pos : Nat) (val : Byte) : State :=
  { s.finish with err := true, errCode := e, errPos := BitVec.ofNat elenW pos, errVal := val }

/-- An error that a command has met: its code, position and value (R200). -/
structure Raised where
  code : ErrorCode
  pos : Nat
  val : Byte
  deriving DecidableEq, Repr

/-- IllegalCommandError (R95, R206): taken at the CMD write itself; nothing but the record changes. -/
def State.raiseIllegal (s : State) (w : Byte) : State := s.raise .illegalCommand 0 w

end Sys2Proof.Machine
end

