-- ==== Sys2Proof/Machine/Flags.lean ====
section
/-! DEFINITION. The flags of STATUS and ERRCODE as the host reads them (R22, R23, R36). HTB has no arithmetic
condition codes (R36). -/

namespace Sys2Proof.Machine

/-- STATUS.BUSY: a command is running (R22). -/
def State.busy (s : State) : Bool := s.running.isSome

/-- The STATUS word: bit 0 BUSY, bit 1 ERR, bit 2 TREE_VALID, bit 3 TRAILING, bits 7:4 read 0 (R22). -/
def State.statusWord (s : State) : Byte :=
  BitVec.ofNat 8 (s.busy.toNat + 2 * s.err.toNat + 4 * s.treeValid.toNat + 8 * s.trailing.toNat)

/-- The number of an error code (R23, R200). -/
def ErrorCode.toBits (e : ErrorCode) : BitVec 4 :=
  match e with
  | .none => 0
  | .emptyInput => 1
  | .unknownSymbol => 2
  | .truncatedStream => 3
  | .malformedStream => 4
  | .noTree => 5
  | .illegalCommand => 6

/-- TRAILING <- (pos < ENC_LEN) (R160, R166). -/
def State.leavesDigits (s : State) (pos : Nat) : Bool := decide (pos < s.encLen.toNat)

end Sys2Proof.Machine
end

