-- ==== Sys2Proof/Machine/Operands.lean ====
section
/-! DEFINITION. The implicit operands of the commands (R91): the elements and sequences each one reads, and the
registers and elements as the host reads and writes them (R34, R35, R44, R45, R68). -/

namespace Sys2Proof.Machine

/-! ### The engine's reads (R78, R79) -/

/-- `MemRead(SYM, i)`; an element never written is a free value (R79, log 4). -/
def State.symAt (s : State) (i : Nat) : Byte :=
  (s.sym.read? i).getD (Config.unwrittenByte s.epoch 0 i)

/-- `MemRead(ENC, p)`; an element never written is a free value (R79, log 4). -/
def State.encAt (s : State) (p : Nat) : Byte :=
  (s.enc.read? p).getD (Config.unwrittenByte s.epoch 4 p)

/-- An element of DEC, which only the host reads (R43). -/
def State.decAt (s : State) (i : Nat) : Byte :=
  (s.dec.read? i).getD (Config.unwrittenByte s.epoch 5 i)

/-- `MemRead(FT, j)`; no run reads an entry that COUNT has not written (R79, log 10). -/
def State.ftAt (s : State) (j : Nat) : FtEntry :=
  (s.ft.read? j).getD (Config.unwrittenEntry s.epoch j)

/-- `MemRead(NODE, i)`; no run reads a node that BUILD has not written (R79, log 10). -/
def State.nodeAt (s : State) (i : Nat) : Node :=
  (s.node.read? i).getD (Config.unwrittenNode s.epoch i).node

/-- `MemRead(CT, x)` (R53, R79). -/
def State.codeOf (s : State) (x : Byte) : CtEntry := readCode s.ct x

/-! ### The five objects (00_scope.md section 8) and the input sequence -/

/-- The input sequence SYM[0 .. SYM_LEN - 1] (R38). -/
def State.symbols (s : State) : List Byte := (List.range s.symLen.toNat).map s.symAt

/-- The FrequencyTable FT[0 .. FT_K - 1], in table order (R39). -/
def State.table (s : State) : List FtEntry := (List.range s.ftK.toNat).map s.ftAt

/-- The nodes NODE[0 .. NODE_CNT - 1] of the tree (R40). -/
def State.nodes (s : State) : List Node := (List.range s.nodeCnt.toNat).map s.nodeAt

/-- The EncodedStream ENC[0 .. ENC_LEN - 1] (R42). -/
def State.stream (s : State) : List Byte := (List.range s.encLen.toNat).map s.encAt

/-- The decoded sequence DEC[0 .. DEC_LEN - 1] (R43). -/
def State.decoded (s : State) : List Byte := (List.range s.decLen.toNat).map s.decAt

/-! ### Registers, as the host sees them -/

end Sys2Proof.Machine

namespace Sys2Proof

/-- The register index of each register (R68). -/
def Reg.index (r : Reg) : Nat :=
  match r with
  | .cmd => 0x00
  | .status => 0x01
  | .errcode => 0x02
  | .errPos => 0x03
  | .errVal => 0x04
  | .symLen => 0x05
  | .ftK => 0x06
  | .nodeCnt => 0x07
  | .root => 0x08
  | .encLen => 0x09
  | .expCnt => 0x0A
  | .decLen => 0x0B
  | .decPos => 0x0C

/-- The register at an index; indices 0x0D and above are reserved (R34). -/
def Reg.ofIndex (k : Nat) : Option Reg :=
  match k with
  | 0x00 => some .cmd
  | 0x01 => some .status
  | 0x02 => some .errcode
  | 0x03 => some .errPos
  | 0x04 => some .errVal
  | 0x05 => some .symLen
  | 0x06 => some .ftK
  | 0x07 => some .nodeCnt
  | 0x08 => some .root
  | 0x09 => some .encLen
  | 0x0A => some .expCnt
  | 0x0B => some .decLen
  | 0x0C => some .decPos
  | _ => none

end Sys2Proof

namespace Sys2Proof.Machine

/-- The value of a register as the host reads it; CMD reads 0 (R21). -/
def State.readReg (s : State) (r : Reg) : Nat :=
  match r with
  | .cmd => 0
  | .status => s.statusWord.toNat
  | .errcode => s.errCode.toBits.toNat
  | .errPos => s.errPos.toNat
  | .errVal => s.errVal.toNat
  | .symLen => s.symLen.toNat
  | .ftK => s.ftK.toNat
  | .nodeCnt => s.nodeCnt.toNat
  | .root => s.root.toNat
  | .encLen => s.encLen.toNat
  | .expCnt => s.expCnt.toNat
  | .decLen => s.decLen.toNat
  | .decPos => s.decPos.toNat

/-- A host write to a register other than CMD: a read-write register of width N takes `v mod 2^N`, a read-only
one ignores the write (R35). -/
def State.writeReg (s : State) (r : Reg) (v : Nat) : State :=
  match r with
  | .symLen => { s with symLen := BitVec.ofNat lenW v }
  | .encLen => { s with encLen := BitVec.ofNat elenW v }
  | .expCnt => { s with expCnt := BitVec.ofNat lenW v }
  | .cmd => s
  | .status => s
  | .errcode => s
  | .errPos => s
  | .errVal => s
  | .ftK => s
  | .nodeCnt => s
  | .root => s
  | .decLen => s
  | .decPos => s

/-! ### Spaces, as the host sees them -/

end Sys2Proof.Machine

namespace Sys2Proof

/-- The id of each space (R68). -/
def Space.id (sp : Space) : Nat :=
  match sp with
  | .sym => 0
  | .ft => 1
  | .node => 2
  | .ct => 3
  | .enc => 4
  | .dec => 5

/-- The space with an id; ids above 5 name none (R45). -/
def Space.ofId (k : Nat) : Option Space :=
  match k with
  | 0 => some .sym
  | 1 => some .ft
  | 2 => some .node
  | 3 => some .ct
  | 4 => some .enc
  | 5 => some .dec
  | _ => none

/-- The number of elements of a space (10_state.md section 6). -/
def Space.size (sp : Space) : Nat :=
  match sp with
  | .sym => Config.seqMax
  | .ft => Config.alphabetMax
  | .node => Config.nodeMax
  | .ct => Config.alphabetMax
  | .enc => Config.streamMax
  | .dec => Config.seqMax

end Sys2Proof

namespace Sys2Proof.Machine

/-- The element of a space at an index below its size, as the host reads it (R44); NODE elements show all five
fields (R40). An element never written is a free value (R52, U6, log 4). -/
def State.element (s : State) (sp : Space) (i : Nat) : HostValue :=
  match sp with
  | .sym => .byte (s.symAt i)
  | .ft => .entry (s.ftAt i)
  | .node => .node (((s.node.read? i).map Node.record).getD (Config.unwrittenNode s.epoch i))
  | .ct => .code (s.codeOf (BitVec.ofNat 8 i))
  | .enc => .byte (s.encAt i)
  | .dec => .byte (s.decAt i)

/-- A host write of an element at an index below the space's size: SYM and ENC take it, the read-only spaces
ignore it (R44). -/
def State.writeElement (s : State) (sp : Space) (i : Nat) (v : Byte) : State :=
  match sp with
  | .sym => { s with sym := s.sym.write i v }
  | .enc => { s with enc := s.enc.write i v }
  | .ft => s
  | .node => s
  | .ct => s
  | .dec => s

end Sys2Proof.Machine
end

