-- ==== Sys2Proof/Machine/Build.lean ====
section
/-! DEFINITION. BUILD, the tree builder (spec/41_build.md). The hidden set PQ (R46) is a list of node indices; only
the order in which `extractMin` returns its members is observable. -/

namespace Sys2Proof.Machine

/-- The frequency of the working node at index `i`. -/
def freqAt (nodes : List Node) (i : Nat) : Nat :=
  match nodes[i]? with
  | some n => n.freq.toNat
  | none => 0

/-- The order of `extract_min`: (freq, index) lexicographically, both unsigned (R123, R186). -/
def comesBefore (nodes : List Node) (i j : Nat) : Bool :=
  decide (freqAt nodes i < freqAt nodes j) || (freqAt nodes i == freqAt nodes j && decide (i < j))

/-- The member that comes first among `best` and the listed ones. -/
def minMember (nodes : List Node) (best : Nat) (members : List Nat) : Nat :=
  match members with
  | [] => best
  | i :: rest => minMember nodes (if comesBefore nodes i best then i else best) rest

/-- `PQ.extract_min()`: the first member in the order of R123, and the set without it. -/
def extractMin (nodes : List Node) (pq : List Nat) : Option (Nat × List Nat) :=
  match pq with
  | [] => none
  | i :: rest =>
    let m := minMember nodes i rest
    some (m, (i :: rest).erase m)

/-- The Internal node over the first-removed `a` (left) and the second-removed `b` (right) (R120, R126, R127). -/
def mergedNode (nodes : List Node) (a b : Nat) : Node :=
  .internal (BitVec.ofNat lenW (freqAt nodes a + freqAt nodes b)) (BitVec.ofNat nidxW a) (BitVec.ofNat nidxW b)

/-- BUILD's merge loop (R120): while PQ has more than one member, merge the two that come first; the one that
remains is the root. `passes` bounds the passes; FT_K of them are enough for FT_K leaves (R124). -/
def mergeLoop (passes : Nat) (nodes : List Node) (pq : List Nat) : List Node × Nat :=
  match passes with
  | 0 => (nodes, pq.headD 0)
  | n + 1 =>
    match extractMin nodes pq with
    | none => (nodes, 0)
    | some (a, pq1) =>
      match extractMin nodes pq1 with
      | none => (nodes, a)
      | some (b, pq2) => mergeLoop n (nodes ++ [mergedNode nodes a b]) (pq2 ++ [nodes.length])

/-- One Leaf per table entry, in table order (R122). -/
def leavesOf (table : List FtEntry) : List Node := table.map (fun e => Node.leaf e.sym e.cnt)

/-- The working nodes and the root's index for a table (R120, R122, R125). -/
def buildTree (table : List FtEntry) : List Node × Nat :=
  mergeLoop table.length (leavesOf table) (List.range table.length)

/-- BUILD's writes on success: NODE, NODE_CNT, ROOT, TREE_VALID; nodes at NODE_CNT and above keep what they held
(R120, R129). -/
def State.putTree (s : State) (nodes : List Node) (root : Nat) : State :=
  { s with
    node := s.node.writeSeq 0 nodes
    nodeCnt := BitVec.ofNat nidxW nodes.length
    root := BitVec.ofNat nidxW root
    treeValid := true }

/-- BUILD's zeroed output object (R121, R210). -/
def State.dropTree (s : State) : State := { s with nodeCnt := 0, root := 0, treeValid := false }

/-- BUILD (R120): EmptyInputError on the empty table (R121), else the tree of the table. -/
def execBuild (s : State) : Host.Outcome State Fault Refusal :=
  if s.ftK = 0 then .next (s.dropTree.raise .emptyInput 0 0)
  else
    let t := buildTree s.table
    .next (s.putTree t.1 t.2).succeed

end Sys2Proof.Machine
end

