-- ==== Sys2Proof/Machine/Control.lean ====
section
/-! DEFINITION. NOP (R183) and CLEAR (R184), the two commands that belong to no component. -/

namespace Sys2Proof.Machine

/-- NOP (R183): nothing but the success status. -/
def execNop (s : State) : Host.Outcome State Fault Refusal := .next s.succeed

/-- Every operand and result register, TREE_VALID and TRAILING to 0 and every CodeTable entry invalid; the other
spaces keep their contents (R184). -/
def State.clearObjects (s : State) : State :=
  { s with
    treeValid := false, trailing := false
    symLen := 0, ftK := 0, nodeCnt := 0, root := 0
    encLen := 0, expCnt := 0, decLen := 0, decPos := 0
    ct := invalidTable }

/-- CLEAR (R184): the end of the session. -/
def execClear (s : State) : Host.Outcome State Fault Refusal := .next s.clearObjects.succeed

end Sys2Proof.Machine
end

