-- ==== Sys2Proof/Machine/Count.lean ====
section
/-! DEFINITION. COUNT, the frequency counter (spec/40_count.md). -/

namespace Sys2Proof.Machine

/-- One pass of COUNT's loop on the working table: a known symbol's count rises by one, a new symbol is appended
with count 1 (R110, R111). -/
def countSymbol (table : List FtEntry) (x : Byte) : List FtEntry :=
  match table with
  | [] => [⟨x, 1⟩]
  | e :: rest => if e.sym = x then ⟨e.sym, e.cnt + 1⟩ :: rest else e :: countSymbol rest x

/-- The FrequencyTable of a sequence, in first-seen order (R110, R111). -/
def countSymbols (symbols : List Byte) : List FtEntry := symbols.foldl countSymbol []

/-- COUNT's writes: FT[0 .. K - 1] and FT_K; elements at K and above keep what they held (R110, R116). -/
def State.putTable (s : State) (table : List FtEntry) : State :=
  { s with ft := s.ft.writeSeq 0 table, ftK := BitVec.ofNat nidxW table.length }

/-- COUNT (R110): it always succeeds. -/
def execCount (s : State) : Host.Outcome State Fault Refusal :=
  .next (s.putTable (countSymbols s.symbols)).succeed

end Sys2Proof.Machine
end

