-- ==== Sys2Proof/Machine/Decoder.lean ====
section
/-! DEFINITION. DECODE, the decoder (spec/44_decode.md). -/

namespace Sys2Proof.Machine

/-- What the walk ends in: the symbols emitted and the digits consumed, or the error it met. -/
inductive Walked where
  | done (symbols : List Byte) (pos : Nat)
  | failed (e : Raised)
  deriving DecidableEq, Repr

/-- A symbol emitted in front of the rest of the walk. -/
def Walked.emit (x : Byte) (r : Walked) : Walked :=
  match r with
  | .done rest pos => .done (x :: rest) pos
  | .failed e => .failed e

/-- The child a digit element leads to (R160). A Leaf has none: its record's fields read 0 (R40), and the walk
never asks for them in a tree (R170, log 11). -/
def childOf (p : Parameters) (n : Node) (c : Byte) : NodeIndex :=
  if c = p.digit0 then n.record.left else n.record.right

/-- The loop of R160 as the transition table of R173, rows in its order. `left` is ENC_LEN - pos, `need` is
EXP_CNT - out, `ptr` is PTR. -/
def decodeWalk (s : State) (left need ptr pos : Nat) : Walked :=
  match left, need with
  | _, 0 => .done [] pos
  | 0, _ + 1 => .failed ⟨.truncatedStream, pos, 0⟩
  | l + 1, n + 1 =>
    let c := s.encAt pos
    if c = s.params.digit0 ∨ c = s.params.digit1 then
      let t := (childOf s.params (s.nodeAt ptr) c).toNat
      match s.nodeAt t with
      | .leaf x _ => (decodeWalk s l n s.root.toNat (pos + 1)).emit x
      | .internal _ _ _ => decodeWalk s l (n + 1) t (pos + 1)
    else .failed ⟨.malformedStream, pos, c⟩

/-- The symbols and the consumed digits of a DECODE with a tree: EXP_CNT copies of a Leaf root's symbol, with no
element of ENC read (R163), else the walk from the root (R160). -/
def decodeStream (s : State) : Walked :=
  match s.nodeAt s.root.toNat with
  | .leaf x _ => .done (List.replicate s.expCnt.toNat x) 0
  | .internal _ _ _ => decodeWalk s s.encLen.toNat s.expCnt.toNat s.root.toNat 0

/-- DECODE's writes on success: DEC, DEC_LEN, DEC_POS, TRAILING; elements at DEC_LEN and above keep what they held
(R160, R166, R172). -/
def State.putDecoded (s : State) (symbols : List Byte) (pos : Nat) : State :=
  { s with
    dec := s.dec.writeSeq 0 symbols
    decLen := BitVec.ofNat lenW symbols.length
    decPos := BitVec.ofNat elenW pos
    trailing := s.leavesDigits pos }

/-- DECODE's zeroed output object (R167, R210). -/
def State.dropDecoded (s : State) : State := { s with decLen := 0, decPos := 0, trailing := false }

/-- DECODE (R160): NoTreeError before anything else is read (R162). -/
def execDecode (s : State) : Host.Outcome State Fault Refusal :=
  if s.treeValid then
    match decodeStream s with
    | .done symbols pos => .next (s.putDecoded symbols pos).succeed
    | .failed e => .next (s.dropDecoded.raise e.code e.pos e.val)
  else .next (s.dropDecoded.raise .noTree 0 0)

end Sys2Proof.Machine
end

