-- ==== Sys2Proof/Machine/Encoder.lean ====
section
/-! DEFINITION. ENCODE, the encoder (spec/43_encode.md). -/

namespace Sys2Proof.Machine

/-- The element that stands for a digit: DIGIT1 for 1, DIGIT0 for 0 (R12, R150). -/
def digitElement (p : Parameters) (d : Bool) : Byte := if d then p.digit1 else p.digit0

/-- What ENCODE's loop ends in: the elements of the whole stream, or the error it met. -/
inductive Encoded where
  | done (elements : List Byte)
  | failed (e : Raised)
  deriving DecidableEq, Repr

/-- Elements in front of the rest of the stream. -/
def Encoded.prepend (front : List Byte) (r : Encoded) : Encoded :=
  match r with
  | .done rest => .done (front ++ rest)
  | .failed e => .failed e

/-- ENCODE's loop from input index `i` on (R150): each symbol's entry is checked before any of its digits is
appended, so the first unknown symbol ends the command (R152). -/
def encodeFrom (p : Parameters) (ct : Memory CtEntry) (i : Nat) (symbols : List Byte) : Encoded :=
  match symbols with
  | [] => .done []
  | x :: rest =>
    let e := readCode ct x
    if e.valid then (encodeFrom p ct (i + 1) rest).prepend (e.digits.map (digitElement p))
    else .failed ⟨.unknownSymbol, i, x⟩

/-- ENCODE's writes on success: ENC[0 .. L - 1] and ENC_LEN; elements at L and above keep what they held (R150,
R157). -/
def State.putStream (s : State) (elements : List Byte) : State :=
  { s with enc := s.enc.writeSeq 0 elements, encLen := BitVec.ofNat elenW elements.length }

/-- ENCODE's zeroed output object (R152, R210). -/
def State.dropStream (s : State) : State := { s with encLen := 0 }

/-- ENCODE (R150). -/
def execEncode (s : State) : Host.Outcome State Fault Refusal :=
  match encodeFrom s.params s.ct 0 s.symbols with
  | .done elements => .next (s.putStream elements).succeed
  | .failed e => .next (s.dropStream.raise e.code e.pos e.val)

end Sys2Proof.Machine
end

