-- ==== Sys2Proof/Machine/Gentab.lean ====
section
/-! DEFINITION. GENTAB, the code-table generator (spec/42_gentab.md). -/

namespace Sys2Proof.Machine

/-- `visit(i, path)` (R140): depth first, 0 to the left child and 1 to the right, binding each leaf's symbol to its
path in the working table. `depth` is how many levels may still be entered; none is answered when a path would
have more digits than that allows. -/
def visit (s : State) (depth : Nat) (i : Nat) (path : List Bool) (ct : Memory CtEntry) :
    Option (Memory CtEntry) :=
  match depth with
  | 0 => none
  | d + 1 =>
    match s.nodeAt i with
    | .leaf sym _ => some (writeCode ct sym (CtEntry.ofPath path))
    | .internal _ left right =>
      match visit s d left.toNat (path ++ [false]) ct with
      | none => none
      | some ct' => visit s d right.toNat (path ++ [true]) ct'

/-- GENTAB's write: the whole CodeTable (R141). -/
def State.putCodes (s : State) (ct : Memory CtEntry) : State := { s with ct := ct }

/-- The table of the tree: every entry first invalid, then one entry per leaf (R140, R141). A path has at most
CODE_MAX digits (R145, R48), so CODE_MAX + 1 levels of nodes. -/
def codeTable (s : State) : Option (Memory CtEntry) := visit s (codeMax + 1) s.root.toNat [] invalidTable

/-- GENTAB (R140): NoTreeError, with every entry invalid, when there is no tree (R142, R210). Where NODE holds a
path longer than CODE_MAX, which no tree of BUILD's does (R145), the model stops (log 9). -/
def execGentab (s : State) : Host.Outcome State Fault Refusal :=
  if s.treeValid then
    match codeTable s with
    | some ct => .next (s.putCodes ct).succeed
    | none => .fault .pathTooLong
  else .next ((s.putCodes invalidTable).raise .noTree 0 0)

end Sys2Proof.Machine
end

