-- ==== Sys2Proof/Machine/HostPort.lean ====
section
/-! DEFINITION. The host's transactions (spec/20_memory.md R68, R73; spec/10_state.md R34, R35, R44, R45), the start
of a command (R180), the busy window (R73, R188) and the reset input (R230). -/

namespace Sys2Proof.Machine

/-- The end of a host read: the host holds the value. A read has no other effect (R34, R67). -/
def State.answer (s : State) (v : HostValue) : State := { s with readData := some v }

/-- The end of a read that may return an unspecified value: the next one sees a new epoch, since not even two
such reads need agree (R67, U6, log 4). -/
def State.answerAndAdvance (s : State) (v : HostValue) : State :=
  { s.answer v with epoch := s.epoch + 1 }

/-- A refused read: an unspecified value (R45, R73, log 5). -/
def State.refuseRead (s : State) : State := s.answerAndAdvance (Config.refusedRead s.epoch)

/-- RegRead: a reserved index reads 0 (R34). -/
def State.regRead (s : State) (k : Nat) : State :=
  match Reg.ofIndex k with
  | some r => s.answer (.reg (s.readReg r))
  | none => s.answer (.reg 0)

/-- RegWrite to an index other than CMD's: a write to a reserved index is ignored (R34, R35). -/
def State.regWrite (s : State) (k v : Nat) : State :=
  match Reg.ofIndex k with
  | some r => s.writeReg r v
  | none => s

/-- SpaceRead: outside the space, or with an id above 5, it is refused (R44, R45). -/
def State.spaceRead (s : State) (id i : Nat) : State :=
  match Space.ofId id with
  | some sp => if i < sp.size then s.answerAndAdvance (s.element sp i) else s.refuseRead
  | none => s.refuseRead

/-- SpaceWrite: outside the space, or with an id above 5, it is ignored (R44, R45). -/
def State.spaceWrite (s : State) (id i : Nat) (v : Byte) : State :=
  match Space.ofId id with
  | some sp => if i < sp.size then s.writeElement sp i v else s
  | none => s

/-- The reset input (R230, R231): the reset state of the same machine, a running command aborted. What the host still
means to do and what it has read are the host's, and the epoch goes on (log 13). -/
def State.resetInput (s : State) : State :=
  { State.reset with host := s.host, readData := s.readData, epoch := s.epoch + 1, params := s.params }

/-- The host makes the transaction unless its condition on STATUS.ERR fails (R98, log 18). -/
def State.issues (s : State) (e : HostEvent) : Bool := !(e.ifNoError.isSome && s.err)

/-- How many of the transactions after it are left out with it: none, if it is made (R98, log 18). -/
def State.leftOutWith (s : State) (e : HostEvent) : Nat := if s.issues e then 0 else e.ifNoError.getD 0

/-- The host does not make the transaction, nor those that go with it (R98, log 18). -/
def State.leaveOut (s : State) (e : HostEvent) : State := { s with host := s.host.drop (s.leftOutWith e) }

/-- What a transaction made while BUSY = 0 comes to: it is done, or it runs a command to completion at once. -/
inductive Served where
  | handled (s : State)
  | runs (i : Instr) (s : State)

/-- A CMD write while BUSY = 0 (R21, R180): an illegal word ends at once in IllegalCommandError (R95, log 14); a
command runs, or is left running while `overlap` more transactions arrive (R73, R239, log 2). -/
def State.startCommand (s : State) (w : Byte) (overlap : Nat) : Served :=
  match decode w with
  | .command i =>
    if overlap = 0 then .runs i s else .handled { s with running := some i, overlap := overlap }
  | .reservedBitsSet => .handled (s.raiseIllegal w)
  | .opcodeUnassigned => .handled (s.raiseIllegal w)

/-- A transaction made while BUSY = 0. A write to CMD is a command word, of 8 bits (R21, log 8). -/
def State.serve (s : State) (e : HostEvent) : Served :=
  if s.issues e then
    match e.txn with
    | .regRead k => .handled (s.regRead k)
    | .regWrite k v =>
      if k = Reg.cmd.index then s.startCommand (BitVec.ofNat 8 v) e.overlap else .handled (s.regWrite k v)
    | .spaceRead id i => .handled (s.spaceRead id i)
    | .spaceWrite id i v => .handled (s.spaceWrite id i v)
    | .reset => .handled s.resetInput
  else .handled (s.leaveOut e)

/-- A transaction made while BUSY = 1 (R73, R188): RegRead(STATUS) answers, every other read is refused, every
write is ignored, to CMD too; reset aborts the command (R230). -/
def State.serveBusy (s : State) (e : HostEvent) : State :=
  if s.issues e then
    match e.txn with
    | .regRead k => if k = Reg.status.index then s.regRead k else s.refuseRead
    | .regWrite _ _ => s
    | .spaceRead _ _ => s.refuseRead
    | .spaceWrite _ _ _ => s
    | .reset => s.resetInput
  else s.leaveOut e

/-- The next transaction that arrives before the running command completes, and the state without it; none when
the window is over or the host has nothing more to do (R187, log 19). -/
def State.nextInWindow (s : State) : Option (HostEvent × State) :=
  match s.overlap, s.host with
  | 0, _ => none
  | _ + 1, [] => none
  | n + 1, e :: rest => some (e, { s with overlap := n, host := rest })

/-- The host's next transaction is a CMD write of `v` while nothing runs. -/
def State.withCommand (s : State) (v : Nat) : State :=
  { s with running := none, overlap := 0, host := { txn := .regWrite Reg.cmd.index v } :: s.host }

end Sys2Proof.Machine
end

