-- ==== Sys2Proof/Machine/Step.lean ====
section
/-! DEFINITION. One step of HTB: the host's next transaction, or the completion of the command that is running
(R72, R180; log 1, log 2). -/

namespace Sys2Proof.Machine

/-- While a command runs, the transactions of its busy window are served one a step, then it completes (R73, R180).
Otherwise the host's next transaction is served, and with none left the engine stays idle (R220). -/
def step (s : State) : Host.Outcome State Fault Refusal :=
  match s.running with
  | some i =>
    match s.nextInWindow with
    | some (e, s') => .next (s'.serveBusy e)
    | none => exec i s
  | none =>
    match s.host with
    | [] => .next s
    | e :: rest =>
      match State.serve { s with host := rest } e with
      | .handled s' => .next s'
      | .runs i s' => exec i s'

/-- The command word `w`, as the host's next transaction on an idle engine: HTB fetches no instruction (R37), a
command is one host write of an 8-bit word to CMD (R90; log 1). -/
def State.withFetchWord (s : State) (nbits w : Nat) : State := s.withCommand (w % 2 ^ nbits)

end Sys2Proof.Machine
end

