-- ==== Sys2Proof/Machine/Script.lean ====
section
/-! DEFINITION. The host script notation as host transactions (spec/30_encoding.md R97, R98). HTB does not parse it;
a script's expansion is a program for the field `host` of State. -/

namespace Sys2Proof.Machine

/-- `WR reg, value` (R97). When the register is CMD the write starts a command, whose duration is unspecified (R239):
`overlap` of the transactions after it, any number, fall into the command's busy window (log 2, log 18). -/
def wrEvent (r : Reg) (v overlap : Nat) : HostEvent := { txn := .regWrite r.index v, overlap := overlap }

/-- `RD reg` (R97). -/
def rdEvent (r : Reg) : HostEvent := { txn := .regRead r.index }

/-- `WM space, base, v0`, `WM space, base + 1, v1`, ... in order (R98). -/
def wmEvents (sp : Space) (base : Nat) (vs : List Byte) : List HostEvent :=
  match vs with
  | [] => []
  | v :: rest => { txn := .spaceWrite sp.id base v } :: wmEvents sp (base + 1) rest

/-- A command statement (R97): the command word, then STATUS reads until BUSY = 0, the first `polls` of them in the
busy window, `polls` being any number (R239, log 2). -/
def commandEvents (i : Instr) (polls : Nat) : List HostEvent :=
  { txn := .regWrite Reg.cmd.index (encode i).toNat, overlap := polls }
    :: List.replicate (polls + 1) { txn := .regRead Reg.status.index }

/-- A command statement issued only if the one before left STATUS.ERR = 0 (R98): without the command word its STATUS
reads are left out too, and with it they are made even when the command ends in an error. -/
def commandEventsIfNoError (i : Instr) (polls : Nat) : List HostEvent :=
  { txn := .regWrite Reg.cmd.index (encode i).toNat, overlap := polls, ifNoError := some (polls + 1) }
    :: List.replicate (polls + 1) { txn := .regRead Reg.status.index }

/-- The transactions a statement stands for (R97, R98). COMPRESS issues each command only if the one before left
STATUS.ERR = 0. How often a command's STATUS reads see BUSY = 1, and how many transactions fall into the
window of a command that `WR CMD` starts, are the statement's own numbers (log 2, log 18). The `WR` of LOADSYM, LOADENC and
EXPAND starts no command, so its 0 fixes nothing. -/
def expansion (st : Statement) : List HostEvent :=
  match st with
  | .wr r v overlap => [wrEvent r v overlap]
  | .rd r => [rdEvent r]
  | .wm sp i v => [{ txn := .spaceWrite sp.id i v }]
  | .rm sp i => [{ txn := .spaceRead sp.id i }]
  | .start i polls => commandEvents i polls
  | .reset => [{ txn := .reset }]
  | .loadSym text => wmEvents .sym 0 text ++ [wrEvent .symLen text.length 0]
  | .loadEnc digits => wmEvents .enc 0 digits ++ [wrEvent .encLen digits.length 0]
  | .compress countPolls buildPolls gentabPolls encodePolls =>
    commandEvents .count countPolls ++ commandEventsIfNoError .build buildPolls
      ++ commandEventsIfNoError .gentab gentabPolls ++ commandEventsIfNoError .encode encodePolls
  | .expand n polls => wrEvent .expCnt n 0 :: commandEvents .decode polls

/-- A script's transactions after those the host already has to make. -/
def State.withScript (s : State) (script : List Statement) : State :=
  { s with host := s.host ++ script.flatMap expansion }

end Sys2Proof.Machine
end

