-- ==== Sys2Proof/Safety.lean ====
section
/-! DEFINITION. The terms that claims about HTB use: paths in the tree, what the host has written, and the
invariants of the state (spec/10_state.md section 9). A safe run is one whose every state meets `State.Inv`. -/

namespace Sys2Proof.Machine

/-! ### Paths in the tree (R140, R147) -/

/-- The path leads from node `i` to a leaf of symbol `x`: 0 is left, 1 is right. -/
def leadsTo (s : State) (i : Nat) (path : List Bool) (x : Byte) : Bool :=
  match path with
  | [] =>
    match s.nodeAt i with
    | .leaf y _ => decide (y = x)
    | .internal _ _ _ => false
  | d :: rest =>
    match s.nodeAt i with
    | .leaf _ _ => false
    | .internal _ l r => leadsTo s (if d then r.toNat else l.toNat) rest x

/-- The path leads from node `i` through Internal nodes only and ends at an Internal node: the walk is mid-path. -/
def staysInside (s : State) (i : Nat) (path : List Bool) : Bool :=
  match path with
  | [] =>
    match s.nodeAt i with
    | .leaf _ _ => false
    | .internal _ _ _ => true
  | d :: rest =>
    match s.nodeAt i with
    | .leaf _ _ => false
    | .internal _ l r => staysInside s (if d then r.toNat else l.toNat) rest

/-- Each symbol comes with a path that leads to it from the root. -/
def leadsToAll (s : State) (coded : List (Byte × List Bool)) : Bool :=
  coded.all (fun c => leadsTo s s.root.toNat c.2 c.1)

/-- The stream elements of a sequence of paths, one after another (R151). -/
def streamOf (p : Parameters) (coded : List (Byte × List Bool)) : List Byte :=
  coded.flatMap (fun c => c.2.map (digitElement p))

/-! ### What the host has written (R240) -/

/-- Every element of SYM below SYM_LEN has been written since reset. -/
def State.inputWritten (s : State) : Bool :=
  (List.range s.symLen.toNat).all (fun i => (s.sym.read? i).isSome)

/-- Every element of ENC below ENC_LEN has been written since reset. -/
def State.streamWritten (s : State) : Bool :=
  (List.range s.encLen.toNat).all (fun p => (s.enc.read? p).isSome)

/-! ### Invariants -/

/-- The error record is consistent: ERR = 1 exactly when ERRCODE is not 0 (R22), and position and value are 0 when
there is no error (R24, R25). -/
def State.recordOk (s : State) : Bool :=
  decide (s.err = decide (s.errCode ≠ .none)) && (s.err || (s.errPos == 0 && s.errVal == 0))

/-- The spaces are in canonical form with every index inside its space, the CodeTable lists valid entries only,
with 0 above their digits (R41), and the FrequencyTable fits its space (R27). -/
def State.memoryOk (s : State) : Bool :=
  s.sym.wf Config.seqMax && s.ft.wf Config.alphabetMax && s.node.wf Config.nodeMax
    && s.ct.wf Config.alphabetMax && s.enc.wf Config.streamMax && s.dec.wf Config.seqMax
    && s.ct.all (fun c => c.2.valid && decide (c.2.code.toNat < 2 ^ c.2.len.toNat))
    && decide (s.ftK.toNat ≤ Config.alphabetMax)

/-- The FrequencyTable invariant (R54), with what it needs to stay exact: each entry of the table has been written,
and the counts sum to at most N_MAX (R10, R127). -/
def State.tableOk (s : State) : Bool :=
  decide (s.ftK.toNat ≤ Config.alphabetMax)
    && (List.range s.ftK.toNat).all (fun j => (s.ft.read? j).isSome)
    && decide (s.table.map FtEntry.sym).Nodup
    && s.table.all (fun e => decide (1 ≤ e.cnt.toNat))
    && decide ((s.table.map (fun e => e.cnt.toNat)).sum ≤ Config.seqMax)

/-- K' of R55: the number of leaves of the tree. -/
def State.leafCnt (s : State) : Nat := (s.nodeCnt.toNat + 1) / 2

/-- NODE[i] is a Leaf with a frequency of at least 1 (R55). -/
def State.leafOk (s : State) (i : Nat) : Bool :=
  match s.node.read? i with
  | some (.leaf _ f) => decide (1 ≤ f.toNat)
  | some (.internal _ _ _) => false
  | none => false

/-- NODE[i] is Internal, its children have smaller indices, and its frequency is the sum of theirs (R55). -/
def State.internalOk (s : State) (i : Nat) : Bool :=
  match s.node.read? i with
  | some (.internal f l r) =>
    decide (l.toNat < i) && decide (r.toNat < i)
      && decide (f.toNat = (s.nodeAt l.toNat).freq.toNat + (s.nodeAt r.toNat).freq.toNat)
  | some (.leaf _ _) => false
  | none => false

/-- The child indices of a node. -/
def childrenOf (n : Node) : List Nat :=
  match n with
  | .leaf _ _ => []
  | .internal _ l r => [l.toNat, r.toNat]

/-- The symbols of the leaves among some nodes. -/
def leafSymbols (nodes : List Node) : List Byte :=
  nodes.filterMap (fun n => match n with
    | .leaf x _ => some x
    | .internal _ _ _ => none)

/-- The nodes form one tree (R55): an odd number of nodes, the root the last; first the leaves, with distinct
symbols, then the Internal nodes; every node but the root is a child exactly once. -/
def State.isTree (s : State) : Bool :=
  decide (s.nodeCnt.toNat % 2 = 1) && decide (s.root.toNat = s.nodeCnt.toNat - 1)
    && (List.range s.leafCnt).all s.leafOk
    && (List.range' s.leafCnt (s.nodeCnt.toNat - s.leafCnt)).all s.internalOk
    && decide (leafSymbols s.nodes).Nodup
    && (List.range (s.nodeCnt.toNat - 1)).all (fun i => (s.nodes.flatMap childrenOf).count i == 1)

/-- The tree invariant (R55); without a tree NODE_CNT and ROOT are 0 (R28, R29). -/
def State.treeOk (s : State) : Bool :=
  if s.treeValid then s.isTree else s.nodeCnt == 0 && s.root == 0

/-- No code of the table is the beginning of another symbol's code (R56, R252). -/
def prefixFree (ct : Memory CtEntry) : Bool :=
  ct.all (fun a => ct.all (fun b => a.1 == b.1 || !(a.2.digits.isPrefixOf b.2.digits)))

/-- The CodeTable invariant (R56): prefix-free, and a single valid code is empty. That two or more valid codes are
not empty follows, since the empty code begins every other. -/
def State.codesOk (s : State) : Bool :=
  prefixFree s.ct && (s.ct.length != 1 || s.ct.all (fun c => c.2.len == 0))

/-- Every invariant of the state together. -/
def State.Inv (s : State) : Prop :=
  s.memoryOk = true ∧ s.recordOk = true ∧ s.tableOk = true ∧ s.treeOk = true ∧ s.codesOk = true

/-! ### Terms of the build's claims (R120, R123, R128) -/

/-- The members of PQ when the node at index `n` is about to be made: the indices below `n` that no node below `n`
has as a child. -/
def membersBefore (nodes : List Node) (n : Nat) : List Nat :=
  (List.range n).filter (fun i => !((nodes.take n).flatMap childrenOf).contains i)

/-- `a` and `b` are the first two members in the order of `extract_min` (R123, R128). -/
def firstTwo (nodes : List Node) (members : List Nat) (a b : Nat) : Prop :=
  a ∈ members ∧ b ∈ members ∧ a ≠ b ∧
    (∀ c ∈ members, c ≠ a → comesBefore nodes a c = true) ∧
    (∀ c ∈ members, c ≠ a → c ≠ b → comesBefore nodes b c = true)

/-! ### What a command leaves alone: one term per object (00_scope.md section 8) -/

/-- The input sequence is unchanged: SYM and SYM_LEN. -/
def sameInput (s t : State) : Prop := t.sym = s.sym ∧ t.symLen = s.symLen

/-- The FrequencyTable is unchanged: FT and FT_K. -/
def sameTable (s t : State) : Prop := t.ft = s.ft ∧ t.ftK = s.ftK

/-- The tree is unchanged: NODE, NODE_CNT, ROOT and TREE_VALID. -/
def sameTree (s t : State) : Prop :=
  t.node = s.node ∧ t.nodeCnt = s.nodeCnt ∧ t.root = s.root ∧ t.treeValid = s.treeValid

/-- The CodeTable is unchanged. -/
def sameCodes (s t : State) : Prop := t.ct = s.ct

/-- The EncodedStream is unchanged: ENC and ENC_LEN. -/
def sameStream (s t : State) : Prop := t.enc = s.enc ∧ t.encLen = s.encLen

/-- The decoded sequence is unchanged: DEC, DEC_LEN, DEC_POS and TRAILING. -/
def sameDecoded (s t : State) : Prop :=
  t.dec = s.dec ∧ t.decLen = s.decLen ∧ t.decPos = s.decPos ∧ t.trailing = s.trailing

/-- What is the host's is unchanged: EXP_CNT, its coming transactions, and what it has read. -/
def sameHostSide (s t : State) : Prop := t.expCnt = s.expCnt ∧ t.host = s.host ∧ t.readData = s.readData

/-- The command has completed without error: BUSY = 0 and the error record is 0 (R181). -/
def completed (t : State) : Prop :=
  t.busy = false ∧ t.err = false ∧ t.errCode = .none ∧ t.errPos = 0 ∧ t.errVal = 0

/-- The command has ended in the error: BUSY = 0 and the error record holds it (R182). -/
def endedIn (t : State) (e : ErrorCode) (pos : Nat) (val : Byte) : Prop :=
  t.busy = false ∧ t.err = true ∧ t.errCode = e ∧ t.errPos.toNat = pos ∧ t.errVal = val

/-! ### The busy window (R73) -/

/-- A transaction the host may make in the busy window that changes nothing: a write, or a read of STATUS. -/
def harmless (e : HostEvent) : Bool :=
  match e.txn with
  | .regRead k => k == Reg.status.index
  | .regWrite _ _ => true
  | .spaceRead _ _ => false
  | .spaceWrite _ _ _ => true
  | .reset => false

end Sys2Proof.Machine
end

