-- ==== Sys2Proof/Certificates/Slice0/Obligations.lean ====
section
/-! DEFINITION. The statements about HTB. Each docstring names the rules of spec/ it rests on. The model's own fields
(running, overlap, host, readData, epoch) stand for the host and for the free values; no statement rests on the value
of `epoch`. -/

open Sys2Proof Sys2Proof.Machine

/-! ### Reset -/

/-- R51: after reset every register reads 0, there is no tree, and the FrequencyTable, the EncodedStream and the
decoded sequence are empty. So is the CodeTable (R53). -/
def Obligations.ResetHoldsZeroInEveryRegister : Prop :=
  (∀ r : Reg, State.reset.readReg r = 0) ∧
  State.reset.busy = false ∧ State.reset.err = false ∧ State.reset.treeValid = false ∧
  State.reset.trailing = false ∧ State.reset.errCode.toBits = 0 ∧
  State.reset.table = [] ∧ State.reset.stream = [] ∧ State.reset.decoded = [] ∧
  State.reset.symbols = [] ∧ State.reset.nodes = [] ∧ (∀ x : Byte, State.reset.codeOf x = ⟨false, 0, 0⟩)

/-- R53: after reset the CodeTable is empty, and with such a table ENCODE of a non-empty sequence ends in
UnknownSymbolError. -/
def Obligations.ResetCodeTableIsEmpty : Prop :=
  (∀ x : Byte, State.reset.codeOf x = ⟨false, 0, 0⟩) ∧
  ∀ (s : State) (x : Byte) (rest : List Byte), s.ct = State.reset.ct → s.symbols = x :: rest →
    ∃ t, exec .encode s = .next t ∧ endedIn t .unknownSymbol 0 x

/-! ### Command words -/

/-- R93: decoding is total; the seven words 0x00 to 0x06 are the commands, a word with RSV not 0 is illegal, and so
are OP 7 to 15. -/
def Obligations.DecodingFollowsTheOpcodeMap : Prop :=
  (∀ w : Byte, w.toNat / 16 ≠ 0 → decode w = .reservedBitsSet) ∧
  decode 0x00 = .command .nop ∧ decode 0x01 = .command .clear ∧ decode 0x02 = .command .count ∧
  decode 0x03 = .command .build ∧ decode 0x04 = .command .gentab ∧ decode 0x05 = .command .encode ∧
  decode 0x06 = .command .decode ∧
  (∀ w : Byte, w.toNat / 16 = 0 → 7 ≤ w.toNat → decode w = .opcodeUnassigned)

/-- R90, R92: a word decodes to a command exactly when it is that command's word. -/
def Obligations.DecodeAndEncodeAgree : Prop :=
  ∀ (w : Byte) (i : Instr), i.wellFormed = true → (decode w = .command i ↔ encode i = w)

/-- R92: a few words written out bit by bit decode to what they stand for. -/
def Obligations.LiteralWordsDecode : Prop :=
  decode 0b00000010 = .command .count ∧ decode 0b00000101 = .command .encode ∧
  decodeTableWord 8 0b00000011 = some .build ∧ decode 0b00010010 = .reservedBitsSet ∧
  decode 0b00000111 = .opcodeUnassigned

/-! ### The command cycle -/

/-- R180, R21: on an idle engine a CMD write of a legal word runs its command. A command whose busy window is over
completes. The word given as a fetched word runs as the very next step. The model's choices in it: the host's
transactions as a list and the fetched word, log 1; the overlap that gives the busy window, log 2; a CMD value of 256 or more
taken modulo 2^8, log 8; the event's condition `g`, log 18; the completion when the host has nothing more, log 19. -/
def Obligations.StepRunsTheDecodedCommand : Prop :=
  (∀ (s : State) (v : Nat) (i : Instr) (g : Option Nat) (rest : List HostEvent),
    s.running = none → s.host = ⟨.regWrite 0 v, 0, g⟩ :: rest → g = none ∨ s.err = false →
    decode (BitVec.ofNat 8 v) = .command i → step s = exec i { s with host := rest }) ∧
  (∀ (s : State) (v n : Nat) (i : Instr) (g : Option Nat) (rest : List HostEvent),
    s.running = none → s.host = ⟨.regWrite 0 v, n + 1, g⟩ :: rest → g = none ∨ s.err = false →
    decode (BitVec.ofNat 8 v) = .command i →
    step s = .next { s with host := rest, running := some i, overlap := n + 1 }) ∧
  (∀ (s : State) (i : Instr), s.running = some i → s.overlap = 0 ∨ s.host = [] → step s = exec i s) ∧
  (∀ (s : State) (w : Nat) (i : Instr), decodeTableWord 8 w = some i →
    step (s.withFetchWord 8 w) = exec i { s with running := none, overlap := 0 })

/-- R95: an illegal word written to CMD while BUSY = 0 ends at once in IllegalCommandError with ERR_VAL the word;
nothing but the error record changes. That the word is the low 8 bits of a larger value is the model's choice, log 8, and
so is that the event's overlap has no effect, log 14. -/
def Obligations.IllegalWordChangesOnlyTheRecord : Prop :=
  ∀ (s : State) (v n : Nat) (rest : List HostEvent),
    s.running = none → s.host = ⟨.regWrite 0 v, n, none⟩ :: rest →
    (∀ i, decode (BitVec.ofNat 8 v) ≠ .command i) →
    step s = .next { s with
      host := rest, running := none, overlap := 0, epoch := s.epoch + 1
      err := true, errCode := .illegalCommand, errPos := 0, errVal := BitVec.ofNat 8 v }

/-- R36: TREE_VALID is written by BUILD and CLEAR only, TRAILING by DECODE and CLEAR only; CLEAR clears both. -/
def Obligations.FlagsAreWrittenOnlyByTheirCommands : Prop :=
  ∀ (i : Instr) (s t : State), exec i s = .next t →
    (i ≠ .build → i ≠ .clear → t.treeValid = s.treeValid) ∧
    (i ≠ .decode → i ≠ .clear → t.trailing = s.trailing) ∧
    (i = .clear → t.treeValid = false ∧ t.trailing = false)

/-- R181, R182: every command that completes leaves BUSY = 0 and either a zero error record or ERR = 1 with a code
that is not 0. What an error records as position and value is `Obligations.ErrorsComeOnlyFromTheirCommands`. -/
def Obligations.EveryCommandLeavesAZeroRecordOrACode : Prop :=
  ∀ (i : Instr) (s t : State), exec i s = .next t →
    completed t ∨ (t.busy = false ∧ t.err = true ∧ t.errCode ≠ .none)

/-- R200: which command raises which error, on what condition, and what it records. -/
def Obligations.ErrorsComeOnlyFromTheirCommands : Prop :=
  ∀ (i : Instr) (s t : State), exec i s = .next t →
    (t.errCode = .emptyInput → i = .build ∧ s.ftK = 0 ∧ t.errPos = 0 ∧ t.errVal = 0) ∧
    (t.errCode = .unknownSymbol → i = .encode ∧ s.symbols[t.errPos.toNat]? = some t.errVal ∧
      (s.codeOf t.errVal).valid = false) ∧
    (t.errCode = .truncatedStream → i = .decode ∧ t.errPos = s.encLen ∧ t.errVal = 0) ∧
    (t.errCode = .malformedStream → i = .decode ∧ t.errPos.toNat < s.encLen.toNat ∧
      t.errVal = s.encAt t.errPos.toNat ∧ t.errVal ≠ s.params.digit0 ∧ t.errVal ≠ s.params.digit1) ∧
    (t.errCode = .noTree → (i = .gentab ∨ i = .decode) ∧ s.treeValid = false ∧ t.errPos = 0 ∧ t.errVal = 0) ∧
    t.errCode ≠ .illegalCommand ∧
    (i = .nop ∨ i = .clear ∨ i = .count → t.errCode = .none)

/-- R210: a command that ends in error changes no element of any space but for GENTAB's invalidated table, and zeroes
its own output object and no other; an illegal word changes no object at all. That the word is the low 8 bits of a larger value
is the model's choice, log 8, and so is that the event's overlap has no effect, log 14. -/
def Obligations.FailedCommandsLeaveNoPartialResult : Prop :=
  (∀ (i : Instr) (s t : State), exec i s = .next t → t.err = true →
    t.sym = s.sym ∧ t.ft = s.ft ∧ t.node = s.node ∧ t.enc = s.enc ∧ t.dec = s.dec ∧
    (i = .gentab → ∀ x, t.codeOf x = ⟨false, 0, 0⟩) ∧ (i ≠ .gentab → t.ct = s.ct) ∧
    (i = .build → t.nodeCnt = 0 ∧ t.root = 0 ∧ t.treeValid = false) ∧ (i ≠ .build → sameTree s t) ∧
    (i = .encode → t.encLen = 0) ∧ (i ≠ .encode → t.encLen = s.encLen) ∧
    (i = .decode → t.decLen = 0 ∧ t.decPos = 0 ∧ t.trailing = false) ∧ (i ≠ .decode → sameDecoded s t) ∧
    t.symLen = s.symLen ∧ t.ftK = s.ftK ∧ sameHostSide s t) ∧
  (∀ (s t : State) (v n : Nat) (rest : List HostEvent),
    s.running = none → s.host = ⟨.regWrite 0 v, n, none⟩ :: rest →
    (∀ i, decode (BitVec.ofNat 8 v) ≠ .command i) → step s = .next t →
    sameInput s t ∧ sameTable s t ∧ sameTree s t ∧ sameCodes s t ∧ sameStream s t ∧ sameDecoded s t ∧
      t.expCnt = s.expCnt)

/-- R213: a failed command issued again, with what it reads written by the host, fails again with the same record. -/
def Obligations.FailedCommandFailsAgain : Prop :=
  ∀ (i : Instr) (s t : State), s.inputWritten = true → s.streamWritten = true → s.treeOk = true →
    exec i s = .next t → t.err = true →
    ∃ u, exec i t = .next u ∧ endedIn u t.errCode t.errPos.toNat t.errVal

/-! ### NOP and CLEAR -/

/-- R183: NOP changes nothing but the error record. -/
def Obligations.NopClearsOnlyTheRecord : Prop :=
  ∀ s : State, exec .nop s = .next { s with
    running := none, overlap := 0, epoch := s.epoch + 1
    err := false, errCode := .none, errPos := 0, errVal := 0 }

/-- R184: CLEAR puts every register to its reset value and invalidates the CodeTable; SYM, FT, NODE, ENC and DEC keep
their contents. -/
def Obligations.ClearEndsTheSession : Prop :=
  ∀ s : State, ∃ t, exec .clear s = .next t ∧ completed t ∧ (∀ r : Reg, t.readReg r = 0) ∧
    (∀ x : Byte, t.codeOf x = ⟨false, 0, 0⟩) ∧
    t.sym = s.sym ∧ t.ft = s.ft ∧ t.node = s.node ∧ t.enc = s.enc ∧ t.dec = s.dec ∧
    t.host = s.host ∧ t.readData = s.readData

/-! ### COUNT -/

/-- R111, R112: COUNT completes in every state; the keys are the distinct symbols in first-seen order, each count is
the number of occurrences, and the counts sum to SYM_LEN. -/
def Obligations.CountListsSymbolsFirstSeen : Prop :=
  ∀ s : State, ∃ t, exec .count s = .next t ∧ completed t ∧
    t.table.map FtEntry.sym = s.symbols.eraseDups ∧
    t.ftK.toNat = s.symbols.eraseDups.length ∧
    (∀ e ∈ t.table, e.cnt.toNat = s.symbols.count e.sym ∧ 1 ≤ e.cnt.toNat) ∧
    (t.table.map (fun e => e.cnt.toNat)).sum = s.symLen.toNat

/-- R113, R116: COUNT touches no other object; entries of FT at and above the new FT_K keep what they held, and the
empty input writes none. -/
def Obligations.CountTouchesOnlyTheTable : Prop :=
  ∀ s t : State, exec .count s = .next t →
    sameInput s t ∧ sameTree s t ∧ sameCodes s t ∧ sameStream s t ∧ sameDecoded s t ∧ sameHostSide s t ∧
    (∀ j, t.ftK.toNat ≤ j → t.ft.read? j = s.ft.read? j) ∧
    (s.symLen = 0 → t.ftK = 0 ∧ t.ft = s.ft ∧ completed t)

/-! ### BUILD -/

/-- R121: BUILD of the empty table ends in EmptyInputError and discards the tree. -/
def Obligations.BuildOfEmptyTableFails : Prop :=
  ∀ s : State, s.ftK = 0 → exec .build s = .next { s with
    running := none, overlap := 0, epoch := s.epoch + 1
    err := true, errCode := .emptyInput, errPos := 0, errVal := 0
    nodeCnt := 0, root := 0, treeValid := false }

/-- R122, R125: BUILD of a table of K entries completes; the leaves are the entries in table order, the Internal nodes
take the indices from K on, the root is the last node; with K = 1 it is the one Leaf. -/
def Obligations.BuildPlacesLeavesThenInternalNodes : Prop :=
  ∀ s : State, 1 ≤ s.ftK.toNat → s.ftK.toNat ≤ 256 →
    ∃ t, exec .build s = .next t ∧ completed t ∧ t.treeValid = true ∧
      t.nodeCnt.toNat = 2 * s.ftK.toNat - 1 ∧ t.root.toNat = 2 * s.ftK.toNat - 2 ∧
      (∀ j, j < s.ftK.toNat → t.node.read? j = some (.leaf (s.ftAt j).sym (s.ftAt j).cnt)) ∧
      (∀ n, s.ftK.toNat ≤ n → n < 2 * s.ftK.toNat - 1 →
        ∃ f l r, t.node.read? n = some (.internal f l r) ∧ l.toNat < n ∧ r.toNat < n)

/-- R123, R126, R128: every Internal node joins the two members of PQ that come first in the order (frequency, index),
the first as left child and the second as right child, with the sum of their frequencies. -/
def Obligations.BuildMergesTheFirstTwoMembers : Prop :=
  ∀ s : State, 1 ≤ s.ftK.toNat → s.ftK.toNat ≤ 256 →
    ∃ t, exec .build s = .next t ∧
      ∀ n, s.ftK.toNat ≤ n → n < 2 * s.ftK.toNat - 1 →
        ∃ f l r, t.nodeAt n = .internal f l r ∧
          firstTwo t.nodes (membersBefore t.nodes n) l.toNat r.toNat ∧
          f = (t.nodeAt l.toNat).freq + (t.nodeAt r.toNat).freq ∧
          (t.nodeAt l.toNat).freq.toNat ≤ (t.nodeAt r.toNat).freq.toNat ∧
          ((t.nodeAt l.toNat).freq = (t.nodeAt r.toNat).freq → l.toNat < r.toNat)

/-- R129: BUILD touches no other object; nodes at and above the new NODE_CNT keep what they held. FT_K is in its range
(R27). BUILD again on the same table, as COUNT leaves one, gives the same tree. -/
def Obligations.BuildTouchesOnlyTheTree : Prop :=
  ∀ s t : State, s.ftK.toNat ≤ 256 → exec .build s = .next t →
    sameInput s t ∧ sameTable s t ∧ sameCodes s t ∧ sameStream s t ∧ sameDecoded s t ∧ sameHostSide s t ∧
    (∀ i, t.nodeCnt.toNat ≤ i → t.node.read? i = s.node.read? i) ∧
    (s.tableOk = true → ∀ u, exec .build t = .next u → sameTree t u)

/-! ### GENTAB -/

/-- R142: GENTAB without a tree ends in NoTreeError and makes every entry invalid; nothing else changes. -/
def Obligations.GentabWithoutTreeFails : Prop :=
  ∀ s : State, s.treeValid = false →
    (∃ t, exec .gentab s = .next t ∧ ∀ x : Byte, t.codeOf x = ⟨false, 0, 0⟩) ∧
    exec .gentab s = .next { s with
      running := none, overlap := 0, epoch := s.epoch + 1
      err := true, errCode := .noTree, errPos := 0, errVal := 0
      ct := [] }

/-- R141, R147 (R140): with a tree GENTAB completes; a symbol has a valid entry with the digits p exactly when the path p leads
from the root to its leaf, every other entry is {0, 0, 0}, and there is one entry per leaf. -/
def Obligations.GentabBindsEachLeafToItsPath : Prop :=
  ∀ s : State, s.treeValid = true → s.treeOk = true →
    ∃ t, exec .gentab s = .next t ∧ completed t ∧
      (∀ (x : Byte) (p : List Bool),
        ((t.codeOf x).valid = true ∧ (t.codeOf x).digits = p) ↔ leadsTo s s.root.toNat p x = true) ∧
      (∀ x : Byte, (t.codeOf x).valid = false → t.codeOf x = ⟨false, 0, 0⟩) ∧
      t.ct.length = (s.nodeCnt.toNat + 1) / 2

/-- R143: when the root is a Leaf its symbol gets the empty code, valid with length 0, and no other symbol has one. -/
def Obligations.GentabGivesALeafRootTheEmptyCode : Prop :=
  ∀ (s : State) (x : Byte) (f : LenWord), s.treeValid = true → s.nodeAt s.root.toNat = .leaf x f →
    ∃ t, exec .gentab s = .next t ∧ completed t ∧ t.codeOf x = ⟨true, 0, 0⟩ ∧
      ∀ y : Byte, y ≠ x → t.codeOf y = ⟨false, 0, 0⟩

/-- R146: GENTAB touches no object but CT. -/
def Obligations.GentabTouchesOnlyTheCodeTable : Prop :=
  ∀ s t : State, exec .gentab s = .next t →
    sameInput s t ∧ sameTable s t ∧ sameTree s t ∧ sameStream s t ∧ sameDecoded s t ∧ sameHostSide s t

/-- R258: every code has at most K - 1 digits, K the number of leaves. -/
def Obligations.CodesAreShorterThanTheLeafCount : Prop :=
  ∀ s t : State, s.treeValid = true → s.treeOk = true → exec .gentab s = .next t →
    ∀ x : Byte, (t.codeOf x).len.toNat ≤ (s.nodeCnt.toNat + 1) / 2 - 1

/-- R252: after GENTAB no symbol's code is the beginning of another symbol's code. -/
def Obligations.CodesArePrefixFree : Prop :=
  ∀ s t : State, s.treeValid = true → s.treeOk = true → exec .gentab s = .next t →
    ∀ x y : Byte, x ≠ y → (t.codeOf x).valid = true → (t.codeOf y).valid = true →
      ¬ (t.codeOf x).digits <+: (t.codeOf y).digits

/-! ### ENCODE -/

/-- R151: with every input symbol in the table ENCODE completes, and the stream is the concatenation of the codes. -/
def Obligations.EncodeConcatenatesTheCodes : Prop :=
  ∀ s : State, (∀ x ∈ s.symbols, (s.codeOf x).valid = true) →
    ∃ t, exec .encode s = .next t ∧ completed t ∧
      t.stream = s.symbols.flatMap (fun x => (s.codeOf x).digits.map (digitElement s.params)) ∧
      t.encLen.toNat = (s.symbols.map (fun x => (s.codeOf x).len.toNat)).sum

/-- R152: the first input symbol without a valid entry ends ENCODE in UnknownSymbolError at its index; ENC_LEN is 0 and
no element of ENC changes. -/
def Obligations.EncodeStopsAtTheFirstUnknownSymbol : Prop :=
  ∀ (s : State) (i : Nat) (x : Byte),
    s.symbols[i]? = some x → (s.codeOf x).valid = false →
    (∀ y ∈ s.symbols.take i, (s.codeOf y).valid = true) →
    exec .encode s = .next { s with
      running := none, overlap := 0, epoch := s.epoch + 1
      err := true, errCode := .unknownSymbol, errPos := BitVec.ofNat elenW i, errVal := x
      encLen := 0 }

/-- R154: ENCODE of the empty sequence completes with the empty stream, whatever the table holds. -/
def Obligations.EncodeOfNothingIsEmpty : Prop :=
  ∀ s : State, s.symLen = 0 →
    ∃ t, exec .encode s = .next t ∧ completed t ∧ t.encLen = 0 ∧ t.enc = s.enc

/-- R157: ENCODE touches no object but the EncodedStream; elements of ENC at and above the new ENC_LEN keep what they
held. ENCODE again, on an input that the host has written, gives the same stream. -/
def Obligations.EncodeTouchesOnlyTheStream : Prop :=
  ∀ s t : State, exec .encode s = .next t →
    sameInput s t ∧ sameTable s t ∧ sameTree s t ∧ sameCodes s t ∧ sameDecoded s t ∧ sameHostSide s t ∧
    (∀ p, t.encLen.toNat ≤ p → t.enc.read? p = s.enc.read? p) ∧
    (s.inputWritten = true → ∀ u, exec .encode t = .next u → u.stream = t.stream ∧ u.encLen = t.encLen)

/-! ### DECODE -/

/-- R162: DECODE without a tree ends in NoTreeError and zeroes its own output object; nothing else changes. -/
def Obligations.DecodeWithoutTreeFails : Prop :=
  ∀ s : State, s.treeValid = false → exec .decode s = .next { s with
    running := none, overlap := 0, epoch := s.epoch + 1
    err := true, errCode := .noTree, errPos := 0, errVal := 0
    decLen := 0, decPos := 0, trailing := false }

/-- R163: when the root is a Leaf DECODE emits EXP_CNT copies of its symbol and consumes no digit. -/
def Obligations.DecodeCopiesALeafRoot : Prop :=
  ∀ (s : State) (x : Byte) (f : LenWord), s.treeValid = true → s.nodeAt s.root.toNat = .leaf x f →
    ∃ t, exec .decode s = .next t ∧ completed t ∧
      t.decoded = List.replicate s.expCnt.toNat x ∧ t.decLen = s.expCnt ∧ t.decPos = 0 ∧
      t.trailing = decide (0 < s.encLen.toNat)

/-- R161, R166, R171: when the stream begins with the paths of EXP_CNT leaves, DECODE completes, emits their symbols,
consumes exactly their digits, and TRAILING says whether anything is left; what is left is not checked. -/
def Obligations.DecodeEmitsTheSymbolsOfItsPaths : Prop :=
  ∀ (s : State) (coded : List (Byte × List Bool)) (tail : List Byte),
    s.treeValid = true → staysInside s s.root.toNat [] = true →
    leadsToAll s coded = true → coded.length = s.expCnt.toNat → s.stream = streamOf s.params coded ++ tail →
    ∃ t, exec .decode s = .next t ∧ completed t ∧
      t.decoded = coded.map (fun c => c.1) ∧ t.decLen = s.expCnt ∧
      t.decPos.toNat = (streamOf s.params coded).length ∧ t.trailing = !tail.isEmpty

/-- R164: when the stream runs out before EXP_CNT symbols, mid-path or on a code boundary, DECODE ends in
TruncatedStreamError at ENC_LEN, and nothing is decoded. -/
def Obligations.DecodeReportsATruncatedStream : Prop :=
  ∀ (s : State) (coded : List (Byte × List Bool)) (path : List Bool),
    s.treeValid = true → leadsToAll s coded = true → coded.length < s.expCnt.toNat →
    staysInside s s.root.toNat path = true → s.stream = streamOf s.params coded ++ path.map (digitElement s.params) →
    exec .decode s = .next { s with
      running := none, overlap := 0, epoch := s.epoch + 1
      err := true, errCode := .truncatedStream, errPos := s.encLen, errVal := 0
      decLen := 0, decPos := 0, trailing := false }

/-- R165: when an element about to be consumed is neither DIGIT0 nor DIGIT1, DECODE ends in MalformedStreamError at its
index with its value, and nothing is decoded; the same element after the last one consumed raises nothing. -/
def Obligations.DecodeReportsAMalformedElement : Prop :=
  (∀ (s : State) (coded : List (Byte × List Bool)) (c : Byte) (tail : List Byte),
    s.treeValid = true → leadsToAll s coded = true → coded.length = s.expCnt.toNat →
    staysInside s s.root.toNat [] = true → c ≠ s.params.digit0 → c ≠ s.params.digit1 →
    s.stream = streamOf s.params coded ++ c :: tail →
    ∃ t, exec .decode s = .next t ∧ completed t ∧ t.decPos.toNat = (streamOf s.params coded).length ∧ t.trailing = true) ∧
  ∀ (s : State) (coded : List (Byte × List Bool)) (path : List Bool) (c : Byte) (tail : List Byte),
    s.treeValid = true → leadsToAll s coded = true → coded.length < s.expCnt.toNat →
    staysInside s s.root.toNat path = true → c ≠ s.params.digit0 → c ≠ s.params.digit1 →
    s.stream = streamOf s.params coded ++ path.map (digitElement s.params) ++ c :: tail →
    exec .decode s = .next { s with
      running := none, overlap := 0, epoch := s.epoch + 1
      err := true, errCode := .malformedStream
      errPos := BitVec.ofNat elenW ((streamOf s.params coded).length + path.length), errVal := c
      decLen := 0, decPos := 0, trailing := false }

/-- R169: with EXP_CNT = 0 DECODE completes, reads no element of ENC and writes none of DEC. -/
def Obligations.DecodeOfNothingIsEmpty : Prop :=
  ∀ s : State, s.treeValid = true → s.expCnt = 0 →
    ∃ t, exec .decode s = .next t ∧ completed t ∧ t.decLen = 0 ∧ t.decPos = 0 ∧ t.dec = s.dec ∧
      t.trailing = decide (0 < s.encLen.toNat)

/-- R167, R172: DECODE touches no object but the decoded sequence; elements of DEC at and above the new DEC_LEN keep
what they held, and after an error no element of DEC has changed and its registers are 0. DECODE again, on a tree and a
stream that have been written, gives the same result. -/
def Obligations.DecodeTouchesOnlyTheDecodedSequence : Prop :=
  ∀ s t : State, exec .decode s = .next t →
    sameInput s t ∧ sameTable s t ∧ sameTree s t ∧ sameCodes s t ∧ sameStream s t ∧ sameHostSide s t ∧
    (∀ i, t.decLen.toNat ≤ i → t.dec.read? i = s.dec.read? i) ∧
    (t.err = true → t.dec = s.dec ∧ t.decLen = 0 ∧ t.decPos = 0 ∧ t.trailing = false) ∧
    (s.treeOk = true → s.streamWritten = true → ∀ u, exec .decode t = .next u →
      u.decoded = t.decoded ∧ u.decLen = t.decLen ∧ u.decPos = t.decPos ∧ u.trailing = t.trailing ∧ u.err = t.err)

/-! ### The host's transactions -/

/-- R34, R35: on an idle engine a host write to a read-write register stores the value modulo 2^width; a write to a
read-only register or to a reserved index changes nothing. A host read of a register returns its value and changes
nothing; CMD and the reserved indices read 0 (R21, R34), and so do bits 7:4 of STATUS, and BUSY (R22). -/
def Obligations.HostRegisterAccess : Prop :=
  (∀ (s : State) (k v n : Nat) (rest : List HostEvent),
    s.running = none → k ≠ 0 → s.host = ⟨.regWrite k v, n, none⟩ :: rest →
    step s = .next (
      if k = 0x05 then { s with host := rest, symLen := BitVec.ofNat 16 (v % 2 ^ 16) }
      else if k = 0x09 then { s with host := rest, encLen := BitVec.ofNat 24 (v % 2 ^ 24) }
      else if k = 0x0A then { s with host := rest, expCnt := BitVec.ofNat 16 (v % 2 ^ 16) }
      else { s with host := rest })) ∧
  ∀ (s : State) (k n : Nat) (rest : List HostEvent),
    s.running = none → s.host = ⟨.regRead k, n, none⟩ :: rest →
    ∃ v, step s = .next { s with host := rest, readData := some (.reg v) } ∧
      (k = 0x00 → v = 0) ∧
      (k = 0x01 → v = (if s.err then 2 else 0) + (if s.treeValid then 4 else 0) + (if s.trailing then 8 else 0)) ∧
      (k = 0x02 → v = s.errCode.toBits.toNat) ∧ (k = 0x03 → v = s.errPos.toNat) ∧
      (k = 0x04 → v = s.errVal.toNat) ∧ (k = 0x05 → v = s.symLen.toNat) ∧ (k = 0x06 → v = s.ftK.toNat) ∧
      (k = 0x07 → v = s.nodeCnt.toNat) ∧ (k = 0x08 → v = s.root.toNat) ∧ (k = 0x09 → v = s.encLen.toNat) ∧
      (k = 0x0A → v = s.expCnt.toNat) ∧ (k = 0x0B → v = s.decLen.toNat) ∧ (k = 0x0C → v = s.decPos.toNat) ∧
      (0x0D ≤ k → v = 0)

/-- R44, R45: on an idle engine a host write to SYM or ENC at an index inside the space makes that element and no other;
a write to a read-only space, outside a space, or to an id above 5 changes nothing. A host read of an element that has
been written returns it, a NODE element as its five fields (R40); every host read of an element changes nothing but what
the host has read. -/
def Obligations.HostSpaceAccess : Prop :=
  (∀ (s : State) (id i n : Nat) (v : Byte) (rest : List HostEvent),
    s.running = none → s.host = ⟨.spaceWrite id i v, n, none⟩ :: rest →
    ∃ t, step s = .next t ∧ t = { s with host := rest, sym := t.sym, enc := t.enc } ∧
      (id = 0 ∧ i < 65535 → t.sym.read? i = some v ∧ t.enc = s.enc ∧
        ∀ j, j ≠ i → t.sym.read? j = s.sym.read? j) ∧
      (id = 4 ∧ i < 16777215 → t.enc.read? i = some v ∧ t.sym = s.sym ∧
        ∀ j, j ≠ i → t.enc.read? j = s.enc.read? j) ∧
      (¬ (id = 0 ∧ i < 65535) → ¬ (id = 4 ∧ i < 16777215) → t.sym = s.sym ∧ t.enc = s.enc)) ∧
  ∀ (s : State) (id i n : Nat) (rest : List HostEvent),
    s.running = none → s.host = ⟨.spaceRead id i, n, none⟩ :: rest →
    ∃ v, step s = .next { s with host := rest, readData := some v, epoch := s.epoch + 1 } ∧
      (∀ b, id = 0 → i < 65535 → s.sym.read? i = some b → v = .byte b) ∧
      (∀ e, id = 1 → i < 256 → s.ft.read? i = some e → v = .entry e) ∧
      (∀ x f, id = 2 → i < 511 → s.node.read? i = some (.leaf x f) → v = .node ⟨0, f, x, 0, 0⟩) ∧
      (∀ f l r, id = 2 → i < 511 → s.node.read? i = some (.internal f l r) → v = .node ⟨1, f, 0, l, r⟩) ∧
      (id = 3 → i < 256 → v = .code (s.codeOf (BitVec.ofNat 8 i))) ∧
      (∀ b, id = 4 → i < 16777215 → s.enc.read? i = some b → v = .byte b) ∧
      (∀ b, id = 5 → i < 65535 → s.dec.read? i = some b → v = .byte b)

/-- R73, R188: while a command runs, a host transaction other than reset changes nothing but what the host has read, and
a read of STATUS returns BUSY = 1. That the other flags it returns are those from before the command is the model's
choice, log 3; leaving out transactions by a condition is log 18. -/
def Obligations.BusyWindowRefusesTransactions : Prop :=
  ∀ (s : State) (i : Instr) (n : Nat) (e : HostEvent) (rest : List HostEvent),
    s.running = some i → s.overlap = n + 1 → s.host = e :: rest → e.txn ≠ .reset →
    ∃ t, step s = .next t ∧
      { t with readData := s.readData, epoch := s.epoch } = { s with host := rest.drop (s.leftOutWith e), overlap := n } ∧
      (e.txn = .regRead 1 → e.ifNoError = none →
        t.readData = some (.reg s.statusWord.toNat) ∧ s.statusWord.toNat % 2 = 1)

/-- R73, R180: a command whose busy window holds only writes and STATUS reads ends exactly as it does at once, but for
what the host has read. The window, and the condition that leaves transactions out, are the model's, log 2 and log 18. -/
def Obligations.BusyWindowChangesNoResult : Prop :=
  ∀ (s : State) (i : Instr) (window rest : List HostEvent),
    s.running = some i → s.overlap = window.length → s.host = window ++ rest →
    (∀ e ∈ window, harmless e = true ∧ s.leftOutWith e = 0) →
    ∃ d, Host.Core.run Sys2Proof.core (window.length + 1) s =
      exec i { s with overlap := 0, host := rest, readData := d }

/-- R230, R231: the reset input, at any time, leaves the reset state of the same machine. That the host's coming
transactions, what it has read, and the counter of the free values go on is the model's choice, log 13, and that the
parameters are held in the state, log 7. -/
def Obligations.ResetInputAbortsAnyCommand : Prop :=
  (∀ (s : State) (n : Nat) (rest : List HostEvent),
    s.running = none → s.host = ⟨.reset, n, none⟩ :: rest →
    step s = .next { State.reset with host := rest, readData := s.readData, epoch := s.epoch + 1, params := s.params }) ∧
  (∀ (s : State) (i : Instr) (n m : Nat) (rest : List HostEvent),
    s.running = some i → s.overlap = m + 1 → s.host = ⟨.reset, n, none⟩ :: rest →
    step s = .next { State.reset with host := rest, readData := s.readData, epoch := s.epoch + 1, params := s.params })

/-- R98: LOADSYM leaves its text as the input sequence, and changes nothing else of the machine. -/
def Obligations.LoadSymMakesTheInputSequence : Prop :=
  ∀ (s : State) (text : List Byte), s.running = none → s.host = [] → text.length ≤ 65535 →
    ∃ t, Host.Core.run Sys2Proof.core (text.length + 1) (s.withScript [.loadSym text]) = .next t ∧
      t.symbols = text ∧ t = { s with sym := t.sym, symLen := t.symLen }

/-- R98: COMPRESS issues COUNT, BUILD, GENTAB and ENCODE, each only if the one before left ERR = 0, whatever number of
each command's STATUS reads falls into its busy window. If BUILD fails, GENTAB and ENCODE are not issued, and the host has
read BUILD's STATUS. The condition's form and the window are the model's, log 18 and log 2. -/
def Obligations.CompressIssuesItsCommandsUntilOneFails : Prop :=
  (∀ (s s1 s2 : State) (a b c d : Nat), s.running = none → s.host = [] →
    exec .count s = .next s1 → exec .build s1 = .next s2 → s2.err = true →
    Host.Core.run Sys2Proof.core (a + b + 8) (s.withScript [.compress a b c d]) =
      .next { s2 with readData := some (.reg s2.statusWord.toNat) }) ∧
  (∀ (s s1 s2 s3 s4 : State) (a b c d : Nat), s.running = none → s.host = [] →
    exec .count s = .next s1 → exec .build s1 = .next s2 → s2.err = false →
    exec .gentab s2 = .next s3 → exec .encode s3 = .next s4 →
    Host.Core.run Sys2Proof.core (a + b + c + d + 12) (s.withScript [.compress a b c d]) =
      .next { s4 with readData := some (.reg s4.statusWord.toNat) })

/-- R98: EXPAND n writes EXP_CNT and then runs DECODE, whatever number of its STATUS reads falls into the busy window; the
host has read its STATUS. The window is the model's, log 2. -/
def Obligations.ExpandDecodesWithTheGivenCount : Prop :=
  ∀ (s t : State) (n polls : Nat), s.running = none → s.host = [] →
    exec .decode { s with expCnt := BitVec.ofNat 16 (n % 2 ^ 16) } = .next t →
    Host.Core.run Sys2Proof.core (polls + 4) (s.withScript [.expand n polls]) =
      .next { t with readData := some (.reg t.statusWord.toNat) }

/-! ### Invariants -/

/-- R12, R13: DIGIT0 and DIGIT1 are parameters: no step changes them, and they are two distinct elements. That the state
holds them is the model's choice, log 7. -/
def Obligations.StepKeepsTheParameters : Prop :=
  ∀ s t : State, step s = .next t → t.params = s.params ∧ t.params.digit0 ≠ t.params.digit1

/-- The reset state meets every invariant (R22, R28, R29, R54 to R56). -/
def Obligations.ResetMeetsTheInvariants : Prop := State.reset.Inv

/-- The spaces keep their canonical form, with every index inside its space (R78, R185). -/
def Obligations.StepKeepsTheCanonicalMemory : Prop :=
  ∀ s t : State, s.memoryOk = true → step s = .next t → t.memoryOk = true

/-- R22: ERR = 1 exactly when ERRCODE is not 0, after every step. -/
def Obligations.StepKeepsTheErrorRecord : Prop :=
  ∀ s t : State, s.recordOk = true → step s = .next t →
    (t.err = true ↔ t.errCode ≠ .none) ∧ t.recordOk = true

/-- R54: the FrequencyTable keeps distinct keys and positive counts; a step that runs COUNT establishes it too. -/
def Obligations.StepKeepsTheFrequencyTable : Prop :=
  ∀ s t : State, s.tableOk = true → step s = .next t → t.tableOk = true

/-- R55: NODE, NODE_CNT and ROOT keep forming one tree while TREE_VALID = 1, and are 0 without one. -/
def Obligations.StepKeepsTheTree : Prop :=
  ∀ s t : State, s.tableOk = true → s.treeOk = true → step s = .next t → t.treeOk = true

/-- R56: the CodeTable stays prefix-free, and a single valid code stays empty. -/
def Obligations.StepKeepsTheCodeTable : Prop :=
  ∀ s t : State, s.treeOk = true → s.codesOk = true → step s = .next t → t.codesOk = true

/-- R187, R232: from a state that meets the invariants every step answers a next state, which meets them again: no
command hangs, and the model's one fault is out of reach. -/
def Obligations.EveryStepCompletesAndKeepsTheInvariants : Prop :=
  ∀ s : State, s.Inv → ∃ t, step s = .next t ∧ t.Inv

/-! ### Laws of the pipeline -/

/-- R250, R251: after COUNT the counts sum to the input length and FT_K is the number of distinct symbols; after BUILD
the root's frequency is the input length. -/
def Obligations.FrequencyIsConserved : Prop :=
  ∀ s : State, s.symLen ≠ 0 →
    ∃ t u, exec .count s = .next t ∧ exec .build t = .next u ∧
      (t.table.map (fun e => e.cnt.toNat)).sum = s.symLen.toNat ∧
      t.ftK.toNat = s.symbols.eraseDups.length ∧
      (u.nodeAt u.root.toNat).freq = s.symLen

/-- R257: the shape of the tree BUILD makes: counts, root, leaves first, children before parents, left not heavier than
right, and the Internal frequencies not decreasing. -/
def Obligations.BuiltTreeIsOrdered : Prop :=
  ∀ s : State, s.tableOk = true → s.ftK ≠ 0 →
    ∃ t, exec .build s = .next t ∧
      t.nodeCnt.toNat = 2 * s.ftK.toNat - 1 ∧ t.root.toNat = 2 * s.ftK.toNat - 2 ∧
      (∀ j, j < s.ftK.toNat → t.nodeAt j = .leaf (s.ftAt j).sym (s.ftAt j).cnt) ∧
      (∀ n, s.ftK.toNat ≤ n → n < t.nodeCnt.toNat → ∃ f l r, t.nodeAt n = .internal f l r ∧
        l.toNat < n ∧ r.toNat < n ∧
        (t.nodeAt l.toNat).freq.toNat ≤ (t.nodeAt r.toNat).freq.toNat) ∧
      (∀ m n, s.ftK.toNat ≤ m → m ≤ n → n < t.nodeCnt.toNat →
        (t.nodeAt m).freq.toNat ≤ (t.nodeAt n).freq.toNat)

/-- R254: a symbol that occurs less often than another has a code at least as long. -/
def Obligations.RarerSymbolsHaveLongerCodes : Prop :=
  ∀ s s1 s2 s3 : State,
    exec .count s = .next s1 → exec .build s1 = .next s2 → exec .gentab s2 = .next s3 →
    ∀ x y : Byte, x ∈ s.symbols → s.symbols.count x < s.symbols.count y →
      (s3.codeOf y).len.toNat ≤ (s3.codeOf x).len.toNat

/-- R255: after the pipeline's ENCODE, ENC_LEN is the sum of count times code length over the table, equally the sum of
the Internal frequencies, and at most 255 digits a symbol. -/
def Obligations.EncodedLengthIsTheWeightedSum : Prop :=
  ∀ s s1 s2 s3 s4 : State, s.inputWritten = true → s.symLen ≠ 0 →
    exec .count s = .next s1 → exec .build s1 = .next s2 → exec .gentab s2 = .next s3 →
    exec .encode s3 = .next s4 →
    s4.encLen.toNat = (s1.table.map (fun e => e.cnt.toNat * (s3.codeOf e.sym).len.toNat)).sum ∧
    s4.encLen.toNat = ((s2.nodes.drop s1.ftK.toNat).map (fun n => n.freq.toNat)).sum ∧
    s4.encLen.toNat ≤ 255 * s.symLen.toNat

/-- R253: COUNT, BUILD, GENTAB, ENCODE, and DECODE with EXP_CNT = SYM_LEN, on a non-empty input that the host has
written, all complete, and the decoded sequence is the input, with the stream consumed exactly. -/
def Obligations.PipelineRoundTrip : Prop :=
  ∀ s : State, s.inputWritten = true → s.symLen ≠ 0 →
    ∃ s1 s2 s3 s4 s5, exec .count s = .next s1 ∧ exec .build s1 = .next s2 ∧ exec .gentab s2 = .next s3 ∧
      exec .encode s3 = .next s4 ∧ exec .decode { s4 with expCnt := s.symLen } = .next s5 ∧
      completed s1 ∧ completed s2 ∧ completed s3 ∧ completed s4 ∧ completed s5 ∧
      s5.decoded = s.symbols ∧ s5.decLen = s.symLen ∧ s5.decPos = s5.encLen ∧ s5.trailing = false

/-- R253, R155: for any tree and the table GENTAB made from it, ENCODE and then DECODE return any sequence of the tree's
symbols that the host has written. -/
def Obligations.RoundTripUnderReuse : Prop :=
  ∀ s s1 : State, s.treeValid = true → s.treeOk = true → exec .gentab s = .next s1 →
    ∀ (m : Memory Byte) (n : LenWord), State.inputWritten { s1 with sym := m, symLen := n } = true →
      (∀ x ∈ State.symbols { s1 with sym := m, symLen := n }, (s1.codeOf x).valid = true) →
      ∃ s2 s3, exec .encode { s1 with sym := m, symLen := n } = .next s2 ∧
        exec .decode { s2 with expCnt := n } = .next s3 ∧ completed s2 ∧ completed s3 ∧
        s3.decoded = State.symbols { s1 with sym := m, symLen := n } ∧
        s3.decPos = s3.encLen ∧ s3.trailing = false
end

