-- ==== Sys2Proof/Laws/State.lean ====
section
/-! SUPPORT. What each named update of State leaves in each field: one lemma per field and update. -/

namespace Sys2Proof.Machine

variable (s : State)

/-! ### finish -/

@[simp] theorem State.finish_err : s.finish.err = s.err := rfl
@[simp] theorem State.finish_treeValid : s.finish.treeValid = s.treeValid := rfl
@[simp] theorem State.finish_trailing : s.finish.trailing = s.trailing := rfl
@[simp] theorem State.finish_errCode : s.finish.errCode = s.errCode := rfl
@[simp] theorem State.finish_errPos : s.finish.errPos = s.errPos := rfl
@[simp] theorem State.finish_errVal : s.finish.errVal = s.errVal := rfl
@[simp] theorem State.finish_symLen : s.finish.symLen = s.symLen := rfl
@[simp] theorem State.finish_ftK : s.finish.ftK = s.ftK := rfl
@[simp] theorem State.finish_nodeCnt : s.finish.nodeCnt = s.nodeCnt := rfl
@[simp] theorem State.finish_root : s.finish.root = s.root := rfl
@[simp] theorem State.finish_encLen : s.finish.encLen = s.encLen := rfl
@[simp] theorem State.finish_expCnt : s.finish.expCnt = s.expCnt := rfl
@[simp] theorem State.finish_decLen : s.finish.decLen = s.decLen := rfl
@[simp] theorem State.finish_decPos : s.finish.decPos = s.decPos := rfl
@[simp] theorem State.finish_sym : s.finish.sym = s.sym := rfl
@[simp] theorem State.finish_ft : s.finish.ft = s.ft := rfl
@[simp] theorem State.finish_node : s.finish.node = s.node := rfl
@[simp] theorem State.finish_ct : s.finish.ct = s.ct := rfl
@[simp] theorem State.finish_enc : s.finish.enc = s.enc := rfl
@[simp] theorem State.finish_dec : s.finish.dec = s.dec := rfl
@[simp] theorem State.finish_running : s.finish.running = none := rfl
@[simp] theorem State.finish_overlap : s.finish.overlap = 0 := rfl
@[simp] theorem State.finish_host : s.finish.host = s.host := rfl
@[simp] theorem State.finish_readData : s.finish.readData = s.readData := rfl
@[simp] theorem State.finish_epoch : s.finish.epoch = s.epoch + 1 := rfl
@[simp] theorem State.finish_params : s.finish.params = s.params := rfl

/-! ### succeed -/

@[simp] theorem State.succeed_err : s.succeed.err = false := rfl
@[simp] theorem State.succeed_treeValid : s.succeed.treeValid = s.treeValid := rfl
@[simp] theorem State.succeed_trailing : s.succeed.trailing = s.trailing := rfl
@[simp] theorem State.succeed_errCode : s.succeed.errCode = .none := rfl
@[simp] theorem State.succeed_errPos : s.succeed.errPos = 0 := rfl
@[simp] theorem State.succeed_errVal : s.succeed.errVal = 0 := rfl
@[simp] theorem State.succeed_symLen : s.succeed.symLen = s.symLen := rfl
@[simp] theorem State.succeed_ftK : s.succeed.ftK = s.ftK := rfl
@[simp] theorem State.succeed_nodeCnt : s.succeed.nodeCnt = s.nodeCnt := rfl
@[simp] theorem State.succeed_root : s.succeed.root = s.root := rfl
@[simp] theorem State.succeed_encLen : s.succeed.encLen = s.encLen := rfl
@[simp] theorem State.succeed_expCnt : s.succeed.expCnt = s.expCnt := rfl
@[simp] theorem State.succeed_decLen : s.succeed.decLen = s.decLen := rfl
@[simp] theorem State.succeed_decPos : s.succeed.decPos = s.decPos := rfl
@[simp] theorem State.succeed_sym : s.succeed.sym = s.sym := rfl
@[simp] theorem State.succeed_ft : s.succeed.ft = s.ft := rfl
@[simp] theorem State.succeed_node : s.succeed.node = s.node := rfl
@[simp] theorem State.succeed_ct : s.succeed.ct = s.ct := rfl
@[simp] theorem State.succeed_enc : s.succeed.enc = s.enc := rfl
@[simp] theorem State.succeed_dec : s.succeed.dec = s.dec := rfl
@[simp] theorem State.succeed_running : s.succeed.running = none := rfl
@[simp] theorem State.succeed_overlap : s.succeed.overlap = 0 := rfl
@[simp] theorem State.succeed_host : s.succeed.host = s.host := rfl
@[simp] theorem State.succeed_readData : s.succeed.readData = s.readData := rfl
@[simp] theorem State.succeed_epoch : s.succeed.epoch = s.epoch + 1 := rfl
@[simp] theorem State.succeed_params : s.succeed.params = s.params := rfl

/-! ### raise -/

@[simp] theorem State.raise_err (e : ErrorCode) (p : Nat) (v : Byte) : (s.raise e p v).err = true := rfl
@[simp] theorem State.raise_treeValid (e : ErrorCode) (p : Nat) (v : Byte) : (s.raise e p v).treeValid = s.treeValid := rfl
@[simp] theorem State.raise_trailing (e : ErrorCode) (p : Nat) (v : Byte) : (s.raise e p v).trailing = s.trailing := rfl
@[simp] theorem State.raise_errCode (e : ErrorCode) (p : Nat) (v : Byte) : (s.raise e p v).errCode = e := rfl
@[simp] theorem State.raise_errPos (e : ErrorCode) (p : Nat) (v : Byte) : (s.raise e p v).errPos = BitVec.ofNat elenW p := rfl
@[simp] theorem State.raise_errVal (e : ErrorCode) (p : Nat) (v : Byte) : (s.raise e p v).errVal = v := rfl
@[simp] theorem State.raise_symLen (e : ErrorCode) (p : Nat) (v : Byte) : (s.raise e p v).symLen = s.symLen := rfl
@[simp] theorem State.raise_ftK (e : ErrorCode) (p : Nat) (v : Byte) : (s.raise e p v).ftK = s.ftK := rfl
@[simp] theorem State.raise_nodeCnt (e : ErrorCode) (p : Nat) (v : Byte) : (s.raise e p v).nodeCnt = s.nodeCnt := rfl
@[simp] theorem State.raise_root (e : ErrorCode) (p : Nat) (v : Byte) : (s.raise e p v).root = s.root := rfl
@[simp] theorem State.raise_encLen (e : ErrorCode) (p : Nat) (v : Byte) : (s.raise e p v).encLen = s.encLen := rfl
@[simp] theorem State.raise_expCnt (e : ErrorCode) (p : Nat) (v : Byte) : (s.raise e p v).expCnt = s.expCnt := rfl
@[simp] theorem State.raise_decLen (e : ErrorCode) (p : Nat) (v : Byte) : (s.raise e p v).decLen = s.decLen := rfl
@[simp] theorem State.raise_decPos (e : ErrorCode) (p : Nat) (v : Byte) : (s.raise e p v).decPos = s.decPos := rfl
@[simp] theorem State.raise_sym (e : ErrorCode) (p : Nat) (v : Byte) : (s.raise e p v).sym = s.sym := rfl
@[simp] theorem State.raise_ft (e : ErrorCode) (p : Nat) (v : Byte) : (s.raise e p v).ft = s.ft := rfl
@[simp] theorem State.raise_node (e : ErrorCode) (p : Nat) (v : Byte) : (s.raise e p v).node = s.node := rfl
@[simp] theorem State.raise_ct (e : ErrorCode) (p : Nat) (v : Byte) : (s.raise e p v).ct = s.ct := rfl
@[simp] theorem State.raise_enc (e : ErrorCode) (p : Nat) (v : Byte) : (s.raise e p v).enc = s.enc := rfl
@[simp] theorem State.raise_dec (e : ErrorCode) (p : Nat) (v : Byte) : (s.raise e p v).dec = s.dec := rfl
@[simp] theorem State.raise_running (e : ErrorCode) (p : Nat) (v : Byte) : (s.raise e p v).running = none := rfl
@[simp] theorem State.raise_overlap (e : ErrorCode) (p : Nat) (v : Byte) : (s.raise e p v).overlap = 0 := rfl
@[simp] theorem State.raise_host (e : ErrorCode) (p : Nat) (v : Byte) : (s.raise e p v).host = s.host := rfl
@[simp] theorem State.raise_readData (e : ErrorCode) (p : Nat) (v : Byte) : (s.raise e p v).readData = s.readData := rfl
@[simp] theorem State.raise_epoch (e : ErrorCode) (p : Nat) (v : Byte) : (s.raise e p v).epoch = s.epoch + 1 := rfl
@[simp] theorem State.raise_params (e : ErrorCode) (p : Nat) (v : Byte) : (s.raise e p v).params = s.params := rfl

/-! ### clearObjects -/

@[simp] theorem State.clearObjects_err : s.clearObjects.err = s.err := rfl
@[simp] theorem State.clearObjects_treeValid : s.clearObjects.treeValid = false := rfl
@[simp] theorem State.clearObjects_trailing : s.clearObjects.trailing = false := rfl
@[simp] theorem State.clearObjects_errCode : s.clearObjects.errCode = s.errCode := rfl
@[simp] theorem State.clearObjects_errPos : s.clearObjects.errPos = s.errPos := rfl
@[simp] theorem State.clearObjects_errVal : s.clearObjects.errVal = s.errVal := rfl
@[simp] theorem State.clearObjects_symLen : s.clearObjects.symLen = 0 := rfl
@[simp] theorem State.clearObjects_ftK : s.clearObjects.ftK = 0 := rfl
@[simp] theorem State.clearObjects_nodeCnt : s.clearObjects.nodeCnt = 0 := rfl
@[simp] theorem State.clearObjects_root : s.clearObjects.root = 0 := rfl
@[simp] theorem State.clearObjects_encLen : s.clearObjects.encLen = 0 := rfl
@[simp] theorem State.clearObjects_expCnt : s.clearObjects.expCnt = 0 := rfl
@[simp] theorem State.clearObjects_decLen : s.clearObjects.decLen = 0 := rfl
@[simp] theorem State.clearObjects_decPos : s.clearObjects.decPos = 0 := rfl
@[simp] theorem State.clearObjects_sym : s.clearObjects.sym = s.sym := rfl
@[simp] theorem State.clearObjects_ft : s.clearObjects.ft = s.ft := rfl
@[simp] theorem State.clearObjects_node : s.clearObjects.node = s.node := rfl
@[simp] theorem State.clearObjects_ct : s.clearObjects.ct = invalidTable := rfl
@[simp] theorem State.clearObjects_enc : s.clearObjects.enc = s.enc := rfl
@[simp] theorem State.clearObjects_dec : s.clearObjects.dec = s.dec := rfl
@[simp] theorem State.clearObjects_running : s.clearObjects.running = s.running := rfl
@[simp] theorem State.clearObjects_overlap : s.clearObjects.overlap = s.overlap := rfl
@[simp] theorem State.clearObjects_host : s.clearObjects.host = s.host := rfl
@[simp] theorem State.clearObjects_readData : s.clearObjects.readData = s.readData := rfl
@[simp] theorem State.clearObjects_epoch : s.clearObjects.epoch = s.epoch := rfl
@[simp] theorem State.clearObjects_params : s.clearObjects.params = s.params := rfl

/-! ### putTable -/

@[simp] theorem State.putTable_err (l : List FtEntry) : (s.putTable l).err = s.err := rfl
@[simp] theorem State.putTable_treeValid (l : List FtEntry) : (s.putTable l).treeValid = s.treeValid := rfl
@[simp] theorem State.putTable_trailing (l : List FtEntry) : (s.putTable l).trailing = s.trailing := rfl
@[simp] theorem State.putTable_errCode (l : List FtEntry) : (s.putTable l).errCode = s.errCode := rfl
@[simp] theorem State.putTable_errPos (l : List FtEntry) : (s.putTable l).errPos = s.errPos := rfl
@[simp] theorem State.putTable_errVal (l : List FtEntry) : (s.putTable l).errVal = s.errVal := rfl
@[simp] theorem State.putTable_symLen (l : List FtEntry) : (s.putTable l).symLen = s.symLen := rfl
@[simp] theorem State.putTable_ftK (l : List FtEntry) : (s.putTable l).ftK = BitVec.ofNat nidxW l.length := rfl
@[simp] theorem State.putTable_nodeCnt (l : List FtEntry) : (s.putTable l).nodeCnt = s.nodeCnt := rfl
@[simp] theorem State.putTable_root (l : List FtEntry) : (s.putTable l).root = s.root := rfl
@[simp] theorem State.putTable_encLen (l : List FtEntry) : (s.putTable l).encLen = s.encLen := rfl
@[simp] theorem State.putTable_expCnt (l : List FtEntry) : (s.putTable l).expCnt = s.expCnt := rfl
@[simp] theorem State.putTable_decLen (l : List FtEntry) : (s.putTable l).decLen = s.decLen := rfl
@[simp] theorem State.putTable_decPos (l : List FtEntry) : (s.putTable l).decPos = s.decPos := rfl
@[simp] theorem State.putTable_sym (l : List FtEntry) : (s.putTable l).sym = s.sym := rfl
@[simp] theorem State.putTable_ft (l : List FtEntry) : (s.putTable l).ft = s.ft.writeSeq 0 l := rfl
@[simp] theorem State.putTable_node (l : List FtEntry) : (s.putTable l).node = s.node := rfl
@[simp] theorem State.putTable_ct (l : List FtEntry) : (s.putTable l).ct = s.ct := rfl
@[simp] theorem State.putTable_enc (l : List FtEntry) : (s.putTable l).enc = s.enc := rfl
@[simp] theorem State.putTable_dec (l : List FtEntry) : (s.putTable l).dec = s.dec := rfl
@[simp] theorem State.putTable_running (l : List FtEntry) : (s.putTable l).running = s.running := rfl
@[simp] theorem State.putTable_overlap (l : List FtEntry) : (s.putTable l).overlap = s.overlap := rfl
@[simp] theorem State.putTable_host (l : List FtEntry) : (s.putTable l).host = s.host := rfl
@[simp] theorem State.putTable_readData (l : List FtEntry) : (s.putTable l).readData = s.readData := rfl
@[simp] theorem State.putTable_epoch (l : List FtEntry) : (s.putTable l).epoch = s.epoch := rfl
@[simp] theorem State.putTable_params (l : List FtEntry) : (s.putTable l).params = s.params := rfl

/-! ### putTree -/

@[simp] theorem State.putTree_err (l : List Node) (r : Nat) : (s.putTree l r).err = s.err := rfl
@[simp] theorem State.putTree_treeValid (l : List Node) (r : Nat) : (s.putTree l r).treeValid = true := rfl
@[simp] theorem State.putTree_trailing (l : List Node) (r : Nat) : (s.putTree l r).trailing = s.trailing := rfl
@[simp] theorem State.putTree_errCode (l : List Node) (r : Nat) : (s.putTree l r).errCode = s.errCode := rfl
@[simp] theorem State.putTree_errPos (l : List Node) (r : Nat) : (s.putTree l r).errPos = s.errPos := rfl
@[simp] theorem State.putTree_errVal (l : List Node) (r : Nat) : (s.putTree l r).errVal = s.errVal := rfl
@[simp] theorem State.putTree_symLen (l : List Node) (r : Nat) : (s.putTree l r).symLen = s.symLen := rfl
@[simp] theorem State.putTree_ftK (l : List Node) (r : Nat) : (s.putTree l r).ftK = s.ftK := rfl
@[simp] theorem State.putTree_nodeCnt (l : List Node) (r : Nat) : (s.putTree l r).nodeCnt = BitVec.ofNat nidxW l.length := rfl
@[simp] theorem State.putTree_root (l : List Node) (r : Nat) : (s.putTree l r).root = BitVec.ofNat nidxW r := rfl
@[simp] theorem State.putTree_encLen (l : List Node) (r : Nat) : (s.putTree l r).encLen = s.encLen := rfl
@[simp] theorem State.putTree_expCnt (l : List Node) (r : Nat) : (s.putTree l r).expCnt = s.expCnt := rfl
@[simp] theorem State.putTree_decLen (l : List Node) (r : Nat) : (s.putTree l r).decLen = s.decLen := rfl
@[simp] theorem State.putTree_decPos (l : List Node) (r : Nat) : (s.putTree l r).decPos = s.decPos := rfl
@[simp] theorem State.putTree_sym (l : List Node) (r : Nat) : (s.putTree l r).sym = s.sym := rfl
@[simp] theorem State.putTree_ft (l : List Node) (r : Nat) : (s.putTree l r).ft = s.ft := rfl
@[simp] theorem State.putTree_node (l : List Node) (r : Nat) : (s.putTree l r).node = s.node.writeSeq 0 l := rfl
@[simp] theorem State.putTree_ct (l : List Node) (r : Nat) : (s.putTree l r).ct = s.ct := rfl
@[simp] theorem State.putTree_enc (l : List Node) (r : Nat) : (s.putTree l r).enc = s.enc := rfl
@[simp] theorem State.putTree_dec (l : List Node) (r : Nat) : (s.putTree l r).dec = s.dec := rfl
@[simp] theorem State.putTree_running (l : List Node) (r : Nat) : (s.putTree l r).running = s.running := rfl
@[simp] theorem State.putTree_overlap (l : List Node) (r : Nat) : (s.putTree l r).overlap = s.overlap := rfl
@[simp] theorem State.putTree_host (l : List Node) (r : Nat) : (s.putTree l r).host = s.host := rfl
@[simp] theorem State.putTree_readData (l : List Node) (r : Nat) : (s.putTree l r).readData = s.readData := rfl
@[simp] theorem State.putTree_epoch (l : List Node) (r : Nat) : (s.putTree l r).epoch = s.epoch := rfl
@[simp] theorem State.putTree_params (l : List Node) (r : Nat) : (s.putTree l r).params = s.params := rfl

/-! ### dropTree -/

@[simp] theorem State.dropTree_err : s.dropTree.err = s.err := rfl
@[simp] theorem State.dropTree_treeValid : s.dropTree.treeValid = false := rfl
@[simp] theorem State.dropTree_trailing : s.dropTree.trailing = s.trailing := rfl
@[simp] theorem State.dropTree_errCode : s.dropTree.errCode = s.errCode := rfl
@[simp] theorem State.dropTree_errPos : s.dropTree.errPos = s.errPos := rfl
@[simp] theorem State.dropTree_errVal : s.dropTree.errVal = s.errVal := rfl
@[simp] theorem State.dropTree_symLen : s.dropTree.symLen = s.symLen := rfl
@[simp] theorem State.dropTree_ftK : s.dropTree.ftK = s.ftK := rfl
@[simp] theorem State.dropTree_nodeCnt : s.dropTree.nodeCnt = 0 := rfl
@[simp] theorem State.dropTree_root : s.dropTree.root = 0 := rfl
@[simp] theorem State.dropTree_encLen : s.dropTree.encLen = s.encLen := rfl
@[simp] theorem State.dropTree_expCnt : s.dropTree.expCnt = s.expCnt := rfl
@[simp] theorem State.dropTree_decLen : s.dropTree.decLen = s.decLen := rfl
@[simp] theorem State.dropTree_decPos : s.dropTree.decPos = s.decPos := rfl
@[simp] theorem State.dropTree_sym : s.dropTree.sym = s.sym := rfl
@[simp] theorem State.dropTree_ft : s.dropTree.ft = s.ft := rfl
@[simp] theorem State.dropTree_node : s.dropTree.node = s.node := rfl
@[simp] theorem State.dropTree_ct : s.dropTree.ct = s.ct := rfl
@[simp] theorem State.dropTree_enc : s.dropTree.enc = s.enc := rfl
@[simp] theorem State.dropTree_dec : s.dropTree.dec = s.dec := rfl
@[simp] theorem State.dropTree_running : s.dropTree.running = s.running := rfl
@[simp] theorem State.dropTree_overlap : s.dropTree.overlap = s.overlap := rfl
@[simp] theorem State.dropTree_host : s.dropTree.host = s.host := rfl
@[simp] theorem State.dropTree_readData : s.dropTree.readData = s.readData := rfl
@[simp] theorem State.dropTree_epoch : s.dropTree.epoch = s.epoch := rfl
@[simp] theorem State.dropTree_params : s.dropTree.params = s.params := rfl

/-! ### putCodes -/

@[simp] theorem State.putCodes_err (m : Memory CtEntry) : (s.putCodes m).err = s.err := rfl
@[simp] theorem State.putCodes_treeValid (m : Memory CtEntry) : (s.putCodes m).treeValid = s.treeValid := rfl
@[simp] theorem State.putCodes_trailing (m : Memory CtEntry) : (s.putCodes m).trailing = s.trailing := rfl
@[simp] theorem State.putCodes_errCode (m : Memory CtEntry) : (s.putCodes m).errCode = s.errCode := rfl
@[simp] theorem State.putCodes_errPos (m : Memory CtEntry) : (s.putCodes m).errPos = s.errPos := rfl
@[simp] theorem State.putCodes_errVal (m : Memory CtEntry) : (s.putCodes m).errVal = s.errVal := rfl
@[simp] theorem State.putCodes_symLen (m : Memory CtEntry) : (s.putCodes m).symLen = s.symLen := rfl
@[simp] theorem State.putCodes_ftK (m : Memory CtEntry) : (s.putCodes m).ftK = s.ftK := rfl
@[simp] theorem State.putCodes_nodeCnt (m : Memory CtEntry) : (s.putCodes m).nodeCnt = s.nodeCnt := rfl
@[simp] theorem State.putCodes_root (m : Memory CtEntry) : (s.putCodes m).root = s.root := rfl
@[simp] theorem State.putCodes_encLen (m : Memory CtEntry) : (s.putCodes m).encLen = s.encLen := rfl
@[simp] theorem State.putCodes_expCnt (m : Memory CtEntry) : (s.putCodes m).expCnt = s.expCnt := rfl
@[simp] theorem State.putCodes_decLen (m : Memory CtEntry) : (s.putCodes m).decLen = s.decLen := rfl
@[simp] theorem State.putCodes_decPos (m : Memory CtEntry) : (s.putCodes m).decPos = s.decPos := rfl
@[simp] theorem State.putCodes_sym (m : Memory CtEntry) : (s.putCodes m).sym = s.sym := rfl
@[simp] theorem State.putCodes_ft (m : Memory CtEntry) : (s.putCodes m).ft = s.ft := rfl
@[simp] theorem State.putCodes_node (m : Memory CtEntry) : (s.putCodes m).node = s.node := rfl
@[simp] theorem State.putCodes_ct (m : Memory CtEntry) : (s.putCodes m).ct = m := rfl
@[simp] theorem State.putCodes_enc (m : Memory CtEntry) : (s.putCodes m).enc = s.enc := rfl
@[simp] theorem State.putCodes_dec (m : Memory CtEntry) : (s.putCodes m).dec = s.dec := rfl
@[simp] theorem State.putCodes_running (m : Memory CtEntry) : (s.putCodes m).running = s.running := rfl
@[simp] theorem State.putCodes_overlap (m : Memory CtEntry) : (s.putCodes m).overlap = s.overlap := rfl
@[simp] theorem State.putCodes_host (m : Memory CtEntry) : (s.putCodes m).host = s.host := rfl
@[simp] theorem State.putCodes_readData (m : Memory CtEntry) : (s.putCodes m).readData = s.readData := rfl
@[simp] theorem State.putCodes_epoch (m : Memory CtEntry) : (s.putCodes m).epoch = s.epoch := rfl
@[simp] theorem State.putCodes_params (m : Memory CtEntry) : (s.putCodes m).params = s.params := rfl

/-! ### putStream -/

@[simp] theorem State.putStream_err (l : List Byte) : (s.putStream l).err = s.err := rfl
@[simp] theorem State.putStream_treeValid (l : List Byte) : (s.putStream l).treeValid = s.treeValid := rfl
@[simp] theorem State.putStream_trailing (l : List Byte) : (s.putStream l).trailing = s.trailing := rfl
@[simp] theorem State.putStream_errCode (l : List Byte) : (s.putStream l).errCode = s.errCode := rfl
@[simp] theorem State.putStream_errPos (l : List Byte) : (s.putStream l).errPos = s.errPos := rfl
@[simp] theorem State.putStream_errVal (l : List Byte) : (s.putStream l).errVal = s.errVal := rfl
@[simp] theorem State.putStream_symLen (l : List Byte) : (s.putStream l).symLen = s.symLen := rfl
@[simp] theorem State.putStream_ftK (l : List Byte) : (s.putStream l).ftK = s.ftK := rfl
@[simp] theorem State.putStream_nodeCnt (l : List Byte) : (s.putStream l).nodeCnt = s.nodeCnt := rfl
@[simp] theorem State.putStream_root (l : List Byte) : (s.putStream l).root = s.root := rfl
@[simp] theorem State.putStream_encLen (l : List Byte) : (s.putStream l).encLen = BitVec.ofNat elenW l.length := rfl
@[simp] theorem State.putStream_expCnt (l : List Byte) : (s.putStream l).expCnt = s.expCnt := rfl
@[simp] theorem State.putStream_decLen (l : List Byte) : (s.putStream l).decLen = s.decLen := rfl
@[simp] theorem State.putStream_decPos (l : List Byte) : (s.putStream l).decPos = s.decPos := rfl
@[simp] theorem State.putStream_sym (l : List Byte) : (s.putStream l).sym = s.sym := rfl
@[simp] theorem State.putStream_ft (l : List Byte) : (s.putStream l).ft = s.ft := rfl
@[simp] theorem State.putStream_node (l : List Byte) : (s.putStream l).node = s.node := rfl
@[simp] theorem State.putStream_ct (l : List Byte) : (s.putStream l).ct = s.ct := rfl
@[simp] theorem State.putStream_enc (l : List Byte) : (s.putStream l).enc = s.enc.writeSeq 0 l := rfl
@[simp] theorem State.putStream_dec (l : List Byte) : (s.putStream l).dec = s.dec := rfl
@[simp] theorem State.putStream_running (l : List Byte) : (s.putStream l).running = s.running := rfl
@[simp] theorem State.putStream_overlap (l : List Byte) : (s.putStream l).overlap = s.overlap := rfl
@[simp] theorem State.putStream_host (l : List Byte) : (s.putStream l).host = s.host := rfl
@[simp] theorem State.putStream_readData (l : List Byte) : (s.putStream l).readData = s.readData := rfl
@[simp] theorem State.putStream_epoch (l : List Byte) : (s.putStream l).epoch = s.epoch := rfl
@[simp] theorem State.putStream_params (l : List Byte) : (s.putStream l).params = s.params := rfl

/-! ### dropStream -/

@[simp] theorem State.dropStream_err : s.dropStream.err = s.err := rfl
@[simp] theorem State.dropStream_treeValid : s.dropStream.treeValid = s.treeValid := rfl
@[simp] theorem State.dropStream_trailing : s.dropStream.trailing = s.trailing := rfl
@[simp] theorem State.dropStream_errCode : s.dropStream.errCode = s.errCode := rfl
@[simp] theorem State.dropStream_errPos : s.dropStream.errPos = s.errPos := rfl
@[simp] theorem State.dropStream_errVal : s.dropStream.errVal = s.errVal := rfl
@[simp] theorem State.dropStream_symLen : s.dropStream.symLen = s.symLen := rfl
@[simp] theorem State.dropStream_ftK : s.dropStream.ftK = s.ftK := rfl
@[simp] theorem State.dropStream_nodeCnt : s.dropStream.nodeCnt = s.nodeCnt := rfl
@[simp] theorem State.dropStream_root : s.dropStream.root = s.root := rfl
@[simp] theorem State.dropStream_encLen : s.dropStream.encLen = 0 := rfl
@[simp] theorem State.dropStream_expCnt : s.dropStream.expCnt = s.expCnt := rfl
@[simp] theorem State.dropStream_decLen : s.dropStream.decLen = s.decLen := rfl
@[simp] theorem State.dropStream_decPos : s.dropStream.decPos = s.decPos := rfl
@[simp] theorem State.dropStream_sym : s.dropStream.sym = s.sym := rfl
@[simp] theorem State.dropStream_ft : s.dropStream.ft = s.ft := rfl
@[simp] theorem State.dropStream_node : s.dropStream.node = s.node := rfl
@[simp] theorem State.dropStream_ct : s.dropStream.ct = s.ct := rfl
@[simp] theorem State.dropStream_enc : s.dropStream.enc = s.enc := rfl
@[simp] theorem State.dropStream_dec : s.dropStream.dec = s.dec := rfl
@[simp] theorem State.dropStream_running : s.dropStream.running = s.running := rfl
@[simp] theorem State.dropStream_overlap : s.dropStream.overlap = s.overlap := rfl
@[simp] theorem State.dropStream_host : s.dropStream.host = s.host := rfl
@[simp] theorem State.dropStream_readData : s.dropStream.readData = s.readData := rfl
@[simp] theorem State.dropStream_epoch : s.dropStream.epoch = s.epoch := rfl
@[simp] theorem State.dropStream_params : s.dropStream.params = s.params := rfl

/-! ### putDecoded -/

@[simp] theorem State.putDecoded_err (l : List Byte) (p : Nat) : (s.putDecoded l p).err = s.err := rfl
@[simp] theorem State.putDecoded_treeValid (l : List Byte) (p : Nat) : (s.putDecoded l p).treeValid = s.treeValid := rfl
@[simp] theorem State.putDecoded_trailing (l : List Byte) (p : Nat) : (s.putDecoded l p).trailing = s.leavesDigits p := rfl
@[simp] theorem State.putDecoded_errCode (l : List Byte) (p : Nat) : (s.putDecoded l p).errCode = s.errCode := rfl
@[simp] theorem State.putDecoded_errPos (l : List Byte) (p : Nat) : (s.putDecoded l p).errPos = s.errPos := rfl
@[simp] theorem State.putDecoded_errVal (l : List Byte) (p : Nat) : (s.putDecoded l p).errVal = s.errVal := rfl
@[simp] theorem State.putDecoded_symLen (l : List Byte) (p : Nat) : (s.putDecoded l p).symLen = s.symLen := rfl
@[simp] theorem State.putDecoded_ftK (l : List Byte) (p : Nat) : (s.putDecoded l p).ftK = s.ftK := rfl
@[simp] theorem State.putDecoded_nodeCnt (l : List Byte) (p : Nat) : (s.putDecoded l p).nodeCnt = s.nodeCnt := rfl
@[simp] theorem State.putDecoded_root (l : List Byte) (p : Nat) : (s.putDecoded l p).root = s.root := rfl
@[simp] theorem State.putDecoded_encLen (l : List Byte) (p : Nat) : (s.putDecoded l p).encLen = s.encLen := rfl
@[simp] theorem State.putDecoded_expCnt (l : List Byte) (p : Nat) : (s.putDecoded l p).expCnt = s.expCnt := rfl
@[simp] theorem State.putDecoded_decLen (l : List Byte) (p : Nat) : (s.putDecoded l p).decLen = BitVec.ofNat lenW l.length := rfl
@[simp] theorem State.putDecoded_decPos (l : List Byte) (p : Nat) : (s.putDecoded l p).decPos = BitVec.ofNat elenW p := rfl
@[simp] theorem State.putDecoded_sym (l : List Byte) (p : Nat) : (s.putDecoded l p).sym = s.sym := rfl
@[simp] theorem State.putDecoded_ft (l : List Byte) (p : Nat) : (s.putDecoded l p).ft = s.ft := rfl
@[simp] theorem State.putDecoded_node (l : List Byte) (p : Nat) : (s.putDecoded l p).node = s.node := rfl
@[simp] theorem State.putDecoded_ct (l : List Byte) (p : Nat) : (s.putDecoded l p).ct = s.ct := rfl
@[simp] theorem State.putDecoded_enc (l : List Byte) (p : Nat) : (s.putDecoded l p).enc = s.enc := rfl
@[simp] theorem State.putDecoded_dec (l : List Byte) (p : Nat) : (s.putDecoded l p).dec = s.dec.writeSeq 0 l := rfl
@[simp] theorem State.putDecoded_running (l : List Byte) (p : Nat) : (s.putDecoded l p).running = s.running := rfl
@[simp] theorem State.putDecoded_overlap (l : List Byte) (p : Nat) : (s.putDecoded l p).overlap = s.overlap := rfl
@[simp] theorem State.putDecoded_host (l : List Byte) (p : Nat) : (s.putDecoded l p).host = s.host := rfl
@[simp] theorem State.putDecoded_readData (l : List Byte) (p : Nat) : (s.putDecoded l p).readData = s.readData := rfl
@[simp] theorem State.putDecoded_epoch (l : List Byte) (p : Nat) : (s.putDecoded l p).epoch = s.epoch := rfl
@[simp] theorem State.putDecoded_params (l : List Byte) (p : Nat) : (s.putDecoded l p).params = s.params := rfl

/-! ### dropDecoded -/

@[simp] theorem State.dropDecoded_err : s.dropDecoded.err = s.err := rfl
@[simp] theorem State.dropDecoded_treeValid : s.dropDecoded.treeValid = s.treeValid := rfl
@[simp] theorem State.dropDecoded_trailing : s.dropDecoded.trailing = false := rfl
@[simp] theorem State.dropDecoded_errCode : s.dropDecoded.errCode = s.errCode := rfl
@[simp] theorem State.dropDecoded_errPos : s.dropDecoded.errPos = s.errPos := rfl
@[simp] theorem State.dropDecoded_errVal : s.dropDecoded.errVal = s.errVal := rfl
@[simp] theorem State.dropDecoded_symLen : s.dropDecoded.symLen = s.symLen := rfl
@[simp] theorem State.dropDecoded_ftK : s.dropDecoded.ftK = s.ftK := rfl
@[simp] theorem State.dropDecoded_nodeCnt : s.dropDecoded.nodeCnt = s.nodeCnt := rfl
@[simp] theorem State.dropDecoded_root : s.dropDecoded.root = s.root := rfl
@[simp] theorem State.dropDecoded_encLen : s.dropDecoded.encLen = s.encLen := rfl
@[simp] theorem State.dropDecoded_expCnt : s.dropDecoded.expCnt = s.expCnt := rfl
@[simp] theorem State.dropDecoded_decLen : s.dropDecoded.decLen = 0 := rfl
@[simp] theorem State.dropDecoded_decPos : s.dropDecoded.decPos = 0 := rfl
@[simp] theorem State.dropDecoded_sym : s.dropDecoded.sym = s.sym := rfl
@[simp] theorem State.dropDecoded_ft : s.dropDecoded.ft = s.ft := rfl
@[simp] theorem State.dropDecoded_node : s.dropDecoded.node = s.node := rfl
@[simp] theorem State.dropDecoded_ct : s.dropDecoded.ct = s.ct := rfl
@[simp] theorem State.dropDecoded_enc : s.dropDecoded.enc = s.enc := rfl
@[simp] theorem State.dropDecoded_dec : s.dropDecoded.dec = s.dec := rfl
@[simp] theorem State.dropDecoded_running : s.dropDecoded.running = s.running := rfl
@[simp] theorem State.dropDecoded_overlap : s.dropDecoded.overlap = s.overlap := rfl
@[simp] theorem State.dropDecoded_host : s.dropDecoded.host = s.host := rfl
@[simp] theorem State.dropDecoded_readData : s.dropDecoded.readData = s.readData := rfl
@[simp] theorem State.dropDecoded_epoch : s.dropDecoded.epoch = s.epoch := rfl
@[simp] theorem State.dropDecoded_params : s.dropDecoded.params = s.params := rfl

/-! ### answer -/

@[simp] theorem State.answer_err (v : HostValue) : (s.answer v).err = s.err := rfl
@[simp] theorem State.answer_treeValid (v : HostValue) : (s.answer v).treeValid = s.treeValid := rfl
@[simp] theorem State.answer_trailing (v : HostValue) : (s.answer v).trailing = s.trailing := rfl
@[simp] theorem State.answer_errCode (v : HostValue) : (s.answer v).errCode = s.errCode := rfl
@[simp] theorem State.answer_errPos (v : HostValue) : (s.answer v).errPos = s.errPos := rfl
@[simp] theorem State.answer_errVal (v : HostValue) : (s.answer v).errVal = s.errVal := rfl
@[simp] theorem State.answer_symLen (v : HostValue) : (s.answer v).symLen = s.symLen := rfl
@[simp] theorem State.answer_ftK (v : HostValue) : (s.answer v).ftK = s.ftK := rfl
@[simp] theorem State.answer_nodeCnt (v : HostValue) : (s.answer v).nodeCnt = s.nodeCnt := rfl
@[simp] theorem State.answer_root (v : HostValue) : (s.answer v).root = s.root := rfl
@[simp] theorem State.answer_encLen (v : HostValue) : (s.answer v).encLen = s.encLen := rfl
@[simp] theorem State.answer_expCnt (v : HostValue) : (s.answer v).expCnt = s.expCnt := rfl
@[simp] theorem State.answer_decLen (v : HostValue) : (s.answer v).decLen = s.decLen := rfl
@[simp] theorem State.answer_decPos (v : HostValue) : (s.answer v).decPos = s.decPos := rfl
@[simp] theorem State.answer_sym (v : HostValue) : (s.answer v).sym = s.sym := rfl
@[simp] theorem State.answer_ft (v : HostValue) : (s.answer v).ft = s.ft := rfl
@[simp] theorem State.answer_node (v : HostValue) : (s.answer v).node = s.node := rfl
@[simp] theorem State.answer_ct (v : HostValue) : (s.answer v).ct = s.ct := rfl
@[simp] theorem State.answer_enc (v : HostValue) : (s.answer v).enc = s.enc := rfl
@[simp] theorem State.answer_dec (v : HostValue) : (s.answer v).dec = s.dec := rfl
@[simp] theorem State.answer_running (v : HostValue) : (s.answer v).running = s.running := rfl
@[simp] theorem State.answer_overlap (v : HostValue) : (s.answer v).overlap = s.overlap := rfl
@[simp] theorem State.answer_host (v : HostValue) : (s.answer v).host = s.host := rfl
@[simp] theorem State.answer_readData (v : HostValue) : (s.answer v).readData = some v := rfl
@[simp] theorem State.answer_epoch (v : HostValue) : (s.answer v).epoch = s.epoch := rfl
@[simp] theorem State.answer_params (v : HostValue) : (s.answer v).params = s.params := rfl

/-! ### answerAndAdvance -/

@[simp] theorem State.answerAndAdvance_err (v : HostValue) : (s.answerAndAdvance v).err = s.err := rfl
@[simp] theorem State.answerAndAdvance_treeValid (v : HostValue) : (s.answerAndAdvance v).treeValid = s.treeValid := rfl
@[simp] theorem State.answerAndAdvance_trailing (v : HostValue) : (s.answerAndAdvance v).trailing = s.trailing := rfl
@[simp] theorem State.answerAndAdvance_errCode (v : HostValue) : (s.answerAndAdvance v).errCode = s.errCode := rfl
@[simp] theorem State.answerAndAdvance_errPos (v : HostValue) : (s.answerAndAdvance v).errPos = s.errPos := rfl
@[simp] theorem State.answerAndAdvance_errVal (v : HostValue) : (s.answerAndAdvance v).errVal = s.errVal := rfl
@[simp] theorem State.answerAndAdvance_symLen (v : HostValue) : (s.answerAndAdvance v).symLen = s.symLen := rfl
@[simp] theorem State.answerAndAdvance_ftK (v : HostValue) : (s.answerAndAdvance v).ftK = s.ftK := rfl
@[simp] theorem State.answerAndAdvance_nodeCnt (v : HostValue) : (s.answerAndAdvance v).nodeCnt = s.nodeCnt := rfl
@[simp] theorem State.answerAndAdvance_root (v : HostValue) : (s.answerAndAdvance v).root = s.root := rfl
@[simp] theorem State.answerAndAdvance_encLen (v : HostValue) : (s.answerAndAdvance v).encLen = s.encLen := rfl
@[simp] theorem State.answerAndAdvance_expCnt (v : HostValue) : (s.answerAndAdvance v).expCnt = s.expCnt := rfl
@[simp] theorem State.answerAndAdvance_decLen (v : HostValue) : (s.answerAndAdvance v).decLen = s.decLen := rfl
@[simp] theorem State.answerAndAdvance_decPos (v : HostValue) : (s.answerAndAdvance v).decPos = s.decPos := rfl
@[simp] theorem State.answerAndAdvance_sym (v : HostValue) : (s.answerAndAdvance v).sym = s.sym := rfl
@[simp] theorem State.answerAndAdvance_ft (v : HostValue) : (s.answerAndAdvance v).ft = s.ft := rfl
@[simp] theorem State.answerAndAdvance_node (v : HostValue) : (s.answerAndAdvance v).node = s.node := rfl
@[simp] theorem State.answerAndAdvance_ct (v : HostValue) : (s.answerAndAdvance v).ct = s.ct := rfl
@[simp] theorem State.answerAndAdvance_enc (v : HostValue) : (s.answerAndAdvance v).enc = s.enc := rfl
@[simp] theorem State.answerAndAdvance_dec (v : HostValue) : (s.answerAndAdvance v).dec = s.dec := rfl
@[simp] theorem State.answerAndAdvance_running (v : HostValue) : (s.answerAndAdvance v).running = s.running := rfl
@[simp] theorem State.answerAndAdvance_overlap (v : HostValue) : (s.answerAndAdvance v).overlap = s.overlap := rfl
@[simp] theorem State.answerAndAdvance_host (v : HostValue) : (s.answerAndAdvance v).host = s.host := rfl
@[simp] theorem State.answerAndAdvance_readData (v : HostValue) : (s.answerAndAdvance v).readData = some v := rfl
@[simp] theorem State.answerAndAdvance_epoch (v : HostValue) : (s.answerAndAdvance v).epoch = s.epoch + 1 := rfl
@[simp] theorem State.answerAndAdvance_params (v : HostValue) : (s.answerAndAdvance v).params = s.params := rfl

/-! ### resetInput -/

@[simp] theorem State.resetInput_err : s.resetInput.err = State.reset.err := rfl
@[simp] theorem State.resetInput_treeValid : s.resetInput.treeValid = State.reset.treeValid := rfl
@[simp] theorem State.resetInput_trailing : s.resetInput.trailing = State.reset.trailing := rfl
@[simp] theorem State.resetInput_errCode : s.resetInput.errCode = State.reset.errCode := rfl
@[simp] theorem State.resetInput_errPos : s.resetInput.errPos = State.reset.errPos := rfl
@[simp] theorem State.resetInput_errVal : s.resetInput.errVal = State.reset.errVal := rfl
@[simp] theorem State.resetInput_symLen : s.resetInput.symLen = State.reset.symLen := rfl
@[simp] theorem State.resetInput_ftK : s.resetInput.ftK = State.reset.ftK := rfl
@[simp] theorem State.resetInput_nodeCnt : s.resetInput.nodeCnt = State.reset.nodeCnt := rfl
@[simp] theorem State.resetInput_root : s.resetInput.root = State.reset.root := rfl
@[simp] theorem State.resetInput_encLen : s.resetInput.encLen = State.reset.encLen := rfl
@[simp] theorem State.resetInput_expCnt : s.resetInput.expCnt = State.reset.expCnt := rfl
@[simp] theorem State.resetInput_decLen : s.resetInput.decLen = State.reset.decLen := rfl
@[simp] theorem State.resetInput_decPos : s.resetInput.decPos = State.reset.decPos := rfl
@[simp] theorem State.resetInput_sym : s.resetInput.sym = State.reset.sym := rfl
@[simp] theorem State.resetInput_ft : s.resetInput.ft = State.reset.ft := rfl
@[simp] theorem State.resetInput_node : s.resetInput.node = State.reset.node := rfl
@[simp] theorem State.resetInput_ct : s.resetInput.ct = State.reset.ct := rfl
@[simp] theorem State.resetInput_enc : s.resetInput.enc = State.reset.enc := rfl
@[simp] theorem State.resetInput_dec : s.resetInput.dec = State.reset.dec := rfl
@[simp] theorem State.resetInput_running : s.resetInput.running = State.reset.running := rfl
@[simp] theorem State.resetInput_overlap : s.resetInput.overlap = State.reset.overlap := rfl
@[simp] theorem State.resetInput_host : s.resetInput.host = s.host := rfl
@[simp] theorem State.resetInput_readData : s.resetInput.readData = s.readData := rfl
@[simp] theorem State.resetInput_epoch : s.resetInput.epoch = s.epoch + 1 := rfl
@[simp] theorem State.resetInput_params : s.resetInput.params = s.params := rfl

/-! ### leaveOut -/

@[simp] theorem State.leaveOut_err (e : HostEvent) : (s.leaveOut e).err = s.err := rfl
@[simp] theorem State.leaveOut_treeValid (e : HostEvent) : (s.leaveOut e).treeValid = s.treeValid := rfl
@[simp] theorem State.leaveOut_trailing (e : HostEvent) : (s.leaveOut e).trailing = s.trailing := rfl
@[simp] theorem State.leaveOut_errCode (e : HostEvent) : (s.leaveOut e).errCode = s.errCode := rfl
@[simp] theorem State.leaveOut_errPos (e : HostEvent) : (s.leaveOut e).errPos = s.errPos := rfl
@[simp] theorem State.leaveOut_errVal (e : HostEvent) : (s.leaveOut e).errVal = s.errVal := rfl
@[simp] theorem State.leaveOut_symLen (e : HostEvent) : (s.leaveOut e).symLen = s.symLen := rfl
@[simp] theorem State.leaveOut_ftK (e : HostEvent) : (s.leaveOut e).ftK = s.ftK := rfl
@[simp] theorem State.leaveOut_nodeCnt (e : HostEvent) : (s.leaveOut e).nodeCnt = s.nodeCnt := rfl
@[simp] theorem State.leaveOut_root (e : HostEvent) : (s.leaveOut e).root = s.root := rfl
@[simp] theorem State.leaveOut_encLen (e : HostEvent) : (s.leaveOut e).encLen = s.encLen := rfl
@[simp] theorem State.leaveOut_expCnt (e : HostEvent) : (s.leaveOut e).expCnt = s.expCnt := rfl
@[simp] theorem State.leaveOut_decLen (e : HostEvent) : (s.leaveOut e).decLen = s.decLen := rfl
@[simp] theorem State.leaveOut_decPos (e : HostEvent) : (s.leaveOut e).decPos = s.decPos := rfl
@[simp] theorem State.leaveOut_sym (e : HostEvent) : (s.leaveOut e).sym = s.sym := rfl
@[simp] theorem State.leaveOut_ft (e : HostEvent) : (s.leaveOut e).ft = s.ft := rfl
@[simp] theorem State.leaveOut_node (e : HostEvent) : (s.leaveOut e).node = s.node := rfl
@[simp] theorem State.leaveOut_ct (e : HostEvent) : (s.leaveOut e).ct = s.ct := rfl
@[simp] theorem State.leaveOut_enc (e : HostEvent) : (s.leaveOut e).enc = s.enc := rfl
@[simp] theorem State.leaveOut_dec (e : HostEvent) : (s.leaveOut e).dec = s.dec := rfl
@[simp] theorem State.leaveOut_running (e : HostEvent) : (s.leaveOut e).running = s.running := rfl
@[simp] theorem State.leaveOut_overlap (e : HostEvent) : (s.leaveOut e).overlap = s.overlap := rfl
@[simp] theorem State.leaveOut_host (e : HostEvent) : (s.leaveOut e).host = s.host.drop (s.leftOutWith e) := rfl
@[simp] theorem State.leaveOut_readData (e : HostEvent) : (s.leaveOut e).readData = s.readData := rfl
@[simp] theorem State.leaveOut_epoch (e : HostEvent) : (s.leaveOut e).epoch = s.epoch := rfl
@[simp] theorem State.leaveOut_params (e : HostEvent) : (s.leaveOut e).params = s.params := rfl

/-- A transaction without a condition is always made. -/
@[simp] theorem State.leftOutWith_of_none {e : HostEvent} (h : e.ifNoError = none) : s.leftOutWith e = 0 := by
  simp [State.leftOutWith, State.issues, h]

/-- A transaction whose condition holds takes no other with it. -/
theorem State.leftOutWith_of_noError {s : State} (h : s.err = false) (e : HostEvent) : s.leftOutWith e = 0 := by
  simp [State.leftOutWith, State.issues, h]

end Sys2Proof.Machine
end

