-- ==== Sys2Proof/Laws/Memory.lean ====
section
/-! SUPPORT. The laws of memory spaces: reads after writes, and the canonical form, which every operation keeps. -/

namespace Sys2Proof.Machine

variable {α : Type}

/-! ### Reads after writes -/

@[simp] theorem Memory.read?_nil (i : Nat) : Memory.read? ([] : Memory α) i = none := rfl

theorem Memory.read?_cons (k : Nat) (v : α) (m : Memory α) (i : Nat) :
    Memory.read? ((k, v) :: m) i = if k = i then some v else Memory.read? m i := rfl

@[simp] theorem Memory.read?_write_same (m : Memory α) (i : Nat) (v : α) : (m.write i v).read? i = some v := by
  induction m with
  | nil => simp [Memory.write, Memory.read?_cons]
  | cons c m ih =>
    obtain ⟨k, w⟩ := c
    simp only [Memory.write]
    split
    · rw [Memory.read?_cons, if_neg (by omega), ih]
    · split <;> simp [Memory.read?_cons]

theorem Memory.read?_write_of_ne (m : Memory α) {i j : Nat} (v : α) (h : j ≠ i) :
    (m.write i v).read? j = m.read? j := by
  induction m with
  | nil => simp [Memory.write, Memory.read?_cons, Ne.symm h]
  | cons c m ih =>
    obtain ⟨k, w⟩ := c
    simp only [Memory.write]
    split
    · simp only [Memory.read?_cons, ih]
    · split
      · rename_i hk
        simp [Memory.read?_cons, hk, Ne.symm h]
      · simp [Memory.read?_cons, Ne.symm h]

/-- One spec lemma for a sequence write: inside the written range the sequence, outside what was there. -/
theorem Memory.read?_writeSeq (m : Memory α) (base : Nat) (vs : List α) (i : Nat) :
    (m.writeSeq base vs).read? i =
      if base ≤ i ∧ i < base + vs.length then vs[i - base]? else m.read? i := by
  induction vs generalizing m base with
  | nil => simp [Memory.writeSeq]
  | cons v vs ih =>
    rw [Memory.writeSeq, ih]
    by_cases hi : i = base
    · subst hi; simp
    · rw [Memory.read?_write_of_ne m v hi]
      by_cases hr : base ≤ i ∧ i < base + (v :: vs).length
      · have hs : i - base = (i - (base + 1)) + 1 := by omega
        rw [if_pos hr, if_pos (by simp at hr; omega), hs, List.getElem?_cons_succ]
      · rw [if_neg hr, if_neg (by simp at hr; omega)]

theorem Memory.read?_writeSeq_zero (m : Memory α) (vs : List α) {i : Nat} (h : i < vs.length) :
    (m.writeSeq 0 vs).read? i = vs[i]? := by
  rw [Memory.read?_writeSeq, if_pos (by omega), Nat.sub_zero]

theorem Memory.read?_writeSeq_above (m : Memory α) (vs : List α) {i : Nat} (h : vs.length ≤ i) :
    (m.writeSeq 0 vs).read? i = m.read? i := by
  rw [Memory.read?_writeSeq, if_neg (by omega)]

/-- Reading back a whole sequence that has just been written from index 0, whatever unlisted elements read as. -/
theorem Memory.range_map_writeSeq (m : Memory α) (vs : List α) (free : Nat → α) :
    (List.range vs.length).map (fun i => ((m.writeSeq 0 vs).read? i).getD (free i)) = vs := by
  apply List.ext_getElem <;> simp
  intro i hi
  rw [Memory.read?_writeSeq_zero m vs hi, List.getElem?_eq_getElem hi, Option.getD_some]

theorem Memory.read?_filter_same (m : Memory α) (i : Nat) :
    Memory.read? (m.filter (fun c => c.1 != i)) i = none := by
  induction m with
  | nil => rfl
  | cons c m ih =>
    obtain ⟨k, w⟩ := c
    by_cases hc : k = i
    · simpa [List.filter_cons, hc] using ih
    · simp [hc, Memory.read?_cons, ih]

theorem Memory.read?_filter_of_ne (m : Memory α) {i j : Nat} (h : j ≠ i) :
    Memory.read? (m.filter (fun c => c.1 != i)) j = m.read? j := by
  induction m with
  | nil => rfl
  | cons c m ih =>
    obtain ⟨k, w⟩ := c
    by_cases hc : k = i
    · simp [hc, Memory.read?_cons, ih, Ne.symm h]
    · simp [hc, Memory.read?_cons, ih]

/-! ### The canonical form -/

theorem Memory.risingFrom_mono {low low' : Nat} (m : Memory α) (h : low' ≤ low)
    (hm : Memory.risingFrom low m = true) : Memory.risingFrom low' m = true := by
  cases m with
  | nil => rfl
  | cons c m => simp [Memory.risingFrom] at hm ⊢; exact ⟨by omega, hm.2⟩

theorem Memory.risingFrom_write {low : Nat} (m : Memory α) {i : Nat} (v : α) (hi : low ≤ i)
    (hm : Memory.risingFrom low m = true) : Memory.risingFrom low (m.write i v) = true := by
  induction m generalizing low with
  | nil => simp [Memory.write, Memory.risingFrom, hi]
  | cons c m ih =>
    obtain ⟨k, w⟩ := c
    simp [Memory.risingFrom] at hm
    simp only [Memory.write]
    split
    · simp [Memory.risingFrom, hm.1, ih (by omega) hm.2]
    · split
      · rename_i hk
        subst hk; simp [Memory.risingFrom, hi, hm.2]
      · simp [Memory.risingFrom, hi, hm.2]; omega

theorem Memory.mem_write (m : Memory α) (i : Nat) (v : α) {c : Nat × α} (h : c ∈ m.write i v) :
    c = (i, v) ∨ c ∈ m := by
  induction m with
  | nil => simpa [Memory.write] using h
  | cons d m ih =>
    obtain ⟨k, w⟩ := d
    simp only [Memory.write] at h
    split at h
    · rcases List.mem_cons.mp h with h | h
      · exact .inr (by simp [h])
      · rcases ih h with h | h
        · exact .inl h
        · exact .inr (by simp [h])
    · split at h <;> simp at h ⊢ <;> tauto

theorem Memory.wf_nil (size : Nat) : Memory.wf size ([] : Memory α) = true := rfl

theorem Memory.wf_write {size : Nat} {m : Memory α} {i : Nat} (v : α) (hi : i < size) (hm : m.wf size = true) :
    (m.write i v).wf size = true := by
  simp only [Memory.wf, Bool.and_eq_true, List.all_eq_true, decide_eq_true_eq] at hm ⊢
  refine ⟨Memory.risingFrom_write m v (Nat.zero_le i) hm.1, fun c hc => ?_⟩
  rcases Memory.mem_write m i v hc with rfl | hc
  · exact hi
  · exact hm.2 c hc

theorem Memory.wf_writeSeq {size base : Nat} {m : Memory α} (vs : List α) (hb : base + vs.length ≤ size)
    (hm : m.wf size = true) : (m.writeSeq base vs).wf size = true := by
  induction vs generalizing m base with
  | nil => exact hm
  | cons v vs ih =>
    simp at hb
    exact ih (by omega) (Memory.wf_write v (by omega) hm)

theorem Memory.risingFrom_filter {low : Nat} (m : Memory α) (p : Nat × α → Bool)
    (hm : Memory.risingFrom low m = true) : Memory.risingFrom low (m.filter p) = true := by
  induction m generalizing low with
  | nil => rfl
  | cons c m ih =>
    obtain ⟨k, w⟩ := c
    simp [Memory.risingFrom] at hm
    by_cases hc : p (k, w)
    · simp [hc, Memory.risingFrom, hm.1, ih hm.2]
    · simpa [List.filter_cons, hc] using ih (Memory.risingFrom_mono m (by omega) hm.2)

theorem Memory.wf_filter {size : Nat} {m : Memory α} (p : Nat × α → Bool) (hm : m.wf size = true) :
    Memory.wf size (m.filter p) = true := by
  simp only [Memory.wf, Bool.and_eq_true, List.all_eq_true, decide_eq_true_eq] at hm ⊢
  exact ⟨Memory.risingFrom_filter m p hm.1, fun c hc => hm.2 c (List.mem_of_mem_filter hc)⟩

/-- In canonical form a listed pair is what a read of its index finds. -/
theorem Memory.read?_of_mem {low : Nat} {m : Memory α} (hm : Memory.risingFrom low m = true) {c : Nat × α}
    (hc : c ∈ m) : low ≤ c.1 ∧ m.read? c.1 = some c.2 := by
  induction m generalizing low with
  | nil => simp at hc
  | cons d m ih =>
    obtain ⟨k, w⟩ := d
    simp [Memory.risingFrom] at hm
    rcases List.mem_cons.mp hc with rfl | hc
    · exact ⟨hm.1, by simp [Memory.read?_cons]⟩
    · obtain ⟨h1, h2⟩ := ih hm.2 hc
      exact ⟨by omega, by rw [Memory.read?_cons, if_neg (by omega), h2]⟩

theorem Memory.mem_of_read? {m : Memory α} {i : Nat} {v : α} (h : m.read? i = some v) : (i, v) ∈ m := by
  induction m with
  | nil => simp at h
  | cons c m ih =>
    obtain ⟨k, w⟩ := c
    rw [Memory.read?_cons] at h
    split at h
    · rename_i hk
      cases h
      simp [hk]
    · exact List.mem_cons_of_mem _ (ih h)

/-! ### The CodeTable -/

/-- Writing an entry, and reading any entry back: what `writeCode` does, once. -/
theorem readCode_writeCode (ct : Memory CtEntry) (x y : Byte) (e : CtEntry) :
    readCode (writeCode ct x e) y = if y = x then e else readCode ct y := by
  unfold readCode writeCode
  by_cases hx : y = x
  · subst hx
    by_cases he : e = CtEntry.invalid
    · simp [he, Memory.read?_filter_same]
    · simp [he]
  · have hn : y.toNat ≠ x.toNat := fun h => hx (BitVec.eq_of_toNat_eq h)
    by_cases he : e = CtEntry.invalid
    · simp [he, hx, Memory.read?_filter_of_ne ct hn]
    · simp [he, hx, Memory.read?_write_of_ne ct e hn]

@[simp] theorem readCode_invalidTable (x : Byte) : readCode invalidTable x = CtEntry.invalid := rfl

theorem writeCode_wf {ct : Memory CtEntry} (x : Byte) (e : CtEntry) (h : ct.wf Config.alphabetMax = true) :
    (writeCode ct x e).wf Config.alphabetMax = true := by
  unfold writeCode
  split
  · exact Memory.wf_filter _ h
  · exact Memory.wf_write _ x.isLt h

/-! ### Reset -/

theorem reset_memories_wf (n : Nat) :
    State.reset.sym.wf n = true ∧ State.reset.ft.wf n = true ∧ State.reset.node.wf n = true ∧
      State.reset.ct.wf n = true ∧ State.reset.enc.wf n = true ∧ State.reset.dec.wf n = true :=
  ⟨rfl, rfl, rfl, rfl, rfl, rfl⟩

end Sys2Proof.Machine
end

