-- ==== Sys2Proof/Laws/Objects.lean ====
section
/-! SUPPORT. The objects that the commands write, read back: one lemma per write, which proofs cite instead of
unfolding it. -/

namespace Sys2Proof

/-! ### Codes (R41) -/

theorem pathBits_lt (path : List Bool) : pathBits path < 2 ^ path.length := by
  induction path with
  | nil => simp [pathBits]
  | cons d path ih =>
    have hd : d.toNat ≤ 1 := Bool.toNat_le d
    simp only [pathBits, List.length_cons, Nat.pow_succ]
    omega

theorem testBit_pathBits (path : List Bool) (j : Nat) : (pathBits path).testBit j = path.getD j false := by
  induction path generalizing j with
  | nil => simp [pathBits]
  | cons d path ih =>
    have hd : d.toNat < 2 := Bool.toNat_lt d
    cases j with
    | zero =>
      cases d <;> simp [pathBits, Nat.testBit_zero]
    | succ j =>
      rw [Nat.testBit_succ, show pathBits (d :: path) / 2 = pathBits path by simp only [pathBits]; omega, ih]
      simp

/-- The digits of the entry made from a path are the path, as long as it fits the field `code`. -/
theorem CtEntry.digits_ofPath {path : List Bool} (h : path.length ≤ codeMax) :
    (CtEntry.ofPath path).digits = path := by
  have hl : (BitVec.ofNat 8 path.length).toNat = path.length := by
    rw [BitVec.toNat_ofNat]; exact Nat.mod_eq_of_lt (by simp [codeMax] at h; omega)
  simp only [CtEntry.digits, CtEntry.ofPath, hl]
  apply List.ext_getElem <;> simp
  intro j hj
  rw [BitVec.getLsbD_ofNat, testBit_pathBits, List.getD_eq_getElem?_getD, List.getElem?_eq_getElem hj]
  simp [codeMax] at h ⊢
  intro hc; omega

@[simp] theorem CtEntry.ofPath_valid (path : List Bool) : (CtEntry.ofPath path).valid = true := rfl

@[simp] theorem CtEntry.digits_invalid : CtEntry.invalid.digits = [] := rfl

@[simp] theorem CtEntry.length_digits (e : CtEntry) : e.digits.length = e.len.toNat := by
  simp [CtEntry.digits]

theorem Node.record_node (n : Node) : n.record.node = n := by
  cases n <;> simp [Node.record, NodeRecord.node]

namespace Machine

/-- The digit elements of a machine are two distinct values (R12, D5). -/
theorem Parameters.digit0_ne_digit1 (p : Parameters) : p.digit0 ≠ p.digit1 := by
  have h := p.ok
  simp only [parametersOk, Bool.and_eq_true, bne_iff_ne] at h
  exact h.2

theorem digitElement_injective {p : Parameters} {a b : Bool} (h : digitElement p a = digitElement p b) : a = b := by
  cases a <;> cases b <;> simp_all [digitElement, p.digit0_ne_digit1, p.digit0_ne_digit1.symm]

/-- Each digit element passes DECODE's check (R165). -/
theorem digitElement_valid (p : Parameters) (d : Bool) :
    digitElement p d = p.digit0 ∨ digitElement p d = p.digit1 := by
  cases d
  · exact .inl rfl
  · exact .inr rfl

/-! ### Reading the objects back -/

theorem toNat_ofNat_of_lt {w n : Nat} (h : n < 2 ^ w) : (BitVec.ofNat w n).toNat = n := by
  rw [BitVec.toNat_ofNat, Nat.mod_eq_of_lt h]

theorem State.table_putTable (s : State) {l : List FtEntry} (h : l.length < 2 ^ nidxW) :
    (s.putTable l).succeed.table = l := by
  simp only [State.table, State.succeed_ftK, State.putTable_ftK, toNat_ofNat_of_lt h]
  exact Memory.range_map_writeSeq s.ft l _

theorem State.nodes_putTree (s : State) {l : List Node} (r : Nat) (h : l.length < 2 ^ nidxW) :
    (s.putTree l r).succeed.nodes = l := by
  simp only [State.nodes, State.succeed_nodeCnt, State.putTree_nodeCnt, toNat_ofNat_of_lt h]
  exact Memory.range_map_writeSeq s.node l _

theorem State.nodeAt_putTree (s : State) {l : List Node} (r : Nat) {i : Nat} (h : i < l.length) :
    (s.putTree l r).succeed.nodeAt i = l[i] := by
  simp [State.nodeAt, Memory.read?_writeSeq_zero s.node l h, List.getElem?_eq_getElem h]

theorem State.stream_putStream (s : State) {l : List Byte} (h : l.length < 2 ^ elenW) :
    (s.putStream l).succeed.stream = l := by
  simp only [State.stream, State.succeed_encLen, State.putStream_encLen, toNat_ofNat_of_lt h]
  exact Memory.range_map_writeSeq s.enc l _

theorem State.decoded_putDecoded (s : State) {l : List Byte} (p : Nat) (h : l.length < 2 ^ lenW) :
    (s.putDecoded l p).succeed.decoded = l := by
  simp only [State.decoded, State.succeed_decLen, State.putDecoded_decLen, toNat_ofNat_of_lt h]
  exact Memory.range_map_writeSeq s.dec l _

@[simp] theorem State.codeOf_putCodes (s : State) (m : Memory CtEntry) (x : Byte) :
    (s.putCodes m).succeed.codeOf x = readCode m x := rfl

/-- A written element reads the same in every epoch. -/
theorem State.symAt_of_written {s : State} {i : Nat} {b : Byte} (h : s.sym.read? i = some b) : s.symAt i = b := by
  simp [State.symAt, h]

theorem State.encAt_of_written {s : State} {p : Nat} {b : Byte} (h : s.enc.read? p = some b) : s.encAt p = b := by
  simp [State.encAt, h]

theorem State.nodeAt_of_written {s : State} {i : Nat} {n : Node} (h : s.node.read? i = some n) :
    s.nodeAt i = n := by
  simp [State.nodeAt, h]

theorem State.ftAt_of_written {s : State} {j : Nat} {e : FtEntry} (h : s.ft.read? j = some e) : s.ftAt j = e := by
  simp [State.ftAt, h]

@[simp] theorem State.length_symbols (s : State) : s.symbols.length = s.symLen.toNat := by simp [State.symbols]

@[simp] theorem State.length_table (s : State) : s.table.length = s.ftK.toNat := by simp [State.table]

@[simp] theorem State.length_nodes (s : State) : s.nodes.length = s.nodeCnt.toNat := by simp [State.nodes]

@[simp] theorem State.length_stream (s : State) : s.stream.length = s.encLen.toNat := by simp [State.stream]

@[simp] theorem State.length_decoded (s : State) : s.decoded.length = s.decLen.toNat := by simp [State.decoded]

/-! ### What the loops of ENCODE and DECODE can end in -/

theorem Encoded.prepend_eq_done {front l : List Byte} {r : Encoded} (h : r.prepend front = .done l) :
    ∃ rest, r = .done rest ∧ l = front ++ rest := by
  cases r with
  | done rest => exact ⟨rest, rfl, by simpa [Encoded.prepend] using h.symm⟩
  | failed e => simp [Encoded.prepend] at h

theorem Encoded.prepend_eq_failed {front : List Byte} {r : Encoded} {e : Raised} (h : r.prepend front = .failed e) :
    r = .failed e := by
  cases r with
  | done rest => simp [Encoded.prepend] at h
  | failed e' => simpa [Encoded.prepend] using h

theorem Walked.emit_eq_done {x : Byte} {l : List Byte} {p : Nat} {r : Walked} (h : r.emit x = .done l p) :
    ∃ rest, r = .done rest p ∧ l = x :: rest := by
  cases r with
  | done rest q =>
    simp only [Walked.emit, Walked.done.injEq] at h
    exact ⟨rest, by rw [h.2], h.1.symm⟩
  | failed e => simp [Walked.emit] at h

theorem Walked.emit_eq_failed {x : Byte} {r : Walked} {e : Raised} (h : r.emit x = .failed e) : r = .failed e := by
  cases r with
  | done rest q => simp [Walked.emit] at h
  | failed e' => simpa [Walked.emit] using h

/-- The only error of ENCODE's loop: an unknown symbol at an index of its input (R152). -/
theorem encodeFrom_failed {p : Parameters} {ct : Memory CtEntry} {i : Nat} {xs : List Byte} {e : Raised}
    (h : encodeFrom p ct i xs = .failed e) :
    e.code = .unknownSymbol ∧ i ≤ e.pos ∧ xs[e.pos - i]? = some e.val ∧ (readCode ct e.val).valid = false := by
  induction xs generalizing i with
  | nil => simp [encodeFrom] at h
  | cons x xs ih =>
    simp only [encodeFrom] at h
    split at h
    · obtain ⟨h1, h2, h3, h4⟩ := ih (Encoded.prepend_eq_failed h)
      have hs : e.pos - i = (e.pos - (i + 1)) + 1 := by omega
      exact ⟨h1, by omega, by rw [hs, List.getElem?_cons_succ]; exact h3, h4⟩
    · rename_i hv
      cases h
      exact ⟨rfl, Nat.le_refl _, by simp, by simpa using hv⟩

/-- What a walk can end in: the symbols it still needed and no more digits than were left, or one of the two stream
errors at a position of the stream (R164, R165, R168). -/
theorem decodeWalk_cases (s : State) (left need ptr pos : Nat) :
    (∃ l p, decodeWalk s left need ptr pos = .done l p ∧ l.length = need ∧ pos ≤ p ∧ p ≤ pos + left) ∨
    (decodeWalk s left need ptr pos = .failed ⟨.truncatedStream, pos + left, 0⟩) ∨
    (∃ p, decodeWalk s left need ptr pos = .failed ⟨.malformedStream, p, s.encAt p⟩ ∧ pos ≤ p ∧ p < pos + left ∧
      s.encAt p ≠ s.params.digit0 ∧ s.encAt p ≠ s.params.digit1) := by
  induction left generalizing need ptr pos with
  | zero =>
    cases need with
    | zero => exact .inl ⟨[], pos, rfl, rfl, Nat.le_refl _, by omega⟩
    | succ n => exact .inr (.inl rfl)
  | succ left ih =>
    cases need with
    | zero => exact .inl ⟨[], pos, rfl, rfl, Nat.le_refl _, by omega⟩
    | succ n =>
      simp only [decodeWalk]
      split
      · split
        · rcases ih n s.root.toNat (pos + 1) with ⟨l, p, h, h1, h2, h3⟩ | h | ⟨p, h, h1, h2, h3⟩
          · exact .inl ⟨_, p, by rw [h]; rfl, by simp [h1], by omega, by omega⟩
          · exact .inr (.inl (by rw [h]; simp [Walked.emit]; omega))
          · exact .inr (.inr ⟨p, by rw [h]; rfl, by omega, by omega, h3⟩)
        · rcases ih (n + 1) _ (pos + 1) with ⟨l, p, h, h1, h2, h3⟩ | h | ⟨p, h, h1, h2, h3⟩
          · exact .inl ⟨l, p, h, h1, by omega, by omega⟩
          · exact .inr (.inl (by rw [h]; simp; omega))
          · exact .inr (.inr ⟨p, h, by omega, by omega, h3⟩)
      · rename_i hc
        exact .inr (.inr ⟨pos, rfl, Nat.le_refl _, by omega, by tauto⟩)

end Machine

end Sys2Proof
end

