-- ==== Sys2Proof/Laws/Loops.lean ====
section
/-! SUPPORT. One spec lemma for each loop of the commands and for the priority structure: what extract_min returns, what
one more symbol does to a table, what ENCODE's loop answers, how DECODE's loop goes along a path of the tree, and what
the loops depend on. -/

namespace Sys2Proof.Machine

/-! ### The priority structure (R123, R186) -/

theorem comesBefore_iff {nodes : List Node} {i j : Nat} :
    comesBefore nodes i j = true ↔
      freqAt nodes i < freqAt nodes j ∨ (freqAt nodes i = freqAt nodes j ∧ i < j) := by
  simp [comesBefore]

/-- The order is total on distinct indices. -/
theorem comesBefore_of_not {nodes : List Node} {i j : Nat} (hne : i ≠ j) (h : ¬ comesBefore nodes i j = true) :
    comesBefore nodes j i = true := by
  rw [comesBefore_iff] at *
  omega

theorem comesBefore_trans {nodes : List Node} {i j k : Nat} (h : comesBefore nodes i j = true)
    (h' : comesBefore nodes j k = true) : comesBefore nodes i k = true := by
  rw [comesBefore_iff] at *
  omega

theorem minMember_spec (nodes : List Node) (best : Nat) (members : List Nat) :
    minMember nodes best members ∈ best :: members ∧
      ∀ c ∈ best :: members, c ≠ minMember nodes best members →
        comesBefore nodes (minMember nodes best members) c = true := by
  induction members generalizing best with
  | nil => simp [minMember]
  | cons i rest ih =>
    simp only [minMember]
    split
    · rename_i hb
      obtain ⟨hm, hc⟩ := ih i
      refine ⟨List.mem_cons_of_mem _ hm, fun c hcm hne => ?_⟩
      rcases List.mem_cons.mp hcm with rfl | hcm
      · by_cases hi : i = minMember nodes i rest
        · rwa [← hi]
        · exact comesBefore_trans (hc i (List.mem_cons_self ..) hi) hb
      · exact hc c hcm hne
    · rename_i hb
      obtain ⟨hm, hc⟩ := ih best
      refine ⟨?_, fun c hcm hne => ?_⟩
      · rcases List.mem_cons.mp hm with h | h
        · rw [h]; exact List.mem_cons_self ..
        · exact List.mem_cons_of_mem _ (List.mem_cons_of_mem _ h)
      · rcases List.mem_cons.mp hcm with rfl | hcm
        · exact hc c (List.mem_cons_self ..) hne
        · rcases List.mem_cons.mp hcm with rfl | hcm
          · by_cases hib : c = best
            · subst hib; exact hc c (List.mem_cons_self ..) hne
            · have hbc := comesBefore_of_not hib hb
              by_cases hbm : best = minMember nodes best rest
              · rwa [← hbm]
              · exact comesBefore_trans (hc best (List.mem_cons_self ..) hbm) hbc
          · exact hc c (List.mem_cons_of_mem _ hcm) hne

/-- `extract_min` answers the member that comes first, and the set without it; none on the empty set. -/
theorem extractMin_spec {nodes : List Node} {pq rest : List Nat} {m : Nat}
    (h : extractMin nodes pq = some (m, rest)) :
    m ∈ pq ∧ rest = pq.erase m ∧ ∀ c ∈ pq, c ≠ m → comesBefore nodes m c = true := by
  cases pq with
  | nil => simp [extractMin] at h
  | cons i pq =>
    simp only [extractMin, Option.some.injEq, Prod.mk.injEq] at h
    obtain ⟨rfl, rfl⟩ := h
    obtain ⟨hm, hc⟩ := minMember_spec nodes i pq
    exact ⟨hm, rfl, hc⟩

theorem extractMin_eq_none {nodes : List Node} {pq : List Nat} : extractMin nodes pq = none ↔ pq = [] := by
  cases pq <;> simp [extractMin]

/-! ### The frequency counter -/

/-- One more symbol leaves the keys as they are if it is known, and appends it if it is new (R110, R111). -/
theorem countSymbol_keys (table : List FtEntry) (x : Byte) :
    (countSymbol table x).map FtEntry.sym =
      if x ∈ table.map FtEntry.sym then table.map FtEntry.sym else table.map FtEntry.sym ++ [x] := by
  induction table with
  | nil => simp [countSymbol]
  | cons e rest ih =>
    simp only [countSymbol]
    split
    · rename_i he
      simp [he]
    · rename_i he
      simp only [List.map_cons, ih, List.mem_cons, Ne.symm he, false_or]
      split <;> simp

/-! ### ENCODE's loop -/

/-- When ENCODE's loop reaches its end, every symbol has a valid entry, and the elements are the codes' digits one
after another (R150, R151). -/
theorem encodeFrom_done {p : Parameters} {ct : Memory CtEntry} {i : Nat} {xs l : List Byte}
    (h : encodeFrom p ct i xs = .done l) :
    (∀ x ∈ xs, (readCode ct x).valid = true) ∧
      l = xs.flatMap (fun x => (readCode ct x).digits.map (digitElement p)) := by
  induction xs generalizing i l with
  | nil => simp only [encodeFrom, Encoded.done.injEq] at h; simp [← h]
  | cons x xs ih =>
    simp only [encodeFrom] at h
    split at h
    · rename_i hv
      obtain ⟨rest, hr, rfl⟩ := Encoded.prepend_eq_done h
      obtain ⟨h1, h2⟩ := ih hr
      exact ⟨by simpa [hv] using h1, by simp [List.flatMap_cons, h2]⟩
    · cases h

/-! ### DECODE's loop along a path -/

/-- The child that a digit's element leads to from an Internal node. -/
theorem childOf_internal (p : Parameters) (f : LenWord) (l r : NodeIndex) (d : Bool) :
    childOf p (.internal f l r) (digitElement p d) = if d then r else l := by
  cases d <;> simp [childOf, digitElement, Node.record, p.digit0_ne_digit1.symm]

/-- Along the digits of a path that stays among Internal nodes DECODE's loop only moves PTR (R173, fourth row). -/
theorem decodeWalk_inside (s : State) (path : List Bool) (i left need pos : Nat)
    (hin : staysInside s i path = true)
    (hread : ∀ j (h : j < path.length), s.encAt (pos + j) = digitElement s.params path[j]) :
    ∃ k, decodeWalk s (path.length + left) (need + 1) i pos =
        decodeWalk s left (need + 1) k (pos + path.length) ∧
      staysInside s k [] = true ∧ ∀ q x, leadsTo s i (path ++ q) x = leadsTo s k q x := by
  induction path generalizing i pos with
  | nil => exact ⟨i, by simp, hin, fun q x => rfl⟩
  | cons d path ih =>
    simp only [staysInside] at hin
    split at hin
    · cases hin
    · rename_i f l r hn
      have h0 : s.encAt pos = digitElement s.params d := hread 0 (by simp)
      have hnode : ∀ c, (childOf s.params (.internal f l r) (digitElement s.params d)).toNat = c →
          c = if d then r.toNat else l.toNat := by
        intro c hc
        rw [childOf_internal] at hc
        cases d <;> simpa using hc.symm
      obtain ⟨k, hk, hin', hl⟩ := ih (if d then r.toNat else l.toNat) (pos + 1) hin (fun j hj => by
        have := hread (j + 1) (by simpa using hj)
        simpa [Nat.add_assoc, Nat.add_comm 1 j] using this)
      refine ⟨k, ?_, hin', fun q x => by simp only [List.cons_append, leadsTo, hn, hl]⟩
      have hchild : ∃ f' l' r', s.nodeAt (if d then r.toNat else l.toNat) = .internal f' l' r' := by
        cases hc : s.nodeAt (if d then r.toNat else l.toNat) with
        | leaf y g =>
          cases path <;> simp [staysInside, hc] at hin
        | internal f' l' r' => exact ⟨f', l', r', rfl⟩
      obtain ⟨f', l', r', hc⟩ := hchild
      have hlen : (d :: path).length + left = (path.length + left) + 1 := by simp; omega
      rw [hlen, decodeWalk]
      simp only [h0, digitElement_valid, if_true, hn, hnode _ rfl, hc]
      rw [hk]
      congr 1
      simp
      omega

/-! ### What DECODE's and GENTAB's loops depend on -/

/-- DECODE's loop reads the parameters, ROOT, the nodes and the stream's elements, and nothing else (R91). -/
theorem decodeWalk_congr {s u : State} (hp : u.params = s.params) (hr : u.root = s.root)
    (he : ∀ p, u.encAt p = s.encAt p) (hn : ∀ i, u.nodeAt i = s.nodeAt i) (left need ptr pos : Nat) :
    decodeWalk u left need ptr pos = decodeWalk s left need ptr pos := by
  induction left generalizing need ptr pos with
  | zero => cases need <;> rfl
  | succ left ih => cases need <;> simp only [decodeWalk, hp, hr, he, hn, ih]

theorem decodeStream_congr {s u : State} (hp : u.params = s.params) (hr : u.root = s.root)
    (hl : u.encLen = s.encLen) (hx : u.expCnt = s.expCnt)
    (he : ∀ p, u.encAt p = s.encAt p) (hn : ∀ i, u.nodeAt i = s.nodeAt i) : decodeStream u = decodeStream s := by
  simp only [decodeStream, hr, hl, hx, hn, decodeWalk_congr hp hr he hn]

/-- GENTAB's traversal reads the nodes, and nothing else (R91, R144). -/
theorem visit_congr {s u : State} (hn : ∀ i, u.nodeAt i = s.nodeAt i) (depth i : Nat) (path : List Bool)
    (ct : Memory CtEntry) : visit u depth i path ct = visit s depth i path ct := by
  induction depth generalizing i path ct with
  | zero => rfl
  | succ depth ih => simp only [visit, hn, ih]

theorem codeTable_congr {s u : State} (hr : u.root = s.root) (hn : ∀ i, u.nodeAt i = s.nodeAt i) :
    codeTable u = codeTable s := by
  simp only [codeTable, hr, visit_congr hn]

end Sys2Proof.Machine
end

