-- ==== Sys2Proof/Laws/PerInstr.lean ====
section
/-! SUPPORT. A fact about every command as syntax, one lemma per constructor: its word is one of the legal ones. -/

namespace Sys2Proof.Laws.LegalWord

/-- The command is well formed, and its word's fields pass the checks of R90 and R92. -/
def Statement (i : Instr) : Prop :=
  i.wellFormed = true ∧ (CommandWord.ofByte (encode i)).wellFormed = true

theorem nop : Statement .nop := ⟨rfl, rfl⟩

theorem clear : Statement .clear := ⟨rfl, rfl⟩

theorem count : Statement .count := ⟨rfl, rfl⟩

theorem build : Statement .build := ⟨rfl, rfl⟩

theorem gentab : Statement .gentab := ⟨rfl, rfl⟩

theorem encode : Statement .encode := ⟨rfl, rfl⟩

theorem decode : Statement .decode := ⟨rfl, rfl⟩

end Sys2Proof.Laws.LegalWord
end

