-- ==== Sys2Proof/Laws/Step.lean ====
section
/-! SUPPORT. What each command and each step can do, once: the inversion lemmas that later proofs cite instead of
unfolding `exec` and `step`, and the induction over a step packaged as `step_keeps`. -/

namespace Sys2Proof.Machine

/-! ### Commands -/

theorem exec_build_cases {s t : State} (h : exec .build s = .next t) :
    (s.ftK = 0 ∧ t = s.dropTree.raise .emptyInput 0 0) ∨
    (s.ftK ≠ 0 ∧ t = (s.putTree (buildTree s.table).1 (buildTree s.table).2).succeed) := by
  simp only [exec, execBuild] at h
  split at h
  · rename_i hk
    cases h
    exact .inl ⟨hk, rfl⟩
  · rename_i hk
    cases h
    exact .inr ⟨hk, rfl⟩

theorem exec_gentab_cases {s t : State} (h : exec .gentab s = .next t) :
    (s.treeValid = false ∧ t = (s.putCodes invalidTable).raise .noTree 0 0) ∨
    (s.treeValid = true ∧ ∃ ct, codeTable s = some ct ∧ t = (s.putCodes ct).succeed) := by
  simp only [exec, execGentab] at h
  split at h
  · rename_i hv
    split at h
    · rename_i ct hc
      cases h
      exact .inr ⟨hv, ct, hc, rfl⟩
    · cases h
  · rename_i hv
    cases h
    exact .inl ⟨by simpa using hv, rfl⟩

theorem exec_encode_cases {s t : State} (h : exec .encode s = .next t) :
    (∃ l, encodeFrom s.params s.ct 0 s.symbols = .done l ∧ t = (s.putStream l).succeed) ∨
    (∃ e, encodeFrom s.params s.ct 0 s.symbols = .failed e ∧ t = s.dropStream.raise e.code e.pos e.val) := by
  simp only [exec, execEncode] at h
  split at h
  · rename_i l hl
    cases h
    exact .inl ⟨l, hl, rfl⟩
  · rename_i e he
    cases h
    exact .inr ⟨e, he, rfl⟩

theorem exec_decode_cases {s t : State} (h : exec .decode s = .next t) :
    (s.treeValid = false ∧ t = s.dropDecoded.raise .noTree 0 0) ∨
    (s.treeValid = true ∧ ∃ l p, decodeStream s = .done l p ∧ t = (s.putDecoded l p).succeed) ∨
    (s.treeValid = true ∧ ∃ e, decodeStream s = .failed e ∧ t = s.dropDecoded.raise e.code e.pos e.val) := by
  simp only [exec, execDecode] at h
  split at h
  · rename_i hv
    split at h
    · rename_i l p hl
      cases h
      exact .inr (.inl ⟨hv, l, p, hl, rfl⟩)
    · rename_i e he
      cases h
      exact .inr (.inr ⟨hv, e, he, rfl⟩)
  · rename_i hv
    cases h
    exact .inl ⟨by simpa using hv, rfl⟩

/-- No command but GENTAB ever stops, and GENTAB only where there is no code table. -/
theorem exec_stops {i : Instr} {s : State} (h : ∀ t, exec i s ≠ .next t) :
    i = .gentab ∧ s.treeValid = true ∧ codeTable s = none := by
  cases i with
  | nop => exact absurd rfl (h _)
  | clear => exact absurd rfl (h _)
  | count => exact absurd rfl (h _)
  | build =>
    simp only [exec, execBuild] at h
    split at h <;> exact absurd rfl (h _)
  | gentab =>
    simp only [exec, execGentab] at h
    split at h
    · rename_i hv
      split at h
      · exact absurd rfl (h _)
      · rename_i hc
        exact ⟨rfl, hv, hc⟩
    · exact absurd rfl (h _)
  | encode =>
    simp only [exec, execEncode] at h
    split at h <;> exact absurd rfl (h _)
  | decode =>
    simp only [exec, execDecode] at h
    split at h
    · split at h <;> exact absurd rfl (h _)
    · exact absurd rfl (h _)

/-! ### The host's transactions -/

/-- What a transaction made while BUSY = 0 can come to; the first case is a write that is ignored, or a transaction that
is left out, with others or alone. -/
theorem serve_handled_cases {s t : State} {e : HostEvent} (h : s.serve e = .handled t) :
    (∃ h', t = { s with host := h' }) ∨ (∃ v, t = s.answer v) ∨ (∃ v, t = s.answerAndAdvance v) ∨ (∃ r v, t = s.writeReg r v) ∨
    (∃ sp i v, i < sp.size ∧ t = s.writeElement sp i v) ∨ t = s.resetInput ∨ (∃ w, t = s.raiseIllegal w) ∨
    (∃ i n, t = { s with running := some i, overlap := n }) := by
  unfold State.serve at h
  split at h
  · cases htxn : e.txn with
    | regRead k =>
      simp only [htxn, State.regRead] at h
      split at h <;> cases h <;> exact .inr (.inl ⟨_, rfl⟩)
    | regWrite k v =>
      simp only [htxn] at h
      split at h
      · simp only [State.startCommand] at h
        split at h
        · split at h
          · cases h
          · cases h
            exact .inr (.inr (.inr (.inr (.inr (.inr (.inr ⟨_, _, rfl⟩))))))
        · cases h
          exact .inr (.inr (.inr (.inr (.inr (.inr (.inl ⟨_, rfl⟩))))))
        · cases h
          exact .inr (.inr (.inr (.inr (.inr (.inr (.inl ⟨_, rfl⟩))))))
      · simp only [State.regWrite] at h
        split at h <;> cases h
        · exact .inr (.inr (.inr (.inl ⟨_, _, rfl⟩)))
        · exact .inl ⟨_, rfl⟩
    | spaceRead id i =>
      simp only [htxn, State.spaceRead, State.refuseRead] at h
      split at h
      · split at h <;> cases h <;> exact .inr (.inr (.inl ⟨_, rfl⟩))
      · cases h
        exact .inr (.inr (.inl ⟨_, rfl⟩))
    | spaceWrite id i v =>
      simp only [htxn, State.spaceWrite] at h
      split at h
      · split at h <;> cases h
        · rename_i hi
          exact .inr (.inr (.inr (.inr (.inl ⟨_, _, _, hi, rfl⟩))))
        · exact .inl ⟨_, rfl⟩
      · cases h
        exact .inl ⟨_, rfl⟩
    | reset =>
      simp only [htxn] at h
      cases h
      exact .inr (.inr (.inr (.inr (.inr (.inl rfl)))))
  · cases h
    exact .inl ⟨_, rfl⟩

/-- A transaction that runs a command changes nothing else. -/
theorem serve_runs {s t : State} {e : HostEvent} {i : Instr} (h : s.serve e = .runs i t) :
    t = s ∧ ∃ v, e.txn = .regWrite 0 v ∧ decode (BitVec.ofNat 8 v) = .command i := by
  unfold State.serve at h
  split at h
  · cases htxn : e.txn with
    | regWrite k v =>
      simp only [htxn] at h
      split at h
      · rename_i hk
        simp only [State.startCommand] at h
        split at h
        · rename_i j hj
          split at h
          · cases h
            exact ⟨rfl, v, by rw [hk]; rfl, hj⟩
          · cases h
        · cases h
        · cases h
      · cases h
    | regRead k => simp [htxn] at h
    | spaceRead id i => simp [htxn] at h
    | spaceWrite id i v => simp [htxn] at h
    | reset => simp [htxn] at h
  · cases h

/-- What a transaction made while BUSY = 1 can come to (R73, R188). -/
theorem serveBusy_cases (s : State) (e : HostEvent) :
    (∃ h', s.serveBusy e = { s with host := h' }) ∨ (∃ v, s.serveBusy e = s.answer v) ∨ (∃ v, s.serveBusy e = s.answerAndAdvance v) ∨
      s.serveBusy e = s.resetInput := by
  unfold State.serveBusy
  split
  · cases htxn : e.txn with
    | regRead k =>
      simp only [State.regRead, State.refuseRead]
      split
      · split <;> exact .inr (.inl ⟨_, rfl⟩)
      · exact .inr (.inr (.inl ⟨_, rfl⟩))
    | regWrite k v => exact .inl ⟨_, rfl⟩
    | spaceRead id i => exact .inr (.inr (.inl ⟨_, rfl⟩))
    | spaceWrite id i v => exact .inl ⟨_, rfl⟩
    | reset => exact .inr (.inr (.inr rfl))
  · exact .inl ⟨_, rfl⟩

/-! ### Steps -/

/-- What a step can do: complete the running command, serve a transaction of its busy window, stay idle, serve the
host's next transaction, or run the command that it starts. -/
theorem step_cases {s t : State} (h : step s = .next t) :
    (∃ i, s.running = some i ∧ exec i s = .next t) ∨
    (∃ e h' n, t = State.serveBusy { s with overlap := n, host := h' } e) ∨
    (t = s) ∨
    (∃ e h', State.serve { s with host := h' } e = .handled t) ∨
    (∃ h' i, exec i { s with host := h' } = .next t) := by
  unfold step at h
  split at h
  · rename_i i hi
    split at h
    · rename_i e s' hw
      cases h
      refine .inr (.inl ?_)
      unfold State.nextInWindow at hw
      split at hw <;> cases hw
      exact ⟨_, _, _, rfl⟩
    · exact .inl ⟨i, hi, h⟩
  · split at h
    · cases h
      exact .inr (.inr (.inl rfl))
    · rename_i e rest hh
      split at h
      · rename_i s' hs
        cases h
        exact .inr (.inr (.inr (.inl ⟨e, rest, hs⟩)))
      · rename_i i s' hs
        obtain ⟨rfl, -⟩ := serve_runs hs
        exact .inr (.inr (.inr (.inr ⟨rest, i, h⟩)))

/-- The induction over a step, packaged: a property of the machine that does not depend on the model's own fields is
kept by every step, if the host's writes and every command keep it and reset has it, whatever the parameters. -/
theorem step_keeps {P : State → Prop}
    (hOwn : ∀ (s : State) r o hs d e, P s →
      P { s with running := r, overlap := o, host := hs, readData := d, epoch := e })
    (hReg : ∀ (s : State) r v, P s → P (s.writeReg r v))
    (hElement : ∀ (s : State) (sp : Space) i v, i < sp.size → P s → P (s.writeElement sp i v))
    (hReset : ∀ p, P { State.reset with params := p })
    (hIllegal : ∀ (s : State) w, P s → P (s.raiseIllegal w))
    (hExec : ∀ (i : Instr) (s t : State), P s → exec i s = .next t → P t)
    {s t : State} (hs : P s) (h : step s = .next t) : P t := by
  have hAns : ∀ (u : State) v, P u → P (u.answer v) := fun u v hu => hOwn u u.running u.overlap u.host (some v) u.epoch hu
  have hAdv : ∀ (u : State) v, P u → P (u.answerAndAdvance v) :=
    fun u v hu => hOwn u u.running u.overlap u.host (some v) (u.epoch + 1) hu
  have hRst : ∀ (u : State), P u.resetInput := fun u => hOwn _ none 0 u.host u.readData (u.epoch + 1) (hReset u.params)
  have hHost : ∀ h', P { s with host := h' } := fun h' => hOwn s s.running s.overlap h' s.readData s.epoch hs
  rcases step_cases h with ⟨i, -, he⟩ | ⟨e, h', n, rfl⟩ | rfl | ⟨e, h', hv⟩ | ⟨h', i, he⟩
  · exact hExec i s t hs he
  · have hu : P { s with overlap := n, host := h' } := hOwn s s.running n h' s.readData s.epoch hs
    rcases serveBusy_cases { s with overlap := n, host := h' } e with ⟨h'', hb⟩ | ⟨v, hb⟩ | ⟨v, hb⟩ | hb <;>
      rw [hb]
    · exact hOwn s s.running n h'' s.readData s.epoch hs
    · exact hAns _ v hu
    · exact hAdv _ v hu
    · exact hRst _
  · exact hs
  · rcases serve_handled_cases hv with ⟨h'', rfl⟩ | ⟨v, rfl⟩ | ⟨v, rfl⟩ | ⟨r, v, rfl⟩ | ⟨sp, i, v, hi, rfl⟩ | rfl |
      ⟨w, rfl⟩ | ⟨i, n, rfl⟩
    · exact hHost h''
    · exact hAns _ v (hHost h')
    · exact hAdv _ v (hHost h')
    · exact hReg _ r v (hHost h')
    · exact hElement _ sp i v hi (hHost h')
    · exact hRst _
    · exact hIllegal _ w (hHost h')
    · exact hOwn s (some i) n h' s.readData s.epoch hs
  · exact hExec i _ t (hHost h') he

end Sys2Proof.Machine
end

