-- ==== Sys2Proof/Laws/Script.lean ====
section
/-! SUPPORT. What the transactions of a command statement come to (R97, R98): no command looks at the host's side, and a
statement's steps run its command and then read its STATUS, whatever falls into the busy window. -/

namespace Sys2Proof.Machine

/-! ### Commands and the host's side -/

/-- A command that completes leaves the engine idle, and the host's side and the parameters as they were. -/
theorem exec_ends {i : Instr} {s t : State} (h : exec i s = .next t) :
    t.running = none ∧ t.overlap = 0 ∧ t.host = s.host ∧ t.readData = s.readData ∧ t.params = s.params := by
  cases i with
  | nop => cases h; exact ⟨rfl, rfl, rfl, rfl, rfl⟩
  | clear => cases h; exact ⟨rfl, rfl, rfl, rfl, rfl⟩
  | count => cases h; exact ⟨rfl, rfl, rfl, rfl, rfl⟩
  | build => rcases exec_build_cases h with ⟨-, rfl⟩ | ⟨-, rfl⟩ <;> exact ⟨rfl, rfl, rfl, rfl, rfl⟩
  | gentab => rcases exec_gentab_cases h with ⟨-, rfl⟩ | ⟨-, ct, -, rfl⟩ <;> exact ⟨rfl, rfl, rfl, rfl, rfl⟩
  | encode => rcases exec_encode_cases h with ⟨l, -, rfl⟩ | ⟨e, -, rfl⟩ <;> exact ⟨rfl, rfl, rfl, rfl, rfl⟩
  | decode =>
    rcases exec_decode_cases h with ⟨-, rfl⟩ | ⟨-, l, p, -, rfl⟩ | ⟨-, e, -, rfl⟩ <;> exact ⟨rfl, rfl, rfl, rfl, rfl⟩

/-- The state with another host's side: what the host still means to do, what it has read, and the command under way. -/
def State.withHostSide (s : State) (r : Option Instr) (o : Nat) (h : List HostEvent) (d : Option HostValue) : State :=
  { s with running := r, overlap := o, host := h, readData := d }

/-- No command looks at the host's side: on another one it does the same, and leaves that side as it is. -/
theorem exec_withHostSide {i : Instr} {s t : State} (h : exec i s = .next t) (r : Option Instr) (o : Nat)
    (hs : List HostEvent) (d : Option HostValue) :
    exec i (s.withHostSide r o hs d) = .next (t.withHostSide none 0 hs d) := by
  cases i with
  | nop => cases h; rfl
  | clear => cases h; rfl
  | count => cases h; rfl
  | build =>
    rcases exec_build_cases h with ⟨hk, rfl⟩ | ⟨hk, rfl⟩
    · exact if_pos hk
    · exact if_neg hk
  | gentab =>
    have hc : codeTable (s.withHostSide r o hs d) = codeTable s := codeTable_congr rfl (fun _ => rfl)
    rcases exec_gentab_cases h with ⟨hv, rfl⟩ | ⟨hv, ct, ht, rfl⟩
    · exact if_neg (by simpa [State.withHostSide] using hv)
    · simp only [exec, execGentab, hc, ht, show (s.withHostSide r o hs d).treeValid = true from hv, if_true]
      rfl
  | encode =>
    rcases exec_encode_cases h with ⟨l, hl, rfl⟩ | ⟨e, he, rfl⟩
    · have hl' : encodeFrom (s.withHostSide r o hs d).params (s.withHostSide r o hs d).ct 0
          (s.withHostSide r o hs d).symbols = .done l := hl
      simp only [exec, execEncode, hl']
      rfl
    · have he' : encodeFrom (s.withHostSide r o hs d).params (s.withHostSide r o hs d).ct 0
          (s.withHostSide r o hs d).symbols = .failed e := he
      simp only [exec, execEncode, he']
      rfl
  | decode =>
    have hc : decodeStream (s.withHostSide r o hs d) = decodeStream s :=
      decodeStream_congr rfl rfl rfl rfl (fun _ => rfl) (fun _ => rfl)
    rcases exec_decode_cases h with ⟨hv, rfl⟩ | ⟨hv, l, p, hl, rfl⟩ | ⟨hv, e, he, rfl⟩
    · exact if_neg (by simpa [State.withHostSide] using hv)
    · simp only [exec, execDecode, hc, hl, show (s.withHostSide r o hs d).treeValid = true from hv, if_true]
      rfl
    · simp only [exec, execDecode, hc, he, show (s.withHostSide r o hs d).treeValid = true from hv, if_true]
      rfl

/-! ### Runs -/

/-- A run goes on where a shorter one has come. -/
theorem run_add {s t : State} {k : Nat} (h : Host.Core.run core k s = .next t) (m : Nat) :
    Host.Core.run core (k + m) s = Host.Core.run core m t := by
  induction k generalizing s with
  | zero => cases h; rw [Nat.zero_add]
  | succ k ih =>
    rw [show k + 1 + m = (k + m) + 1 by omega]
    simp only [Host.Core.run, core] at h ⊢
    cases hs : step s with
    | next u => rw [hs] at h; exact ih h
    | fault r => rw [hs] at h; cases h
    | refused r => rw [hs] at h; cases h

/-- With nothing running and nothing to do the engine stays idle (R220). -/
theorem run_idle {s : State} (hr : s.running = none) (hh : s.host = []) (k : Nat) :
    Host.Core.run core k s = .next s := by
  induction k with
  | zero => rfl
  | succ k ih =>
    have h : step s = .next s := by simp only [step, hr, hh]
    simp only [Host.Core.run, core, h]
    exact ih

/-! ### The transactions of a command statement -/

/-- A read of STATUS, without a condition (R97). -/
def statusRead : HostEvent := { txn := .regRead Reg.status.index }

/-- What the host reads from STATUS while nothing runs. -/
def State.idleStatus (s : State) : HostValue := .reg (s.withHostSide none 0 [] none).statusWord.toNat

/-- A STATUS read on an idle engine changes nothing but what the host has read (R34). -/
theorem step_statusRead (s : State) (o : Nat) (h : List HostEvent) (d : Option HostValue) :
    step (s.withHostSide none o (statusRead :: h) d) = .next (s.withHostSide none o h (some s.idleStatus)) := rfl

/-- A STATUS read in the busy window changes nothing but what the host has read (R73). -/
theorem step_busyStatusRead (s : State) (i : Instr) (o : Nat) (h : List HostEvent) (d : Option HostValue) :
    ∃ d', step (s.withHostSide (some i) (o + 1) (statusRead :: h) d) = .next (s.withHostSide (some i) o h d') :=
  ⟨_, rfl⟩

theorem run_succ {s t : State} (h : step s = .next t) (k : Nat) :
    Host.Core.run core (k + 1) s = Host.Core.run core k t := by
  simp only [Host.Core.run, core, h]

theorem run_statusReads (s : State) (n o : Nat) (h : List HostEvent) (d : Option HostValue) :
    Host.Core.run core (n + 1) (s.withHostSide none o (List.replicate (n + 1) statusRead ++ h) d) =
      .next (s.withHostSide none o h (some s.idleStatus)) := by
  induction n generalizing d with
  | zero => exact run_succ (step_statusRead s o h d) 0
  | succ n ih => exact (run_succ (step_statusRead s o _ d) _).trans (ih _)

theorem run_busyStatusReads (s : State) (i : Instr) (n : Nat) (h : List HostEvent) (d : Option HostValue) :
    ∃ d', Host.Core.run core n (s.withHostSide (some i) n (List.replicate n statusRead ++ h) d) =
      .next (s.withHostSide (some i) 0 h d') := by
  induction n generalizing d with
  | zero => exact ⟨d, rfl⟩
  | succ n ih =>
    obtain ⟨d1, h1⟩ := step_busyStatusRead s i n (List.replicate n statusRead ++ h) d
    obtain ⟨d2, h2⟩ := ih d1
    exact ⟨d2, (run_succ h1 n).trans h2⟩

/-- The first transaction of a command statement. -/
def commandWrite (i : Instr) (n : Nat) (g : Option Nat) : HostEvent :=
  { txn := .regWrite Reg.cmd.index (encode i).toNat, overlap := n, ifNoError := g }

theorem commandEvents_eq (i : Instr) (n : Nat) :
    commandEvents i n = commandWrite i n none :: List.replicate (n + 1) statusRead := rfl

theorem commandEventsIfNoError_eq (i : Instr) (n : Nat) :
    commandEventsIfNoError i n = commandWrite i n (some (n + 1)) :: List.replicate (n + 1) statusRead := rfl

/-- The CMD write of a command statement that is issued: the command runs at once, or its window opens (R180). -/
theorem step_commandWrite {s : State} {i : Instr} {g : Option Nat} (hg : g = none ∨ s.err = false) (n o : Nat)
    (h : List HostEvent) (d : Option HostValue) :
    step (s.withHostSide none o (commandWrite i n g :: h) d) =
      if n = 0 then exec i (s.withHostSide none o h d) else .next (s.withHostSide (some i) n h d) := by
  have hissue : (s.withHostSide none o h d).issues (commandWrite i n g) = true := by
    rcases hg with rfl | he
    · rfl
    · simp [State.issues, State.withHostSide, he]
  have hserve : State.serve (s.withHostSide none o h d) (commandWrite i n g) =
      if n = 0 then .runs i (s.withHostSide none o h d) else .handled (s.withHostSide (some i) n h d) := by
    rw [State.serve, if_pos hissue]
    cases i <;> rfl
  have hstep : step (s.withHostSide none o (commandWrite i n g :: h) d) =
      match State.serve (s.withHostSide none o h d) (commandWrite i n g) with
      | .handled s' => .next s'
      | .runs i s' => exec i s' := rfl
  rw [hstep, hserve]
  cases n <;> rfl

/-- The CMD write of a command statement that is not issued: it and its STATUS reads are left out (R98). -/
theorem step_commandLeftOut {s : State} (he : s.err = true) (i : Instr) (n k o : Nat) (h : List HostEvent)
    (d : Option HostValue) :
    step (s.withHostSide none o (commandWrite i n (some k) :: h) d) = .next (s.withHostSide none o (h.drop k) d) := by
  have hissue : (s.withHostSide none o h d).issues (commandWrite i n (some k)) = false := by
    simp [State.issues, State.withHostSide, commandWrite, he]
  have hstep : step (s.withHostSide none o (commandWrite i n (some k) :: h) d) =
      match State.serve (s.withHostSide none o h d) (commandWrite i n (some k)) with
      | .handled s' => .next s'
      | .runs i s' => exec i s' := rfl
  rw [hstep, State.serve, hissue]
  simp only [Bool.false_eq_true, if_false, State.leaveOut, State.leftOutWith, hissue]
  rfl

/-- A command statement that is issued runs its command and then reads its STATUS, whatever number of the reads falls
into the busy window (R97, R98, R239). -/
theorem run_commandStatement {s t : State} {i : Instr} {g : Option Nat} (hg : g = none ∨ s.err = false)
    (ht : exec i s = .next t) (n o : Nat) (h : List HostEvent) (d : Option HostValue) :
    ∃ k, k ≤ n + 3 ∧
      Host.Core.run core k
          (s.withHostSide none o (commandWrite i n g :: (List.replicate (n + 1) statusRead ++ h)) d) =
        .next (t.withHostSide none 0 h (some t.idleStatus)) := by
  have hw := step_commandWrite (i := i) hg n o (List.replicate (n + 1) statusRead ++ h) d
  cases n with
  | zero =>
    refine ⟨2, by omega, ?_⟩
    rw [if_pos rfl, exec_withHostSide ht] at hw
    exact (run_succ hw 1).trans (run_statusReads t 0 0 h d)
  | succ n =>
    have hreads : List.replicate (n + 1 + 1) statusRead ++ h =
        List.replicate (n + 1) statusRead ++ (statusRead :: h) := by
      rw [List.replicate_succ', List.append_assoc]
      rfl
    refine ⟨(n + 1 + 2) + 1, by omega, ?_⟩
    rw [if_neg (Nat.succ_ne_zero n), hreads] at hw
    obtain ⟨d', hb⟩ := run_busyStatusReads s i (n + 1) (statusRead :: h) d
    have hdone : step (s.withHostSide (some i) 0 (statusRead :: h) d') =
        .next (t.withHostSide none 0 (statusRead :: h) d') :=
      (exec_withHostSide ht (some i) 0 (statusRead :: h) d')
    rw [hreads]
    exact (run_succ hw _).trans ((run_add hb 2).trans ((run_succ hdone 1).trans (run_statusReads t 0 0 h d')))

end Sys2Proof.Machine
end

