-- ==== Sys2Proof/Tests/Slice0.lean ====
section
/-! SUPPORT. The model's own tests, with expected results from spec/95_test_vectors.md (vector ids V-..) or worked by
hand from the rules, and a witness for the hypotheses of every statement. -/

namespace Sys2Proof.Tests

open Sys2Proof.Machine

/-! ### States to test on: the steps of program P1, "aaabbc" -/

/-- The elements of a space written from index 0 on. -/
def cells {α : Type} (vs : List α) : Memory α := Memory.writeSeq [] 0 vs

/-- "aaabbc" in SYM (P1 after LOADSYM). -/
def loaded : State := { State.reset with sym := cells [0x61, 0x61, 0x61, 0x62, 0x62, 0x63], symLen := 6 }

/-- P1 after COUNT (V-C3). -/
def counted : State := { loaded with ft := cells [⟨0x61, 3⟩, ⟨0x62, 2⟩, ⟨0x63, 1⟩], ftK := 3 }

/-- P1 after BUILD (V-B2). -/
def built : State :=
  { counted with
    node := cells [.leaf 0x61 3, .leaf 0x62 2, .leaf 0x63 1, .internal 3 2 1, .internal 6 0 3]
    nodeCnt := 5, root := 4, treeValid := true }

/-- P1 after GENTAB (V-G1). -/
def tabled : State := { built with ct := [(0x61, ⟨true, 1, 0⟩), (0x62, ⟨true, 2, 3⟩), (0x63, ⟨true, 2, 1⟩)] }

/-- P1 after ENCODE (V-E1), with EXP_CNT = 6. -/
def encoded : State :=
  { tabled with enc := cells [0x30, 0x30, 0x30, 0x31, 0x31, 0x31, 0x31, 0x31, 0x30], encLen := 9, expCnt := 6 }

/-- The tree of "aaaa" (V-B1). -/
def oneLeaf : State := { State.reset with node := cells [.leaf 0x61 4], nodeCnt := 1, treeValid := true }

/-- The tree of "aaabbc" with a stream and an expected count. -/
def withStream (elements : List Byte) (n : LenWord) : State :=
  { built with enc := cells elements, encLen := BitVec.ofNat elenW elements.length, expCnt := n }

/-- The next state, if there is one. -/
def after (o : Host.Outcome State Fault Refusal) : Option State :=
  match o with
  | .next t => some t
  | .fault _ => none
  | .refused _ => none

/-! ### Well-formedness: an ill-formed term for each check -/

theorem test_rsv_not_zero_refused : (CommandWord.mk 1 0).wellFormed = false := by decide

theorem test_op_seven_refused : (CommandWord.mk 0 7).wellFormed = false := by decide

theorem test_op_six_accepted : (CommandWord.mk 0 6).wellFormed = true := by decide

theorem test_long_loadsym_refused : (Statement.loadSym (List.replicate 65536 0)).wellFormed = false := by
  rw [Statement.wellFormed, List.length_replicate]
  decide

theorem test_long_loadenc_refused : (Statement.loadEnc (List.replicate 16777216 0)).wellFormed = false := by
  rw [Statement.wellFormed, List.length_replicate]
  decide

theorem test_short_loadsym_accepted : (Statement.loadSym [0x61]).wellFormed = true := by decide

theorem test_parameters_accepted : parametersOk lenW Config.digit0 Config.digit1 = true := by decide

theorem test_zero_len_w_refused : parametersOk 0 Config.digit0 Config.digit1 = false := by decide

theorem test_equal_digits_refused : parametersOk lenW 0x30 0x30 = false := by decide

/-! ### Decoding: words written out from R90 and R92 -/

theorem test_decode_nop : decode 0b00000000 = .command .nop := by decide

theorem test_decode_clear : decode 0b00000001 = .command .clear := by decide

theorem test_decode_count : decode 0b00000010 = .command .count := by decide

theorem test_decode_build : decode 0b00000011 = .command .build := by decide

theorem test_decode_gentab : decode 0b00000100 = .command .gentab := by decide

theorem test_decode_encode : decode 0b00000101 = .command .encode := by decide

theorem test_decode_decode : decode 0b00000110 = .command .decode := by decide

/-- V-K3 to V-K6: 0x07, 0x10, 0x12 and 0xFF are illegal. -/
theorem test_decode_illegal : decode 0b00000111 = .opcodeUnassigned ∧ decode 0b00010000 = .reservedBitsSet ∧
    decode 0b00010010 = .reservedBitsSet ∧ decode 0b11111111 = .reservedBitsSet := by decide

/-! ### One step of each command -/

/-- V-K1. -/
theorem test_nop_clears_record :
    (after (exec .nop { State.reset with
      err := true, errCode := .unknownSymbol, errPos := 2, errVal := 0x64, treeValid := true })).map
      (fun t => (t.err, t.errCode, t.errPos, t.errVal, t.treeValid)) = some (false, .none, 0, 0, true) := by decide

/-- V-K2: registers 0, no valid entry. -/
theorem test_clear : (after (exec .clear encoded)).map (fun t => (t.readReg .status, t.readReg .symLen, t.ct)) =
    some (0, 0, []) := by decide

/-- V-C3. -/
theorem test_count_aaabbc : (after (exec .count loaded)).map (fun t => (t.ft, t.ftK)) =
    some (counted.ft, 3) := by decide

/-- V-C6: bytes 00 FF 00. -/
theorem test_count_zero_symbol :
    (after (exec .count { State.reset with sym := cells [0x00, 0xFF, 0x00], symLen := 3 })).map (fun t => t.ft) =
      some [(0, ⟨0x00, 2⟩), (1, ⟨0xFF, 1⟩)] := by decide

/-- V-B2: leaf a (3, index 0) beats the Internal node (3, index 3). -/
theorem test_build_aaabbc : (after (exec .build counted)).map (fun t => (t.node, t.nodeCnt, t.root, t.treeValid)) =
    some (built.node, 5, 4, true) := by decide

/-- V-B6: the older Internal node wins the tie of pass 3. -/
theorem test_build_abcde :
    (after (exec .build { State.reset with
      ft := cells [⟨0x61, 1⟩, ⟨0x62, 1⟩, ⟨0x63, 1⟩, ⟨0x64, 1⟩, ⟨0x65, 1⟩], ftK := 5 })).map
      (fun t => t.node.drop 5) =
      some [(5, .internal 2 0 1), (6, .internal 2 2 3), (7, .internal 3 4 5), (8, .internal 5 6 7)] := by decide

/-- V-G1: a = 0, c = 10, b = 11. -/
theorem test_gentab_aaabbc : (after (exec .gentab built)).map (fun t => t.ct) = some tabled.ct := by decide

/-- V-G2: the empty code, valid. -/
theorem test_gentab_leaf_root : (after (exec .gentab oneLeaf)).map (fun t => t.ct) =
    some [(0x61, ⟨true, 0, 0⟩)] := by decide

/-- V-E1. -/
theorem test_encode_aaabbc : (after (exec .encode tabled)).map (fun t => (t.enc, t.encLen)) =
    some (encoded.enc, 9) := by decide

/-- V-E15: "abd". -/
theorem test_encode_unknown :
    (after (exec .encode { tabled with sym := cells [0x61, 0x62, 0x64], symLen := 3 })).map
      (fun t => (t.errCode.toBits, t.errPos, t.errVal, t.encLen)) = some (2, 2, 0x64, 0) := by decide

/-- V-D1. -/
theorem test_decode_aaabbc : (after (exec .decode encoded)).map (fun t => (t.dec, t.decLen, t.decPos, t.trailing)) =
    some (loaded.sym, 6, 9, false) := by decide

/-- V-D10: "0x0" with EXP_CNT = 3. -/
theorem test_decode_malformed : (after (exec .decode (withStream [0x30, 0x78, 0x30] 3))).map
    (fun t => (t.errCode.toBits, t.errPos, t.errVal, t.dec)) = some (4, 1, 0x78, []) := by decide

/-! ### The host's side -/

/-- V-K12: SYM_LEN takes the low 16 bits. -/
theorem test_write_symlen : (State.reset.writeReg .symLen 0x12345).symLen = 0x2345 := by decide

/-- V-K8: GENTAB as the first command after reset ends in NoTreeError. -/
theorem test_step_gentab_at_reset : (after (step (State.reset.withFetchWord 8 0x04))).map (fun t => t.errCode.toBits) =
    some 5 := by decide

/-- V-K5: 0x12 is not a COUNT. -/
theorem test_step_illegal_word : (after (step (State.reset.withFetchWord 8 0x12))).map
    (fun t => (t.errCode.toBits, t.errVal, t.statusWord)) = some (6, 0x12, 0x02) := by decide

/-- R73: in the busy window a STATUS read shows BUSY, and a write is ignored. -/
theorem test_busy_window :
    (after (step { built with running := some .nop, overlap := 1, host := [{ txn := .regRead 1 }] })).map
      (fun t => t.readData) = some (some (.reg 0x05)) := by decide

/-- R98: LOADSYM "ab" as transactions. -/
theorem test_loadsym_expansion : expansion (.loadSym [0x61, 0x62]) =
    [{ txn := .spaceWrite 0 0 0x61 }, { txn := .spaceWrite 0 1 0x62 }, { txn := .regWrite 5 2 }] := by decide

/-- R12: with DIGIT0 = 0x00 and DIGIT1 = 0x01 ENCODE writes these elements, and DECODE takes 0x30 for malformed. -/
theorem test_other_digits :
    (after (exec .encode { tabled with params := ⟨0x00, 0x01, by decide⟩ })).map (fun t => t.enc) =
        some (cells [0x00, 0x00, 0x00, 0x01, 0x01, 0x01, 0x01, 0x01, 0x00]) ∧
      (after (exec .decode { encoded with params := ⟨0x00, 0x01, by decide⟩ })).map
        (fun t => (t.errCode.toBits, t.errVal)) = some (4, 0x30) := by decide

/-- R97, R73: with a window of one transaction `RD STATUS` after `WR CMD, 2` shows BUSY = 1, with none BUSY = 0. -/
theorem test_write_cmd_window :
    (after (Host.Core.run Sys2Proof.core 2 (loaded.withScript [.wr .cmd 2 1, .rd .status]))).map
        (fun t => t.readData) = some (some (.reg 1)) ∧
      (after (Host.Core.run Sys2Proof.core 2 (loaded.withScript [.wr .cmd 2 0, .rd .status]))).map
        (fun t => t.readData) = some (some (.reg 0)) := by decide

/-- R98: COMPRESS of the empty input ends with BUILD's STATUS read: BUSY = 0, ERR = 1. -/
theorem test_compress_empty_input :
    (after (Host.Core.run Sys2Proof.core 9 (State.reset.withScript [.compress 1 0 0 0]))).map
      (fun t => (t.readData, t.host.length, t.errCode, t.ct)) = some (some (.reg 2), 0, .emptyInput, []) := by decide

/-! ### Witnesses: a concrete state that meets a statement's hypotheses together, named after the statement -/

theorem witness_ResetCodeTableIsEmpty :
    ({ loaded with ct := [] } : State).ct = State.reset.ct ∧
      ({ loaded with ct := [] } : State).symbols = 0x61 :: [0x61, 0x61, 0x62, 0x62, 0x63] := by decide

theorem witness_DecodingFollowsTheOpcodeMap :
    (0x10 : Byte).toNat / 16 ≠ 0 ∧ (0xFF : Byte).toNat / 16 ≠ 0 ∧
      ((0x07 : Byte).toNat / 16 = 0 ∧ 7 ≤ (0x07 : Byte).toNat) ∧
      ((0x0F : Byte).toNat / 16 = 0 ∧ 7 ≤ (0x0F : Byte).toNat) := by decide

theorem witness_DecodeAndEncodeAgree : Instr.decode.wellFormed = true := by decide

/-- An idle engine whose host's next transaction is the given one. -/
def idleWith (e : HostEvent) : State := { State.reset with host := [e] }

theorem witness_StepRunsTheDecodedCommand :
    ((idleWith ⟨.regWrite 0 6, 0, some 1⟩).running = none ∧
      (idleWith ⟨.regWrite 0 6, 0, some 1⟩).host = ⟨.regWrite 0 6, 0, some 1⟩ :: [] ∧
      (some 1 = (none : Option Nat) ∨ (idleWith ⟨.regWrite 0 6, 0, some 1⟩).err = false) ∧ decode (BitVec.ofNat 8 6) = .command .decode) ∧
    ((idleWith ⟨.regWrite 0 0, 1, none⟩).running = none ∧
      (idleWith ⟨.regWrite 0 0, 1, none⟩).host = ⟨.regWrite 0 0, 0 + 1, none⟩ :: [] ∧
      decode (BitVec.ofNat 8 0) = .command .nop) ∧
    (({ State.reset with running := some .nop } : State).running = some .nop ∧ State.reset.overlap = 0) ∧
    decodeTableWord 8 6 = some .decode := by decide

theorem witness_IllegalWordChangesOnlyTheRecord :
    (idleWith ⟨.regWrite 0 7, 2, none⟩).running = none ∧
      (idleWith ⟨.regWrite 0 7, 2, none⟩).host = ⟨.regWrite 0 7, 2, none⟩ :: [] ∧
      ∀ i, decode (BitVec.ofNat 8 7) ≠ .command i := by
  refine ⟨rfl, rfl, fun i => ?_⟩
  rw [show decode (BitVec.ofNat 8 7) = .opcodeUnassigned by decide]
  exact nofun

theorem witness_FlagsAreWrittenOnlyByTheirCommands :
    (∃ t, exec .nop built = .next t ∧ Instr.nop ≠ .build ∧ Instr.nop ≠ .clear ∧ Instr.nop ≠ .decode) ∧
      ∃ t, exec .clear built = .next t := ⟨⟨_, rfl, nofun, nofun, nofun⟩, _, rfl⟩

theorem witness_EveryCommandLeavesAZeroRecordOrACode : ∃ t, exec .decode State.reset = .next t := ⟨_, rfl⟩

/-- Each error of R200 that a command raises is met. -/
theorem witness_ErrorsComeOnlyFromTheirCommands :
    (after (exec .build State.reset)).map (fun t => t.errCode) = some .emptyInput ∧
      (after (exec .encode loaded)).map (fun t => t.errCode) = some .unknownSymbol ∧
      (after (exec .decode (withStream [0x31] 1))).map (fun t => t.errCode) = some .truncatedStream ∧
      (after (exec .decode (withStream [0x01] 1))).map (fun t => t.errCode) = some .malformedStream ∧
      (after (exec .gentab State.reset)).map (fun t => t.errCode) = some .noTree := by decide

/-- Every command that can fail does, from a state of its own. -/
theorem witness_FailedCommandsLeaveNoPartialResult :
    (after (exec .build tabled.dropTree)).isSome = true ∧
      (after (exec .build { tabled with ftK := 0 })).map (fun t => t.err) = some true ∧
      (after (exec .gentab { tabled with treeValid := false })).map (fun t => t.err) = some true ∧
      (after (exec .encode { tabled with ct := [] })).map (fun t => t.err) = some true ∧
      (after (exec .decode (withStream [] 1))).map (fun t => t.err) = some true ∧
      (after (step (idleWith ⟨.regWrite 0 7, 0, none⟩))).map (fun t => t.errVal) = some 7 := by decide

theorem witness_FailedCommandFailsAgain :
    (withStream [0x31] 1).inputWritten = true ∧ (withStream [0x31] 1).streamWritten = true ∧
      (withStream [0x31] 1).treeOk = true ∧
      (after (exec .decode (withStream [0x31] 1))).map (fun t => t.err) = some true := by decide

theorem witness_CountTouchesOnlyTheTable :
    (∃ t, exec .count loaded = .next t) ∧ (∃ t, exec .count State.reset = .next t) ∧ State.reset.symLen = 0 :=
  ⟨⟨_, rfl⟩, ⟨_, rfl⟩, rfl⟩

theorem witness_BuildOfEmptyTableFails : ({ built with ftK := 0 } : State).ftK = 0 := rfl

/-- The boundaries 1 and 256 of the table's size, and one between. -/
theorem witness_BuildPlacesLeavesThenInternalNodes :
    (1 ≤ counted.ftK.toNat ∧ counted.ftK.toNat ≤ 256) ∧
      (1 ≤ (1 : NodeIndex).toNat ∧ (256 : NodeIndex).toNat ≤ 256) := by decide

theorem witness_BuildMergesTheFirstTwoMembers :
    1 ≤ counted.ftK.toNat ∧ counted.ftK.toNat ≤ 256 ∧ counted.ftK.toNat ≤ 3 ∧ 3 < 2 * counted.ftK.toNat - 1 := by
  decide

theorem witness_BuildTouchesOnlyTheTree :
    counted.ftK.toNat ≤ 256 ∧ counted.tableOk = true ∧
      ∃ t u, exec .build counted = .next t ∧ exec .build t = .next u := ⟨by decide, by decide, _, _, rfl, rfl⟩

theorem witness_GentabWithoutTreeFails : counted.treeValid = false := rfl

theorem witness_GentabBindsEachLeafToItsPath : built.treeValid = true ∧ built.treeOk = true := by decide

theorem witness_GentabGivesALeafRootTheEmptyCode :
    oneLeaf.treeValid = true ∧ oneLeaf.nodeAt oneLeaf.root.toNat = .leaf 0x61 4 := by decide

theorem witness_GentabTouchesOnlyTheCodeTable : (after (exec .gentab built)).isSome = true := by decide

theorem witness_CodesAreShorterThanTheLeafCount :
    built.treeValid = true ∧ built.treeOk = true ∧ (after (exec .gentab built)).isSome = true := by decide

theorem witness_CodesArePrefixFree :
    built.treeValid = true ∧ built.treeOk = true ∧
      (after (exec .gentab built)).map (fun t => ((t.codeOf 0x61).valid, (t.codeOf 0x62).valid)) =
        some (true, true) := by decide

theorem witness_EncodeConcatenatesTheCodes : ∀ x ∈ tabled.symbols, (tabled.codeOf x).valid = true := by decide

theorem witness_EncodeStopsAtTheFirstUnknownSymbol :
    ({ tabled with ct := [(0x61, ⟨true, 1, 0⟩)] } : State).symbols[3]? = some 0x62 ∧
      (State.codeOf { tabled with ct := [(0x61, ⟨true, 1, 0⟩)] } 0x62).valid = false ∧
      ∀ y ∈ ({ tabled with ct := [(0x61, ⟨true, 1, 0⟩)] } : State).symbols.take 3,
        (State.codeOf { tabled with ct := [(0x61, ⟨true, 1, 0⟩)] } y).valid = true := by decide

theorem witness_EncodeOfNothingIsEmpty : State.reset.symLen = 0 := rfl

theorem witness_EncodeTouchesOnlyTheStream :
    tabled.inputWritten = true ∧ (after (exec .encode tabled)).isSome = true ∧
      ((after (exec .encode tabled)).bind (fun t => after (exec .encode t))).isSome = true := by decide

theorem witness_DecodeWithoutTreeFails : State.reset.treeValid = false := rfl

theorem witness_DecodeCopiesALeafRoot :
    oneLeaf.treeValid = true ∧ oneLeaf.nodeAt oneLeaf.root.toNat = .leaf 0x61 4 := by decide

/-- V-D11: "0x0" with EXP_CNT = 1. -/
theorem witness_DecodeEmitsTheSymbolsOfItsPaths :
    (withStream [0x30, 0x78, 0x30] 1).treeValid = true ∧ staysInside (withStream [0x30, 0x78, 0x30] 1) 4 [] = true ∧
      leadsToAll (withStream [0x30, 0x78, 0x30] 1) [(0x61, [false])] = true ∧
      ([(0x61, [false])] : List (Byte × List Bool)).length = (withStream [0x30, 0x78, 0x30] 1).expCnt.toNat ∧
      (withStream [0x30, 0x78, 0x30] 1).stream = streamOf Parameters.default [(0x61, [false])] ++ [0x78, 0x30] := by decide

/-- V-D7: mid-path after three symbols. -/
theorem witness_DecodeReportsATruncatedStream :
    (withStream [0x30, 0x30, 0x30, 0x31] 4).treeValid = true ∧
      leadsToAll (withStream [0x30, 0x30, 0x30, 0x31] 4) (List.replicate 3 (0x61, [false])) = true ∧
      (List.replicate 3 ((0x61 : Byte), [false])).length < (withStream [0x30, 0x30, 0x30, 0x31] 4).expCnt.toNat ∧
      staysInside (withStream [0x30, 0x30, 0x30, 0x31] 4) 4 [true] = true ∧
      (withStream [0x30, 0x30, 0x30, 0x31] 4).stream =
        streamOf Parameters.default (List.replicate 3 (0x61, [false])) ++ [true].map (digitElement Parameters.default) := by decide

/-- V-D11 for the first clause, V-D10 for the second. -/
theorem witness_DecodeReportsAMalformedElement :
    ((withStream [0x30, 0x78, 0x30] 1).treeValid = true ∧
      leadsToAll (withStream [0x30, 0x78, 0x30] 1) [(0x61, [false])] = true ∧
      ([(0x61, [false])] : List (Byte × List Bool)).length = (withStream [0x30, 0x78, 0x30] 1).expCnt.toNat ∧
      staysInside (withStream [0x30, 0x78, 0x30] 1) 4 [] = true ∧
      (withStream [0x30, 0x78, 0x30] 1).stream = streamOf Parameters.default [(0x61, [false])] ++ 0x78 :: [0x30]) ∧
    ((withStream [0x30, 0x78, 0x30] 3).treeValid = true ∧
      leadsToAll (withStream [0x30, 0x78, 0x30] 3) [(0x61, [false])] = true ∧
      ([(0x61, [false])] : List (Byte × List Bool)).length < (withStream [0x30, 0x78, 0x30] 3).expCnt.toNat ∧
      staysInside (withStream [0x30, 0x78, 0x30] 3) 4 [] = true ∧
      (withStream [0x30, 0x78, 0x30] 3).stream =
        streamOf Parameters.default [(0x61, [false])] ++ ([] : List Bool).map (digitElement Parameters.default) ++ 0x78 :: [0x30]) ∧
    (0x78 : Byte) ≠ built.params.digit0 ∧ (0x78 : Byte) ≠ built.params.digit1 := by decide

theorem witness_DecodeOfNothingIsEmpty : built.treeValid = true ∧ built.expCnt = 0 := by decide

theorem witness_DecodeTouchesOnlyTheDecodedSequence :
    (encoded.treeOk = true ∧ encoded.streamWritten = true ∧
      ((after (exec .decode encoded)).bind (fun t => after (exec .decode t))).isSome = true) ∧
    (after (exec .decode (withStream [0x31] 1))).map (fun t => t.err) = some true := by decide

/-- An index for each clause, the boundaries of the reserved range among them. -/
theorem witness_HostRegisterAccess :
    (∀ k ∈ [5, 9, 10, 1, 13], (idleWith ⟨.regWrite k 0x12345, 0, none⟩).running = none ∧ k ≠ 0 ∧
      (idleWith ⟨.regWrite k 0x12345, 0, none⟩).host = ⟨.regWrite k 0x12345, 0, none⟩ :: []) ∧
    (∀ k ∈ [0, 1, 2, 3, 4, 5, 6, 7, 8, 9, 10, 11, 12, 13], (idleWith ⟨.regRead k, 0, none⟩).running = none ∧
      (idleWith ⟨.regRead k, 0, none⟩).host = ⟨.regRead k, 0, none⟩ :: []) := by decide

/-- The last index of each writable space, the first outside one, and an element written in each space. -/
theorem witness_HostSpaceAccess :
    (idleWith ⟨.spaceWrite 0 65534 0x61, 0, none⟩).running = none ∧
      (idleWith ⟨.spaceWrite 4 16777214 0x30, 0, none⟩).host = ⟨.spaceWrite 4 16777214 0x30, 0, none⟩ :: [] ∧
      (idleWith ⟨.spaceWrite 0 65535 0x61, 0, none⟩).host = ⟨.spaceWrite 0 65535 0x61, 0, none⟩ :: [] ∧
      encoded.sym.read? 0 = some 0x61 ∧ encoded.ft.read? 0 = some ⟨0x61, 3⟩ ∧
      encoded.node.read? 0 = some (.leaf 0x61 3) ∧ encoded.node.read? 4 = some (.internal 6 0 3) ∧
      encoded.enc.read? 8 = some 0x30 ∧ ({ encoded with dec := cells [0x61] } : State).dec.read? 0 = some 0x61 := by
  decide

theorem witness_BusyWindowRefusesTransactions :
    ({ built with running := some .build, overlap := 1, host := [⟨.regRead 1, 0, none⟩] } : State).overlap = 0 + 1 ∧
      (HostEvent.mk (.regRead 1) 0 none).txn ≠ .reset := by decide

theorem witness_BusyWindowChangesNoResult :
    ({ built with running := some .build, overlap := 2
                  host := [⟨.regRead 1, 0, none⟩, ⟨.regWrite 0 2, 0, none⟩] } : State).overlap = 2 ∧
      ∀ e ∈ [HostEvent.mk (.regRead 1) 0 none, ⟨.regWrite 0 2, 0, none⟩], harmless e = true ∧ built.leftOutWith e = 0 := by decide

theorem witness_ResetInputAbortsAnyCommand :
    (idleWith ⟨.reset, 0, none⟩).running = none ∧
      ({ built with running := some .count, overlap := 1, host := [⟨.reset, 0, none⟩] } : State).overlap = 0 + 1 ∧
      ({ built with running := some .count, overlap := 1, host := [⟨.reset, 0, none⟩] } : State).host =
        ⟨.reset, 0, none⟩ :: [] := by decide

theorem witness_LoadSymMakesTheInputSequence :
    built.running = none ∧ built.host = [] ∧ (List.replicate 65535 (0x61 : Byte)).length ≤ 65535 :=
  ⟨rfl, rfl, by rw [List.length_replicate]⟩

/-- The empty input for the first clause, P1 for the second. -/
theorem witness_CompressIssuesItsCommandsUntilOneFails :
    (State.reset.running = none ∧ State.reset.host = [] ∧
      ((after (exec .count State.reset)).bind (fun t => after (exec .build t))).map (fun t => t.err) = some true) ∧
    (loaded.running = none ∧ loaded.host = [] ∧
      ((after (exec .count loaded)).bind (fun t => after (exec .build t))).map (fun t => t.err) = some false ∧
      (((((after (exec .count loaded)).bind (fun t => after (exec .build t))).bind
        (fun t => after (exec .gentab t))).bind (fun t => after (exec .encode t)))).isSome = true) := by decide

theorem witness_ExpandDecodesWithTheGivenCount :
    encoded.running = none ∧ encoded.host = [] ∧
      (after (exec .decode { encoded with expCnt := BitVec.ofNat 16 (6 % 2 ^ 16) })).isSome = true := by decide

/-- A CMD write and the reset input, on a machine with other parameters than the default. -/
theorem witness_StepKeepsTheParameters :
    (after (step { built with params := ⟨0x00, 0x01, by decide⟩, host := [⟨.reset, 0, none⟩] })).isSome = true ∧
      (after (step (State.withFetchWord { built with params := ⟨0x00, 0x01, by decide⟩ } 8 4))).isSome = true := by
  decide

/-- A state after the whole of P1 meets every invariant, so the invariants' statements are not about reset alone. -/
theorem witness_EveryStepCompletesAndKeepsTheInvariants :
    encoded.memoryOk = true ∧ encoded.recordOk = true ∧ encoded.tableOk = true ∧ encoded.treeOk = true ∧
      encoded.codesOk = true ∧ encoded.Inv :=
  ⟨by decide, by decide, by decide, by decide, by decide, by decide, by decide, by decide, by decide, by decide⟩

/-- The hypotheses of the five StepKeeps statements, on a step that runs the command each is about. -/
theorem witness_StepKeeps :
    (loaded.memoryOk && loaded.recordOk && loaded.tableOk) = true ∧
      (after (step (loaded.withFetchWord 8 2))).isSome = true ∧
      (counted.tableOk && counted.treeOk) = true ∧ (after (step (counted.withFetchWord 8 3))).isSome = true ∧
      (built.treeOk && built.codesOk) = true ∧ (after (step (built.withFetchWord 8 4))).isSome = true := by decide

theorem witness_FrequencyIsConserved : loaded.symLen ≠ 0 := by decide

theorem witness_BuiltTreeIsOrdered : counted.tableOk = true ∧ counted.ftK ≠ 0 := by decide

theorem witness_RarerSymbolsHaveLongerCodes :
    ((((after (exec .count loaded)).bind (fun t => after (exec .build t))).bind
      (fun t => after (exec .gentab t)))).isSome = true ∧
      (0x63 : Byte) ∈ loaded.symbols ∧ loaded.symbols.count 0x63 < loaded.symbols.count 0x61 := by decide

theorem witness_EncodedLengthIsTheWeightedSum :
    loaded.inputWritten = true ∧ loaded.symLen ≠ 0 ∧
      (((((after (exec .count loaded)).bind (fun t => after (exec .build t))).bind
        (fun t => after (exec .gentab t))).bind (fun t => after (exec .encode t)))).isSome = true := by decide

theorem witness_PipelineRoundTrip : loaded.inputWritten = true ∧ loaded.symLen ≠ 0 := by decide

theorem witness_RoundTripUnderReuse :
    built.treeValid = true ∧ built.treeOk = true ∧
      (after (exec .gentab built)).map (fun t =>
        (State.inputWritten { t with sym := cells [0x63, 0x61, 0x62], symLen := 3 },
          (State.symbols { t with sym := cells [0x63, 0x61, 0x62], symLen := 3 }).all
            (fun x => (t.codeOf x).valid))) = some (true, true) := by decide

end Sys2Proof.Tests
end

section
/-! The host's transactions on an idle engine, one rule for each, and what reset leaves: the statements on spaces,
registers and reset (spec/10_state.md). -/

namespace Sys2Proof

/-! ### Register indices and space ids (R34, R45, R68) -/

@[simp] theorem Reg.ofIndex_index (r : Reg) : Reg.ofIndex r.index = some r := by
  cases r <;> rfl

theorem Reg.index_of_ofIndex {k : Nat} {r : Reg} (h : Reg.ofIndex k = some r) : r.index = k := by
  unfold Reg.ofIndex at h
  split at h <;> cases h <;> rfl

theorem Reg.ofIndex_of_reserved {k : Nat} (h : 0x0D ≤ k) : Reg.ofIndex k = none := by
  obtain ⟨m, rfl⟩ := Nat.exists_eq_add_of_le' h
  rfl

@[simp] theorem Space.ofId_id (sp : Space) : Space.ofId sp.id = some sp := by
  cases sp <;> rfl

theorem Space.id_of_ofId {k : Nat} {sp : Space} (h : Space.ofId k = some sp) : sp.id = k := by
  unfold Space.ofId at h
  split at h <;> cases h <;> rfl

namespace Machine

/-! ### Steps of an idle engine (R72) -/

theorem step_of_serve_handled {s t : State} {e : HostEvent} {rest : List HostEvent} (hr : s.running = none)
    (hh : s.host = e :: rest) (hs : State.serve { s with host := rest } e = .handled t) : step s = .next t := by
  unfold step
  split
  · rename_i i hi
    rw [hr] at hi
    cases hi
  · rw [hh]
    simp only [hs]

theorem step_regRead {s : State} {k n : Nat} {rest : List HostEvent} (hr : s.running = none)
    (hh : s.host = ⟨.regRead k, n, none⟩ :: rest) : step s = .next (State.regRead { s with host := rest } k) :=
  step_of_serve_handled hr hh rfl

/-- A write to CMD is left to `State.startCommand`. -/
theorem step_regWrite {s : State} {k v n : Nat} {rest : List HostEvent} (hr : s.running = none)
    (hk : k ≠ Reg.cmd.index) (hh : s.host = ⟨.regWrite k v, n, none⟩ :: rest) :
    step s = .next (State.regWrite { s with host := rest } k v) :=
  step_of_serve_handled hr hh (by simp [State.serve, State.issues, hk])

theorem step_spaceRead {s : State} {id i n : Nat} {rest : List HostEvent} (hr : s.running = none)
    (hh : s.host = ⟨.spaceRead id i, n, none⟩ :: rest) :
    step s = .next (State.spaceRead { s with host := rest } id i) :=
  step_of_serve_handled hr hh rfl

theorem step_spaceWrite {s : State} {id i n : Nat} {v : Byte} {rest : List HostEvent} (hr : s.running = none)
    (hh : s.host = ⟨.spaceWrite id i v, n, none⟩ :: rest) :
    step s = .next (State.spaceWrite { s with host := rest } id i v) :=
  step_of_serve_handled hr hh rfl

/-! ### Host writes to spaces (R44, R45) -/

theorem State.spaceWrite_of_lt (s : State) (sp : Space) {i : Nat} (v : Byte) (hi : i < sp.size) :
    s.spaceWrite sp.id i v = s.writeElement sp i v := by
  simp [State.spaceWrite, hi]

/-- A host write to anything but an element of SYM or ENC is ignored. -/
theorem State.spaceWrite_ignored (s : State) {id i : Nat} (v : Byte)
    (hsym : ¬ (id = Space.sym.id ∧ i < Space.sym.size)) (henc : ¬ (id = Space.enc.id ∧ i < Space.enc.size)) :
    s.spaceWrite id i v = s := by
  unfold State.spaceWrite
  split
  · rename_i sp hsp
    obtain rfl := Space.id_of_ofId hsp
    split
    · rename_i hi
      cases sp with
      | sym => exact absurd ⟨rfl, hi⟩ hsym
      | enc => exact absurd ⟨rfl, hi⟩ henc
      | ft => rfl
      | node => rfl
      | ct => rfl
      | dec => rfl
    · rfl
  · rfl

theorem step_spaceWrite_of_lt {s : State} {sp : Space} {i n : Nat} {v : Byte} {rest : List HostEvent}
    (hr : s.running = none) (hi : i < sp.size) (hh : s.host = ⟨.spaceWrite sp.id i v, n, none⟩ :: rest) :
    step s = .next (State.writeElement { s with host := rest } sp i v) := by
  rw [step_spaceWrite hr hh, State.spaceWrite_of_lt _ sp v hi]

/-! ### Host reads of spaces (R44, R45) -/

/-- The value that a host read of a space returns on an idle engine. -/
def State.spaceValue (s : State) (id i : Nat) : HostValue :=
  match Space.ofId id with
  | some sp => if i < sp.size then s.element sp i else Config.refusedRead s.epoch
  | none => Config.refusedRead s.epoch

theorem State.spaceRead_eq (s : State) (id i : Nat) : s.spaceRead id i = s.answerAndAdvance (s.spaceValue id i) := by
  unfold State.spaceRead State.spaceValue
  cases Space.ofId id with
  | none => rfl
  | some sp => exact (apply_ite s.answerAndAdvance _ _ _).symm

theorem State.spaceValue_of_lt (s : State) (sp : Space) {i : Nat} (hi : i < sp.size) :
    s.spaceValue sp.id i = s.element sp i := by
  simp [State.spaceValue, hi]

theorem State.decAt_of_written {s : State} {i : Nat} {b : Byte} (h : s.dec.read? i = some b) : s.decAt i = b := by
  simp [State.decAt, h]

/-- The host reads a written node as its record (R40). -/
theorem State.element_node_of_written {s : State} {i : Nat} {n : Node} (h : s.node.read? i = some n) :
    s.element .node i = .node n.record := by
  simp [State.element, h]

/-- Settles O39: a write is SYM's, ENC's or ignored, and a read inside a space returns the element. -/
theorem hostSpaceAccess : Obligations.HostSpaceAccess := by
  refine ⟨fun s id i n v rest hr hh => ?_, fun s id i n rest hr hh => ?_⟩
  · by_cases hsym : id = 0 ∧ i < 65535
    · obtain ⟨rfl, hi⟩ := hsym
      exact ⟨_, step_spaceWrite_of_lt (sp := .sym) hr hi hh, rfl,
        fun _ => ⟨Memory.read?_write_same .., rfl, fun _ hj => Memory.read?_write_of_ne _ v hj⟩,
        fun h => absurd h.1 (by decide), fun h => absurd ⟨rfl, hi⟩ h⟩
    · by_cases henc : id = 4 ∧ i < 16777215
      · obtain ⟨rfl, hi⟩ := henc
        exact ⟨_, step_spaceWrite_of_lt (sp := .enc) hr hi hh, rfl, fun h => absurd h.1 (by decide),
          fun _ => ⟨Memory.read?_write_same .., rfl, fun _ hj => Memory.read?_write_of_ne _ v hj⟩,
          fun _ h => absurd ⟨rfl, hi⟩ h⟩
      · have hstep := step_spaceWrite hr hh
        rw [State.spaceWrite_ignored _ v hsym henc] at hstep
        exact ⟨_, hstep, rfl, fun h => absurd h hsym, fun h => absurd h henc, fun _ _ => ⟨rfl, rfl⟩⟩
  · have hstep := step_spaceRead hr hh
    rw [State.spaceRead_eq] at hstep
    refine ⟨s.spaceValue id i, hstep, ?_, ?_, ?_, ?_, ?_, ?_, ?_⟩
    · rintro b rfl hi hb
      exact (s.spaceValue_of_lt .sym hi).trans (congrArg _ (State.symAt_of_written hb))
    · rintro e rfl hi he
      exact (s.spaceValue_of_lt .ft hi).trans (congrArg _ (State.ftAt_of_written he))
    · rintro x f rfl hi hn
      exact (s.spaceValue_of_lt .node hi).trans (State.element_node_of_written hn)
    · rintro f l r rfl hi hn
      exact (s.spaceValue_of_lt .node hi).trans (State.element_node_of_written hn)
    · rintro rfl hi
      exact s.spaceValue_of_lt .ct hi
    · rintro b rfl hi hb
      exact (s.spaceValue_of_lt .enc hi).trans (congrArg _ (State.encAt_of_written hb))
    · rintro b rfl hi hb
      exact (s.spaceValue_of_lt .dec hi).trans (congrArg _ (State.decAt_of_written hb))

/-! ### Registers (R34, R35) -/

/-- What a host write comes to, by the index: three registers can be written, and every other write is ignored. -/
theorem State.regWrite_eq (s : State) (k v : Nat) :
    s.regWrite k v =
      if k = Reg.symLen.index then { s with symLen := BitVec.ofNat lenW v }
      else if k = Reg.encLen.index then { s with encLen := BitVec.ofNat elenW v }
      else if k = Reg.expCnt.index then { s with expCnt := BitVec.ofNat lenW v }
      else s := by
  cases hk : Reg.ofIndex k with
  | some r =>
    obtain rfl := Reg.index_of_ofIndex hk
    rw [State.regWrite, hk]
    cases r <;> rfl
  | none =>
    have hne : ∀ r : Reg, k ≠ r.index := by
      rintro r rfl
      rw [Reg.ofIndex_index] at hk
      cases hk
    rw [State.regWrite, hk, if_neg (hne _), if_neg (hne _), if_neg (hne _)]

/-- The value that a host read of a register index returns. -/
def State.regValue (s : State) (k : Nat) : Nat :=
  match Reg.ofIndex k with
  | some r => s.readReg r
  | none => 0

theorem State.regRead_eq (s : State) (k : Nat) : s.regRead k = s.answer (.reg (s.regValue k)) := by
  unfold State.regRead State.regValue
  cases Reg.ofIndex k <;> rfl

theorem State.regValue_index (s : State) (r : Reg) : s.regValue r.index = s.readReg r := by
  simp [State.regValue]

theorem State.regValue_of_reserved (s : State) {k : Nat} (h : 0x0D ≤ k) : s.regValue k = 0 := by
  simp [State.regValue, Reg.ofIndex_of_reserved h]

/-- STATUS on an idle engine: BUSY and bits 7:4 are 0 (R22). -/
theorem State.statusWord_of_idle {s : State} (h : s.running = none) :
    s.statusWord.toNat =
      (if s.err then 2 else 0) + (if s.treeValid then 4 else 0) + (if s.trailing then 8 else 0) := by
  rw [State.statusWord, State.busy, h]
  cases s.err <;> cases s.treeValid <;> cases s.trailing <;> rfl

/-- A register of width `w` takes a written number modulo `2 ^ w` (R35). -/
theorem ofNat_mod_two_pow (w v : Nat) : BitVec.ofNat w (v % 2 ^ w) = BitVec.ofNat w v :=
  BitVec.eq_of_toNat_eq (by simp)

/-- Settles O38, by the index: a register's own value, or 0 at a reserved index. -/
theorem hostRegisterAccess : Obligations.HostRegisterAccess := by
  refine ⟨fun s k v n rest hr hk hh => ?_, fun s k n rest hr hh => ?_⟩
  · rw [step_regWrite hr hk hh, State.regWrite_eq, ofNat_mod_two_pow, ofNat_mod_two_pow]
    rfl
  · have hstep := step_regRead hr hh
    rw [State.regRead_eq] at hstep
    have hreg : ∀ r : Reg, k = r.index → s.regValue k = s.readReg r := by
      rintro r rfl
      exact s.regValue_index r
    exact ⟨s.regValue k, hstep, hreg .cmd, fun h => (hreg .status h).trans (State.statusWord_of_idle hr),
      hreg .errcode, hreg .errPos, hreg .errVal, hreg .symLen, hreg .ftK, hreg .nodeCnt, hreg .root, hreg .encLen,
      hreg .expCnt, hreg .decLen, hreg .decPos, s.regValue_of_reserved⟩

/-! ### Reset (R51, R53) -/

theorem reset_readReg (r : Reg) : State.reset.readReg r = 0 := by
  cases r <;> rfl

theorem reset_codeOf (x : Byte) : State.reset.codeOf x = CtEntry.invalid := readCode_invalidTable x

/-- Settles O1: an object is empty because its length register is 0. -/
theorem resetHoldsZeroInEveryRegister : Obligations.ResetHoldsZeroInEveryRegister :=
  ⟨reset_readReg, rfl, rfl, rfl, rfl, rfl,
    List.eq_nil_of_length_eq_zero (State.length_table _), List.eq_nil_of_length_eq_zero (State.length_stream _),
    List.eq_nil_of_length_eq_zero (State.length_decoded _), List.eq_nil_of_length_eq_zero (State.length_symbols _),
    List.eq_nil_of_length_eq_zero (State.length_nodes _), reset_codeOf⟩

/-- ENCODE's loop ends at a symbol without a valid entry (R152). -/
theorem encodeFrom_cons_of_invalid {ct : Memory CtEntry} {x : Byte} (p : Parameters) (i : Nat) (rest : List Byte)
    (h : (readCode ct x).valid = false) : encodeFrom p ct i (x :: rest) = .failed ⟨.unknownSymbol, i, x⟩ := by
  simp [encodeFrom, h]

theorem exec_encode_of_failed {s : State} {e : Raised} (h : encodeFrom s.params s.ct 0 s.symbols = .failed e) :
    exec .encode s = .next (s.dropStream.raise e.code e.pos e.val) := by
  simp only [exec, execEncode, h]

/-- What `raise` leaves is the end in that error, at a position that fits ERR_POS (R182). -/
theorem endedIn_raise (s : State) (e : ErrorCode) {pos : Nat} (val : Byte) (h : pos < 2 ^ elenW) :
    endedIn (s.raise e pos val) e pos val :=
  ⟨rfl, rfl, rfl, toNat_ofNat_of_lt h, rfl⟩

/-- Settles O2: ENCODE's loop ends at the first symbol, which has no valid entry. -/
theorem resetCodeTableIsEmpty : Obligations.ResetCodeTableIsEmpty := by
  refine ⟨reset_codeOf, fun s x rest hct hsym => ?_⟩
  have hinvalid : (readCode s.ct x).valid = false := by
    rw [hct]
    exact congrArg CtEntry.valid (readCode_invalidTable x)
  have hfail : encodeFrom s.params s.ct 0 s.symbols = .failed ⟨.unknownSymbol, 0, x⟩ := by
    rw [hsym]
    exact encodeFrom_cons_of_invalid s.params 0 rest hinvalid
  exact ⟨_, exec_encode_of_failed hfail, endedIn_raise _ _ x (Nat.two_pow_pos _)⟩

end Machine

end Sys2Proof
end

section
/-! The fields of a command word as numbers, and what the decoder answers on each range of words: the statement on
decoding (spec/30_encoding.md). -/

namespace Sys2Proof

/-! ### The fields of a command word (R90) -/

theorem CommandWord.toNat_rsv_ofByte (w : Byte) : (CommandWord.ofByte w).rsv.toNat = w.toNat / 16 := by
  have hw : w.toNat < 256 := w.isLt
  simp only [CommandWord.ofByte, BitVec.extractLsb'_toNat, Nat.shiftRight_eq_div_pow]
  omega

theorem CommandWord.toNat_op_ofByte (w : Byte) : (CommandWord.ofByte w).op.toNat = w.toNat % 16 := by
  simp [CommandWord.ofByte]

theorem CommandWord.rsv_ofByte_eq_zero_iff (w : Byte) : (CommandWord.ofByte w).rsv = 0 ↔ w.toNat / 16 = 0 := by
  rw [← BitVec.toNat_inj, CommandWord.toNat_rsv_ofByte]
  rfl

theorem CommandWord.ofByte_toByte (c : CommandWord) : CommandWord.ofByte c.toByte = c := by
  unfold CommandWord.ofByte CommandWord.toByte
  rw [BitVec.extractLsb'_append_eq_left, BitVec.extractLsb'_append_eq_right]

/-! ### The opcode map (R92) and decoding (R93) -/

@[simp] theorem commandOfOp_opcode (i : Instr) : commandOfOp (opcode i) = .command i := by
  cases i <;> rfl

theorem commandOfOp_of_unassigned {op : BitVec 4} (h : 7 ≤ op.toNat) : commandOfOp op = .opcodeUnassigned := by
  unfold commandOfOp
  split
  case h_8 => rfl
  all_goals omega

theorem decode_of_reserved {w : Byte} (h : w.toNat / 16 ≠ 0) : decode w = .reservedBitsSet :=
  if_neg (mt (CommandWord.rsv_ofByte_eq_zero_iff w).mp h)

theorem decode_of_rsv_zero {w : Byte} (h : w.toNat / 16 = 0) :
    decode w = commandOfOp (CommandWord.ofByte w).op :=
  if_pos ((CommandWord.rsv_ofByte_eq_zero_iff w).mpr h)

theorem decode_of_unassigned {w : Byte} (h : w.toNat / 16 = 0) (h7 : 7 ≤ w.toNat) :
    decode w = .opcodeUnassigned := by
  rw [decode_of_rsv_zero h]
  apply commandOfOp_of_unassigned
  rw [CommandWord.toNat_op_ofByte]
  omega

@[simp] theorem decode_encode (i : Instr) : decode (encode i) = .command i := by
  simp [decode, encode, CommandWord.ofByte_toByte]

/-- Settles O3, by the two fields: RSV not 0, the seven words of the commands, and RSV = 0 with OP 7 or more. -/
theorem decodingFollowsTheOpcodeMap : Obligations.DecodingFollowsTheOpcodeMap :=
  ⟨fun _ => decode_of_reserved, decode_encode .nop, decode_encode .clear, decode_encode .count,
    decode_encode .build, decode_encode .gentab, decode_encode .encode, decode_encode .decode,
    fun _ => decode_of_unassigned⟩

end Sys2Proof
end

section
/-! The table that COUNT makes, by the symbols read so far: its keys, its counts and their sum; the statements on
COUNT (spec/40_count.md). -/

namespace Sys2Proof

/-! ### The distinct symbols of a sequence, in first-seen order (R111) -/

theorem eraseDups_concat (xs : List Byte) (x : Byte) :
    (xs ++ [x]).eraseDups = if x ∈ xs then xs.eraseDups else xs.eraseDups ++ [x] := by
  rw [List.eraseDups_append]
  split
  · rename_i h
    simp [List.removeAll, h]
  · rename_i h
    simp [List.removeAll, h, List.eraseDups_cons]

theorem nodup_eraseDups (xs : List Byte) : xs.eraseDups.Nodup := by
  induction xs using List.reverseRecOn with
  | nil => exact List.nodup_nil
  | append_singleton xs x ih =>
    rw [eraseDups_concat, ← List.concat_eq_append]
    split
    · exact ih
    · rename_i h
      exact ih.concat (by simpa using h)

/-- There are 256 symbol values (R6). -/
theorem length_eraseDups_le (xs : List Byte) : xs.eraseDups.length ≤ Config.alphabetMax :=
  (nodup_eraseDups xs).length_le_card.trans_eq (FinEnum.card_eq_fintypeCard (α := Byte)).symm

theorem sum_count_eraseDups (xs : List Byte) : (xs.eraseDups.map (fun x => xs.count x)).sum = xs.length := by
  have hset : xs.eraseDups.toFinset = xs.toFinset := by
    ext x
    simp
  rw [← List.sum_toFinset _ (nodup_eraseDups xs), hset, List.sum_toFinset_count_eq_length]

namespace Machine

/-! ### COUNT's loop (R110) -/

theorem countSymbols_concat (xs : List Byte) (x : Byte) :
    countSymbols (xs ++ [x]) = countSymbol (countSymbols xs) x := by
  simp [countSymbols]

theorem countSymbols_keys (xs : List Byte) : (countSymbols xs).map FtEntry.sym = xs.eraseDups := by
  induction xs using List.reverseRecOn with
  | nil => rfl
  | append_singleton xs x ih =>
    rw [countSymbols_concat, countSymbol_keys, ih, eraseDups_concat]
    simp only [List.mem_eraseDups]

theorem mem_of_mem_countSymbols {xs : List Byte} {e : FtEntry} (h : e ∈ countSymbols xs) : e.sym ∈ xs := by
  rw [← List.mem_eraseDups, ← countSymbols_keys]
  exact List.mem_map_of_mem h

theorem length_countSymbols (xs : List Byte) : (countSymbols xs).length = xs.eraseDups.length := by
  rw [← countSymbols_keys, List.length_map]

/-- FT_K can hold the number of entries (R7, R27). -/
theorem length_countSymbols_lt (xs : List Byte) : (countSymbols xs).length < 2 ^ nidxW := by
  rw [length_countSymbols]
  exact (length_eraseDups_le xs).trans_lt (by decide)

/-- An entry after one more symbol: another symbol's entry from before, the symbol's own with its count raised, or the
new one. -/
theorem mem_countSymbol {table : List FtEntry} {x : Byte} {e : FtEntry} (hn : (table.map FtEntry.sym).Nodup)
    (h : e ∈ countSymbol table x) :
    (e ∈ table ∧ e.sym ≠ x) ∨ (∃ n, ⟨x, n⟩ ∈ table ∧ e = ⟨x, n + 1⟩) ∨
      (x ∉ table.map FtEntry.sym ∧ e = ⟨x, 1⟩) := by
  induction table with
  | nil => exact .inr (.inr ⟨List.not_mem_nil, List.mem_singleton.mp h⟩)
  | cons d rest ih =>
    obtain ⟨hd, hrest⟩ := List.nodup_cons.mp hn
    simp only [countSymbol] at h
    split at h
    · rename_i hx
      subst hx
      rcases List.mem_cons.mp h with rfl | h
      · exact .inr (.inl ⟨d.cnt, List.mem_cons_self, rfl⟩)
      · exact .inl ⟨List.mem_cons_of_mem _ h, fun he => hd (he ▸ List.mem_map_of_mem h)⟩
    · rename_i hx
      rcases List.mem_cons.mp h with rfl | h
      · exact .inl ⟨List.mem_cons_self, hx⟩
      · rcases ih hrest h with ⟨he, hne⟩ | ⟨n, he, rfl⟩ | ⟨hnew, rfl⟩
        · exact .inl ⟨List.mem_cons_of_mem _ he, hne⟩
        · exact .inr (.inl ⟨n, List.mem_cons_of_mem _ he, rfl⟩)
        · exact .inr (.inr ⟨by simpa [Ne.symm hx] using hnew, rfl⟩)

/-- The counts, at the width of the field: on a sequence of any length. -/
theorem countSymbols_cnt {xs : List Byte} {e : FtEntry} (h : e ∈ countSymbols xs) :
    e.cnt = BitVec.ofNat lenW (xs.count e.sym) := by
  induction xs using List.reverseRecOn generalizing e with
  | nil => exact absurd h List.not_mem_nil
  | append_singleton xs x ih =>
    have hn : ((countSymbols xs).map FtEntry.sym).Nodup := countSymbols_keys xs ▸ nodup_eraseDups xs
    rw [countSymbols_concat] at h
    rcases mem_countSymbol hn h with ⟨he, hne⟩ | ⟨n, he, rfl⟩ | ⟨hnew, rfl⟩
    · simpa [List.count_append, Ne.symm hne] using ih he
    · simp [List.count_append, BitVec.ofNat_add, ← ih he]
    · rw [countSymbols_keys, List.mem_eraseDups] at hnew
      simp [List.count_append, List.count_eq_zero_of_not_mem hnew]

/-- No count overflows on a sequence that fits SYM (R114). -/
theorem toNat_cnt_of_mem_countSymbols {xs : List Byte} {e : FtEntry} (hlen : xs.length < 2 ^ lenW)
    (h : e ∈ countSymbols xs) : e.cnt.toNat = xs.count e.sym := by
  rw [countSymbols_cnt h, toNat_ofNat_of_lt (List.count_le_length.trans_lt hlen)]

theorem sum_cnt_countSymbols {xs : List Byte} (hlen : xs.length < 2 ^ lenW) :
    ((countSymbols xs).map (fun e => e.cnt.toNat)).sum = xs.length := by
  have hcnt : (countSymbols xs).map (fun e => e.cnt.toNat) = xs.eraseDups.map (fun x => xs.count x) := by
    rw [← countSymbols_keys, List.map_map]
    exact List.map_congr_left fun e he => toNat_cnt_of_mem_countSymbols hlen he
  rw [hcnt, sum_count_eraseDups]

/-! ### COUNT -/

theorem exec_count (s : State) : exec .count s = .next (s.putTable (countSymbols s.symbols)).succeed := rfl

/-- Success status is what `completed` asks for (R181). -/
theorem completed_succeed (s : State) : completed s.succeed := ⟨rfl, rfl, rfl, rfl, rfl⟩

theorem toNat_ftK_putTable_countSymbols (s : State) (xs : List Byte) :
    (s.putTable (countSymbols xs)).succeed.ftK.toNat = (countSymbols xs).length :=
  toNat_ofNat_of_lt (length_countSymbols_lt xs)

theorem State.length_symbols_lt (s : State) : s.symbols.length < 2 ^ lenW := by
  rw [State.length_symbols]
  exact s.symLen.isLt

/-- Settles O15, from the keys, the counts and the sum of `countSymbols`, which the table of the next state is. -/
theorem countListsSymbolsFirstSeen : Obligations.CountListsSymbolsFirstSeen := by
  intro s
  have hlen := s.length_symbols_lt
  refine ⟨_, exec_count s, completed_succeed _, ?_⟩
  rw [State.table_putTable s (length_countSymbols_lt _), toNat_ftK_putTable_countSymbols]
  refine ⟨countSymbols_keys _, length_countSymbols _, fun e he => ?_, ?_⟩
  · rw [toNat_cnt_of_mem_countSymbols hlen he]
    exact ⟨rfl, List.count_pos_iff.mpr (mem_of_mem_countSymbols he)⟩
  · rw [sum_cnt_countSymbols hlen, State.length_symbols]

/-- Settles O16: COUNT's one write is the table, at the indices below the new FT_K; the empty input has no symbol and
so no entry. -/
theorem countTouchesOnlyTheTable : Obligations.CountTouchesOnlyTheTable := by
  intro s t h
  rw [exec_count] at h
  cases h
  refine ⟨⟨rfl, rfl⟩, ⟨rfl, rfl, rfl, rfl⟩, rfl, ⟨rfl, rfl⟩, ⟨rfl, rfl, rfl, rfl⟩, ⟨rfl, rfl, rfl⟩,
    fun j hj => ?_, fun hempty => ?_⟩
  · rw [toNat_ftK_putTable_countSymbols] at hj
    exact Memory.read?_writeSeq_above s.ft _ hj
  · have hsym : s.symbols = [] := List.eq_nil_of_length_eq_zero (by rw [State.length_symbols, hempty]; rfl)
    rw [hsym]
    exact ⟨rfl, rfl, completed_succeed _⟩

end Machine

end Sys2Proof
end

section
/-! Writing a sequence again where it has just been written, in any memory, canonical or not. -/

namespace Sys2Proof.Machine

/-- A write at a larger index leaves alone an element that a write would not change. -/
theorem Memory.write_write_of_lt {α : Type} {m : Memory α} {i j : Nat} {v : α} (w : α) (hij : i < j)
    (h : m.write i v = m) : (m.write j w).write i v = m.write j w := by
  induction m with
  | nil => cases h
  | cons c m ih =>
    obtain ⟨k, x⟩ := c
    rw [Memory.write] at h
    split at h
    · rename_i hk
      rw [List.cons_inj_right] at h
      rw [Memory.write, if_pos (hk.trans hij), Memory.write, if_pos hk, ih h]
    · split at h
      · rename_i hk
        subst hk
        cases h
        simp [Memory.write, hij]
      · exact absurd (congrArg List.length h) (by simp)

theorem Memory.write_write_same {α : Type} (m : Memory α) (i : Nat) (v : α) :
    (m.write i v).write i v = m.write i v := by
  induction m with
  | nil => simp [Memory.write]
  | cons c m ih =>
    obtain ⟨k, x⟩ := c
    rw [Memory.write]
    split
    · rename_i hk
      rw [Memory.write, if_pos hk, ih]
    · split <;> simp [Memory.write]

theorem Memory.write_writeSeq_of_lt {α : Type} {m : Memory α} {i base : Nat} {v : α} (vs : List α)
    (hi : i < base) (h : m.write i v = m) : (m.writeSeq base vs).write i v = m.writeSeq base vs := by
  induction vs generalizing m base with
  | nil => exact h
  | cons w vs ih => exact ih (Nat.lt_succ_of_lt hi) (Memory.write_write_of_lt w hi h)

/-- A sequence write repeated changes nothing, whatever the memory holds. -/
theorem Memory.writeSeq_writeSeq {α : Type} (m : Memory α) (base : Nat) (vs : List α) :
    (m.writeSeq base vs).writeSeq base vs = m.writeSeq base vs := by
  induction vs generalizing m base with
  | nil => rfl
  | cons v vs ih =>
    simp only [Memory.writeSeq]
    rw [Memory.write_writeSeq_of_lt vs (Nat.lt_succ_self base) (Memory.write_write_same m base v), ih]

end Sys2Proof.Machine
end

section
/-! The nodes that BUILD makes, by the invariant of its merge loop: the leaves first, then one node for each merge of the
two members of PQ that come first; the statements on BUILD (spec/41_build.md). -/

namespace Sys2Proof.Machine

/-! ### What a further node leaves as it is -/

section Append

variable {nodes : List Node} {n a b : Nat} (more : List Node)

theorem freqAt_append (h : n < nodes.length) : freqAt (nodes ++ more) n = freqAt nodes n := by
  simp [freqAt, List.getElem?_append_left h]

theorem comesBefore_append (ha : a < nodes.length) (hb : b < nodes.length) :
    comesBefore (nodes ++ more) a b = comesBefore nodes a b := by
  simp [comesBefore, freqAt_append more ha, freqAt_append more hb]

theorem mergedNode_append (ha : a < nodes.length) (hb : b < nodes.length) :
    mergedNode (nodes ++ more) a b = mergedNode nodes a b := by
  simp [mergedNode, freqAt_append more ha, freqAt_append more hb]

theorem membersBefore_append (h : n ≤ nodes.length) :
    membersBefore (nodes ++ more) n = membersBefore nodes n := by
  simp [membersBefore, List.take_append_of_le_length h]

theorem firstTwo_append {members : List Nat} (hm : ∀ c ∈ members, c < nodes.length)
    (h : firstTwo nodes members a b) : firstTwo (nodes ++ more) members a b := by
  obtain ⟨ha, hb, hne, hfirst, hsecond⟩ := h
  refine ⟨ha, hb, hne, fun c hc hca => ?_, fun c hc hca hcb => ?_⟩
  · rw [comesBefore_append more (hm a ha) (hm c hc)]
    exact hfirst c hc hca
  · rw [comesBefore_append more (hm b hb) (hm c hc)]
    exact hsecond c hc hca hcb

end Append

/-! ### The members of PQ (R46, R123) -/

theorem mem_membersBefore {nodes : List Node} {n i : Nat} :
    i ∈ membersBefore nodes n ↔ i < n ∧ i ∉ (nodes.take n).flatMap childrenOf := by
  simp [membersBefore]

theorem nodup_membersBefore (nodes : List Node) (n : Nat) : (membersBefore nodes n).Nodup :=
  List.nodup_range.filter _

theorem membersBefore_concat {nodes : List Node} {x : Node}
    (hlt : ∀ c ∈ (nodes ++ [x]).flatMap childrenOf, c < nodes.length) :
    membersBefore (nodes ++ [x]) (nodes.length + 1) =
      (membersBefore nodes nodes.length).filter (fun i => i ∉ childrenOf x) ++ [nodes.length] := by
  have hnew : nodes.length ∉ (nodes ++ [x]).flatMap childrenOf := fun h => absurd (hlt _ h) (Nat.lt_irrefl _)
  have htake : (nodes ++ [x]).take (nodes.length + 1) = nodes ++ [x] := List.take_of_length_le (by simp)
  simp only [membersBefore, htake, List.take_length, List.range_succ, List.filter_append, List.filter_filter]
  congr 1
  · refine List.filter_congr fun i _ => ?_
    simp [Bool.and_comm]
  · simpa using hnew

theorem length_of_extractMin {nodes : List Node} {pq rest : List Nat} {m : Nat}
    (h : extractMin nodes pq = some (m, rest)) : rest.length + 1 = pq.length := by
  obtain ⟨hm, rfl, -⟩ := extractMin_spec h
  exact List.length_erase_add_one hm

/-- Two extractions answer the first two members and the set without them. -/
theorem extractMin_twice {nodes : List Node} {pq pq1 pq2 : List Nat} {a b : Nat} (hd : pq.Nodup)
    (h1 : extractMin nodes pq = some (a, pq1)) (h2 : extractMin nodes pq1 = some (b, pq2)) :
    firstTwo nodes pq a b ∧ pq2 = pq.filter (fun i => i ∉ [a, b]) := by
  obtain ⟨ha, rfl, hfirst⟩ := extractMin_spec h1
  obtain ⟨hb, rfl, hsecond⟩ := extractMin_spec h2
  obtain ⟨hba, hb⟩ := hd.mem_erase_iff.mp hb
  refine ⟨⟨ha, hb, Ne.symm hba, hfirst, fun c hc hca hcb => hsecond c (hd.mem_erase_iff.mpr ⟨hca, hc⟩) hcb⟩, ?_⟩
  rw [(hd.erase a).erase_eq_filter, hd.erase_eq_filter, List.filter_filter]
  refine List.filter_congr fun i _ => ?_
  rw [Bool.eq_iff_iff]
  simp [and_comm]

theorem childrenOf_mergedNode {a b : Nat} (nodes : List Node) (ha : a < 2 ^ nidxW) (hb : b < 2 ^ nidxW) :
    childrenOf (mergedNode nodes a b) = [a, b] := by
  simp only [mergedNode, childrenOf, toNat_ofNat_of_lt ha, toNat_ofNat_of_lt hb]

/-! ### The merge loop (R120, R124) -/

/-- The node at `n` is the merge of the two members that came first when it was made (R123, R128). -/
def IsMerge (nodes : List Node) (n : Nat) : Prop :=
  ∃ a b, nodes[n]? = some (mergedNode nodes a b) ∧ firstTwo nodes (membersBefore nodes n) a b

theorem IsMerge.append {nodes : List Node} {n : Nat} (h : IsMerge nodes n) (hn : n < nodes.length)
    (more : List Node) : IsMerge (nodes ++ more) n := by
  obtain ⟨a, b, hnode, hfirst⟩ := h
  have hm : ∀ c ∈ membersBefore nodes n, c < nodes.length :=
    fun c hc => (mem_membersBefore.mp hc).1.trans hn
  refine ⟨a, b, ?_, ?_⟩
  · rw [List.getElem?_append_left hn, hnode, mergedNode_append more (hm a hfirst.1) (hm b hfirst.2.1)]
  · rw [membersBefore_append more hn.le]
    exact firstTwo_append more hm hfirst

/-- The invariant of the merge loop: the working nodes are the leaves and then merges, and PQ holds the nodes that are
nobody's child, the last one made among them. -/
structure MergeInv (table : List FtEntry) (nodes : List Node) (pq : List Nat) : Prop where
  leaves : leavesOf table <+: nodes
  size : nodes.length + pq.length = 2 * table.length
  members : pq = membersBefore nodes nodes.length
  children_lt : ∀ c ∈ nodes.flatMap childrenOf, c < nodes.length
  last_mem : nodes.length - 1 ∈ pq
  merges : ∀ n, table.length ≤ n → n < nodes.length → IsMerge nodes n

@[simp] theorem length_leavesOf (table : List FtEntry) : (leavesOf table).length = table.length := by
  simp [leavesOf]

theorem flatMap_childrenOf_leavesOf (table : List FtEntry) : (leavesOf table).flatMap childrenOf = [] := by
  simp [leavesOf, childrenOf, List.flatMap_map]

/-- Before the first pass PQ holds every leaf (R122). -/
theorem mergeInv_leaves {table : List FtEntry} (h : table ≠ []) :
    MergeInv table (leavesOf table) (List.range table.length) where
  leaves := List.prefix_rfl
  size := by simp; omega
  members := by
    rw [membersBefore, List.take_length, flatMap_childrenOf_leavesOf]
    simp
  children_lt := by simp [flatMap_childrenOf_leavesOf]
  last_mem := by
    have := List.length_pos_iff.mpr h
    simp
    omega
  merges n hn hlt := by simp at hlt; omega

/-- A tree of at most A_MAX leaves fits the node indices (R7, R8). -/
theorem two_mul_sub_one_lt {k : Nat} (h : k ≤ Config.alphabetMax) : 2 * k - 1 < 2 ^ nidxW :=
  lt_of_le_of_lt (Nat.sub_le_sub_right (Nat.mul_le_mul_left 2 h) 1) (by decide)

/-- A pass keeps the invariant. -/
theorem MergeInv.pass {table : List FtEntry} {nodes : List Node} {pq pq1 pq2 : List Nat} {a b : Nat}
    (h : MergeInv table nodes pq) (hk : table.length ≤ Config.alphabetMax)
    (h1 : extractMin nodes pq = some (a, pq1)) (h2 : extractMin nodes pq1 = some (b, pq2)) :
    MergeInv table (nodes ++ [mergedNode nodes a b]) (pq2 ++ [nodes.length]) := by
  have hd : pq.Nodup := h.members ▸ nodup_membersBefore nodes nodes.length
  obtain ⟨hfirst, hpq2⟩ := extractMin_twice hd h1 h2
  have hl1 := length_of_extractMin h1
  have hl2 := length_of_extractMin h2
  have hsize := h.size
  have hlt : ∀ c ∈ pq, c < nodes.length := fun c hc => (mem_membersBefore.mp (h.members ▸ hc)).1
  have ha := hlt a hfirst.1
  have hb := hlt b hfirst.2.1
  have hfit : nodes.length < 2 ^ nidxW := by
    have := two_mul_sub_one_lt hk
    omega
  have hchildren := childrenOf_mergedNode nodes (ha.trans hfit) (hb.trans hfit)
  have hall : ∀ c ∈ (nodes ++ [mergedNode nodes a b]).flatMap childrenOf, c < nodes.length := by
    intro c hc
    rw [List.flatMap_append, List.mem_append] at hc
    rcases hc with hc | hc
    · exact h.children_lt c hc
    · rw [List.flatMap_singleton, hchildren] at hc
      simp at hc
      omega
  refine ⟨h.leaves.trans (List.prefix_append ..), ?_, ?_, ?_, by simp, fun n hkn hn => ?_⟩
  · simp
    omega
  · rw [List.length_append, List.length_singleton, membersBefore_concat hall, hchildren, ← h.members, hpq2]
  · intro c hc
    simp only [List.length_append, List.length_singleton]
    exact Nat.lt_succ_of_lt (hall c hc)
  · rw [List.length_append, List.length_singleton] at hn
    rcases Nat.lt_succ_iff_lt_or_eq.mp hn with hn | rfl
    · exact (h.merges n hkn hn).append hn _
    · refine ⟨a, b, ?_, ?_⟩
      · rw [mergedNode_append _ ha hb, List.getElem?_concat_length]
      · rw [membersBefore_append _ (Nat.le_refl _), ← h.members]
        exact firstTwo_append _ hlt hfirst

/-- The loop ends with one member, as long as it has a pass for each (R124: at most |PQ| are needed). -/
theorem MergeInv.mergeInv_mergeLoop {table : List FtEntry} {nodes : List Node} {pq : List Nat} {passes : Nat}
    (h : MergeInv table nodes pq) (hk : table.length ≤ Config.alphabetMax) (hp : pq.length ≤ passes) :
    MergeInv table (mergeLoop passes nodes pq).1 [(mergeLoop passes nodes pq).2] := by
  induction passes generalizing nodes pq with
  | zero => exact absurd (List.length_pos_of_mem h.last_mem) (by omega)
  | succ passes ih =>
    cases h1 : extractMin nodes pq with
    | none =>
      rw [extractMin_eq_none] at h1
      exact absurd h.last_mem (by simp [h1])
    | some r1 =>
      obtain ⟨a, pq1⟩ := r1
      cases h2 : extractMin nodes pq1 with
      | none =>
        rw [extractMin_eq_none] at h2
        obtain ⟨hm, hp1, -⟩ := extractMin_spec h1
        have hpq : pq = [a] := by
          rw [← List.perm_singleton, ← h2, hp1]
          exact List.perm_cons_erase hm
        simp only [mergeLoop, h1, extractMin_eq_none.mpr h2]
        exact hpq ▸ h
      | some r2 =>
        obtain ⟨b, pq2⟩ := r2
        have hl1 := length_of_extractMin h1
        have hl2 := length_of_extractMin h2
        simp only [mergeLoop, h1, h2]
        exact ih (h.pass hk h1 h2) (by simp; omega)

theorem mergeInv_buildTree {table : List FtEntry} (hne : table ≠ []) (hk : table.length ≤ Config.alphabetMax) :
    MergeInv table (buildTree table).1 [(buildTree table).2] :=
  (mergeInv_leaves hne).mergeInv_mergeLoop hk List.length_range.le

/-! ### What the invariant says of a tree -/

theorem MergeInv.length_eq {table : List FtEntry} {nodes : List Node} {root : Nat}
    (h : MergeInv table nodes [root]) : nodes.length = 2 * table.length - 1 := by
  have hsize := h.size
  rw [List.length_singleton] at hsize
  omega

theorem MergeInv.root_eq {table : List FtEntry} {nodes : List Node} {root : Nat}
    (h : MergeInv table nodes [root]) : root = 2 * table.length - 2 := by
  have hlast := List.mem_singleton.mp h.last_mem
  rw [h.length_eq] at hlast
  omega

theorem MergeInv.getElem?_leaf {table : List FtEntry} {nodes : List Node} {pq : List Nat} {j : Nat}
    (h : MergeInv table nodes pq) (hj : j < table.length) :
    nodes[j]? = some (.leaf table[j].sym table[j].cnt) := by
  obtain ⟨more, rfl⟩ := h.leaves
  rw [List.getElem?_append_left (by simpa using hj)]
  simp [leavesOf, hj]

/-- A merge as the node that the host reads: its children are the first two members, its frequency their sum. -/
theorem IsMerge.exists_internal {nodes : List Node} {n : Nat} (h : IsMerge nodes n) (hn : n < 2 ^ nidxW) :
    ∃ f l r, nodes[n]? = some (.internal f l r) ∧
      firstTwo nodes (membersBefore nodes n) l.toNat r.toNat ∧
      f = BitVec.ofNat lenW (freqAt nodes l.toNat + freqAt nodes r.toNat) := by
  obtain ⟨a, b, hnode, hfirst⟩ := h
  have ha := toNat_ofNat_of_lt ((mem_membersBefore.mp hfirst.1).1.trans hn)
  have hb := toNat_ofNat_of_lt ((mem_membersBefore.mp hfirst.2.1).1.trans hn)
  refine ⟨_, _, _, hnode, ?_, ?_⟩
  · rwa [ha, hb]
  · rw [ha, hb]

/-! ### BUILD -/

theorem exec_build_of_empty {s : State} (h : s.ftK = 0) :
    exec .build s = .next (s.dropTree.raise .emptyInput 0 0) := if_pos h

theorem exec_build_of_nonempty {s : State} (h : s.ftK ≠ 0) :
    exec .build s = .next (s.putTree (buildTree s.table).1 (buildTree s.table).2).succeed := if_neg h

theorem State.freqAt_nodes {s : State} {i : Nat} (h : i < s.nodeCnt.toNat) :
    freqAt s.nodes i = (s.nodeAt i).freq.toNat := by
  simp [freqAt, State.nodes, h]

theorem State.table_ne_nil {s : State} (h : s.ftK ≠ 0) : s.table ≠ [] := by
  rw [← List.length_pos_iff, State.length_table]
  exact Nat.pos_of_ne_zero fun h0 => h (BitVec.eq_of_toNat_eq h0)

theorem State.mergeInv_table {s : State} (h : s.ftK ≠ 0) (hk : s.ftK.toNat ≤ Config.alphabetMax) :
    MergeInv s.table (buildTree s.table).1 [(buildTree s.table).2] :=
  mergeInv_buildTree (s.table_ne_nil h) (by rwa [State.length_table])

/-- The tree fits NODE (R8, R124). -/
theorem State.length_buildTree_lt {s : State} (h : s.ftK ≠ 0) (hk : s.ftK.toNat ≤ Config.alphabetMax) :
    (buildTree s.table).1.length < 2 ^ nidxW := by
  rw [(State.mergeInv_table h hk).length_eq, State.length_table]
  exact two_mul_sub_one_lt hk

/-- The state that BUILD leaves from a table that is not empty: what the merge loop made, written in NODE. -/
structure BuiltFrom (s t : State) : Prop where
  done : completed t
  valid : t.treeValid = true
  inv : MergeInv s.table t.nodes [t.root.toNat]
  written : ∀ i, i < t.nodeCnt.toNat → t.node.read? i = t.nodes[i]?

theorem builtFrom_putTree {s : State} (h : s.ftK ≠ 0) (hk : s.ftK.toNat ≤ Config.alphabetMax) :
    BuiltFrom s (s.putTree (buildTree s.table).1 (buildTree s.table).2).succeed := by
  have hinv := State.mergeInv_table h hk
  have hlen := State.length_buildTree_lt h hk
  have hroot : (buildTree s.table).2 < 2 ^ nidxW := by
    have heq := hinv.length_eq
    rw [hinv.root_eq]
    omega
  refine ⟨completed_succeed _, rfl, ?_, fun i hi => ?_⟩
  · rw [State.nodes_putTree s _ hlen]
    simpa only [State.succeed_root, State.putTree_root, toNat_ofNat_of_lt hroot] using hinv
  · rw [State.nodes_putTree s _ hlen]
    rw [State.succeed_nodeCnt, State.putTree_nodeCnt, toNat_ofNat_of_lt hlen] at hi
    exact Memory.read?_writeSeq_zero s.node _ hi

theorem exec_build_builds {s : State} (h1 : 1 ≤ s.ftK.toNat) (hk : s.ftK.toNat ≤ Config.alphabetMax) :
    ∃ t, exec .build s = .next t ∧ BuiltFrom s t := by
  have hne : s.ftK ≠ 0 := fun h0 => by simp [h0] at h1
  exact ⟨_, exec_build_of_nonempty hne, builtFrom_putTree hne hk⟩

section

variable {s t : State} (h : BuiltFrom s t)
include h

theorem BuiltFrom.toNat_nodeCnt : t.nodeCnt.toNat = 2 * s.ftK.toNat - 1 := by
  simpa only [State.length_nodes, State.length_table] using h.inv.length_eq

theorem BuiltFrom.toNat_root : t.root.toNat = 2 * s.ftK.toNat - 2 := by
  simpa only [State.length_table] using h.inv.root_eq

theorem BuiltFrom.read?_leaf {j : Nat} (hj : j < s.ftK.toNat) :
    t.node.read? j = some (.leaf (s.ftAt j).sym (s.ftAt j).cnt) := by
  have hcnt := h.toNat_nodeCnt
  rw [h.written j (by omega), h.inv.getElem?_leaf (by rwa [State.length_table])]
  simp [State.table]

theorem BuiltFrom.read?_internal {n : Nat} (hkn : s.ftK.toNat ≤ n) (hn : n < 2 * s.ftK.toNat - 1) :
    ∃ f l r, t.node.read? n = some (.internal f l r) ∧
      firstTwo t.nodes (membersBefore t.nodes n) l.toNat r.toNat ∧
      f = BitVec.ofNat lenW (freqAt t.nodes l.toNat + freqAt t.nodes r.toNat) := by
  rw [← h.toNat_nodeCnt] at hn
  have hmerge : IsMerge t.nodes n := h.inv.merges n (by rwa [State.length_table]) (by rwa [State.length_nodes])
  rw [h.written n hn]
  exact hmerge.exists_internal (hn.trans t.nodeCnt.isLt)

end

/-- A table whose entries have all been written reads the same in every epoch. -/
theorem State.table_congr {s u : State} (hft : u.ft = s.ft) (hk : u.ftK = s.ftK) (h : s.tableOk = true) :
    u.table = s.table := by
  simp only [State.tableOk, Bool.and_eq_true, List.all_eq_true, List.mem_range] at h
  obtain ⟨⟨⟨⟨-, hwritten⟩, -⟩, -⟩, -⟩ := h
  simp only [State.table, hk]
  refine List.map_congr_left fun j hj => ?_
  obtain ⟨e, he⟩ := Option.isSome_iff_exists.mp (hwritten j (List.mem_range.mp hj))
  rw [State.ftAt_of_written he, State.ftAt_of_written (hft ▸ he)]

/-- Settles O17, by the branch of BUILD for the empty table, whose state is spelled out. -/
theorem buildOfEmptyTableFails : Obligations.BuildOfEmptyTableFails := fun _ => exec_build_of_empty

/-- Settles O18: the invariant of the merge loop holds of the nodes that BUILD leaves. -/
theorem buildPlacesLeavesThenInternalNodes : Obligations.BuildPlacesLeavesThenInternalNodes := by
  intro s h1 hk
  obtain ⟨t, ht, hbuilt⟩ := exec_build_builds h1 hk
  refine ⟨t, ht, hbuilt.done, hbuilt.valid, hbuilt.toNat_nodeCnt, hbuilt.toNat_root,
    fun j => hbuilt.read?_leaf, fun n hkn hn => ?_⟩
  obtain ⟨f, l, r, hnode, ⟨hl, hr, -⟩, -⟩ := hbuilt.read?_internal hkn hn
  exact ⟨f, l, r, hnode, (mem_membersBefore.mp hl).1, (mem_membersBefore.mp hr).1⟩

/-- Settles O19: each node from FT_K on is a merge, and of two members the first has the smaller (frequency, index). -/
theorem buildMergesTheFirstTwoMembers : Obligations.BuildMergesTheFirstTwoMembers := by
  intro s h1 hk
  obtain ⟨t, ht, hbuilt⟩ := exec_build_builds h1 hk
  refine ⟨t, ht, fun n hkn hn => ?_⟩
  obtain ⟨f, l, r, hnode, hfirst, hf⟩ := hbuilt.read?_internal hkn hn
  have ⟨hl, hr, hlr, hbefore, _⟩ := hfirst
  rw [← hbuilt.toNat_nodeCnt] at hn
  have horder := comesBefore_iff.mp (hbefore _ hr hlr.symm)
  rw [State.freqAt_nodes ((mem_membersBefore.mp hl).1.trans hn),
    State.freqAt_nodes ((mem_membersBefore.mp hr).1.trans hn)] at hf horder
  refine ⟨f, l, r, State.nodeAt_of_written hnode, hfirst, ?_, by omega, fun heq => ?_⟩
  · simp [hf, BitVec.ofNat_add]
  · rw [heq] at horder
    omega

/-- Settles O20: BUILD's one write is the tree, at the indices below the new NODE_CNT; again it writes the same nodes,
since it reads the same table. -/
theorem buildTouchesOnlyTheTree : Obligations.BuildTouchesOnlyTheTree := by
  intro s t hk h
  rcases exec_build_cases h with ⟨h0, rfl⟩ | ⟨hne, rfl⟩
  · refine ⟨⟨rfl, rfl⟩, ⟨rfl, rfl⟩, rfl, ⟨rfl, rfl⟩, ⟨rfl, rfl, rfl, rfl⟩, ⟨rfl, rfl, rfl⟩, fun i _ => rfl,
      fun _ u hu => ?_⟩
    rcases exec_build_cases hu with ⟨-, rfl⟩ | ⟨hne, -⟩
    · exact ⟨rfl, rfl, rfl, rfl⟩
    · exact absurd h0 hne
  · refine ⟨⟨rfl, rfl⟩, ⟨rfl, rfl⟩, rfl, ⟨rfl, rfl⟩, ⟨rfl, rfl, rfl, rfl⟩, ⟨rfl, rfl, rfl⟩, fun i hi => ?_,
      fun hok u hu => ?_⟩
    · rw [State.succeed_nodeCnt, State.putTree_nodeCnt, toNat_ofNat_of_lt (State.length_buildTree_lt hne hk)] at hi
      exact Memory.read?_writeSeq_above s.node _ hi
    · rcases exec_build_cases hu with ⟨h0, -⟩ | ⟨-, rfl⟩
      · exact absurd h0 hne
      · rw [State.table_congr (s := s) (u := (s.putTree _ _).succeed) rfl rfl hok]
        exact ⟨Memory.writeSeq_writeSeq .., rfl, rfl, rfl⟩

end Sys2Proof.Machine
end

section
/-! The tree that the nodes stand for, as an inductive type, and the table that GENTAB makes from its leaves; the
statements on GENTAB (spec/42_gentab.md). -/

namespace Sys2Proof.Machine

/-! ### The tree below a node -/

/-- The tree below a node: the index of each node, and a leaf's symbol. -/
inductive CodeTree where
  | leaf (i : Nat) (x : Byte)
  | branch (i : Nat) (l r : CodeTree)

/-- The indices of a tree's nodes, in the order of `visit` (R140). -/
def CodeTree.indices (t : CodeTree) : List Nat :=
  match t with
  | .leaf i _ => [i]
  | .branch i l r => i :: (l.indices ++ r.indices)

/-- The most digits of a path to a leaf. -/
def CodeTree.height (t : CodeTree) : Nat :=
  match t with
  | .leaf _ _ => 0
  | .branch _ l r => max l.height r.height + 1

/-- Each leaf's symbol with the path to it, in the order of `visit` (R140). -/
def CodeTree.bindings (t : CodeTree) : List (Byte × List Bool) :=
  match t with
  | .leaf _ x => [(x, [])]
  | .branch _ l r =>
    l.bindings.map (fun b => (b.1, false :: b.2)) ++ r.bindings.map (fun b => (b.1, true :: b.2))

/-- Every branch has two subtrees, so there is one leaf more than there are branches. -/
theorem CodeTree.length_indices (t : CodeTree) : t.indices.length + 1 = 2 * t.bindings.length := by
  induction t with
  | leaf i x => rfl
  | branch i l r ihl ihr =>
    simp only [indices, bindings, List.length_cons, List.length_append, List.length_map]
    omega

/-- The nodes reached from node `i` are the tree `t`. -/
inductive Subtree (s : State) : Nat → CodeTree → Prop
  | leaf {i : Nat} {x : Byte} {f : LenWord} (hn : s.nodeAt i = .leaf x f) : Subtree s i (.leaf i x)
  | branch {i : Nat} {f : LenWord} {l r : NodeIndex} {tl tr : CodeTree} (hn : s.nodeAt i = .internal f l r)
      (hl : Subtree s l.toNat tl) (hr : Subtree s r.toNat tr) : Subtree s i (.branch i tl tr)

theorem CodeTree.length_le_height {t : CodeTree} {b : Byte × List Bool} (h : b ∈ t.bindings) :
    b.2.length ≤ t.height := by
  induction t generalizing b with
  | leaf i x =>
    obtain rfl := List.mem_singleton.mp h
    exact Nat.le_refl 0
  | branch i l r ihl ihr =>
    simp only [bindings, List.mem_append, List.mem_map] at h
    rcases h with ⟨c, hc, rfl⟩ | ⟨c, hc, rfl⟩
    · exact Nat.succ_le_succ ((ihl hc).trans (Nat.le_max_left ..))
    · exact Nat.succ_le_succ ((ihr hc).trans (Nat.le_max_right ..))

/-- The bindings of a tree are the paths to its leaves (R147). -/
theorem Subtree.mem_bindings {s : State} {i : Nat} {t : CodeTree} (h : Subtree s i t) {x : Byte} {p : List Bool} :
    (x, p) ∈ t.bindings ↔ leadsTo s i p x = true := by
  induction h generalizing p with
  | leaf hn => cases p <;> simp [CodeTree.bindings, leadsTo, hn, eq_comm]
  | branch hn _ _ ihl ihr =>
    cases p with
    | nil => simp [CodeTree.bindings, leadsTo, hn]
    | cons d p => cases d <;> simp [CodeTree.bindings, leadsTo, hn, ihl, ihr]

theorem leafSymbols_append (a b : List Node) : leafSymbols (a ++ b) = leafSymbols a ++ leafSymbols b :=
  List.filterMap_append

/-- A tree binds the symbols of its leaves. -/
theorem Subtree.keys_bindings {s : State} {i : Nat} {t : CodeTree} (h : Subtree s i t) :
    t.bindings.map Prod.fst = leafSymbols (t.indices.map s.nodeAt) := by
  induction h with
  | leaf hn => simp [CodeTree.bindings, CodeTree.indices, leafSymbols, hn]
  | @branch i f l r tl tr hn _ _ ihl ihr =>
    have hcons : ∀ nodes, leafSymbols (s.nodeAt i :: nodes) = leafSymbols nodes := fun nodes => by
      rw [hn]
      rfl
    simp only [CodeTree.bindings, CodeTree.indices, List.map_cons, List.map_append, List.map_map, hcons,
      leafSymbols_append, ← ihl, ← ihr]
    rfl

/-! ### Every node of the tree is reached once (R55) -/

/-- The indices of a node's children. -/
def State.childrenAt (s : State) (i : Nat) : List Nat := childrenOf (s.nodeAt i)

/-- The nodes of a tree are its root and the children of its nodes. -/
theorem Subtree.indices_perm {s : State} {i : Nat} {t : CodeTree} (h : Subtree s i t) :
    t.indices.Perm (i :: t.indices.flatMap s.childrenAt) := by
  induction h with
  | leaf hn => simp [CodeTree.indices, State.childrenAt, childrenOf, hn]
  | @branch i f l r tl tr hn _ _ ihl ihr =>
    have hch : s.childrenAt i = [l.toNat, r.toNat] := by simp [State.childrenAt, childrenOf, hn]
    simp only [CodeTree.indices, List.flatMap_cons, List.flatMap_append, hch]
    refine ((ihl.append ihr).trans ?_).cons i
    exact List.perm_middle.cons l.toNat

section

variable {ch : Nat → List Nat} {X Y : List Nat}

/-- Where children have smaller indices, only members above `j` have `j` as a child. -/
theorem count_flatMap_filter_gt (hX : ∀ i ∈ X, ∀ c ∈ ch i, c < i) (j : Nat) :
    (X.flatMap ch).count j = ((X.filter (j < ·)).flatMap ch).count j := by
  induction X with
  | nil => rfl
  | cons i X ih =>
    obtain ⟨hi, hX⟩ := List.forall_mem_cons.mp hX
    rw [List.filter_cons]
    split
    · simp only [List.flatMap_cons, List.count_append, ih hX]
    · rename_i hj
      have hnot : j ∉ ch i := fun hm => hj (by simpa using hi j hm)
      rw [List.flatMap_cons, List.count_append, List.count_eq_zero_of_not_mem hnot, Nat.zero_add, ih hX]

/-- The nodes below a root are determined by the children of each: downwards from the largest index, how often a node
is a child depends on the nodes above it. -/
theorem perm_of_perm_flatMap {root n : Nat} (hX : ∀ i ∈ X, i < n ∧ ∀ c ∈ ch i, c < i)
    (hY : ∀ i ∈ Y, i < n ∧ ∀ c ∈ ch i, c < i)
    (hpX : X.Perm (root :: X.flatMap ch)) (hpY : Y.Perm (root :: Y.flatMap ch)) : X.Perm Y := by
  have hstep : ∀ j, (∀ k, j < k → X.count k = Y.count k) → X.count j = Y.count j := by
    intro j habove
    have hfilter : (X.filter (j < ·)).Perm (Y.filter (j < ·)) := by
      rw [List.perm_iff_count]
      intro k
      by_cases hk : j < k
      · rw [List.count_filter (by simpa using hk), List.count_filter (by simpa using hk), habove k hk]
      · rw [List.count_eq_zero_of_not_mem (by simp [hk]), List.count_eq_zero_of_not_mem (by simp [hk])]
    rw [hpX.count_eq, hpY.count_eq, List.count_cons, List.count_cons,
      count_flatMap_filter_gt (fun i hi => (hX i hi).2), count_flatMap_filter_gt (fun i hi => (hY i hi).2),
      (hfilter.flatMap_right ch).count_eq]
  have hall : ∀ m j, n ≤ j + m → X.count j = Y.count j := by
    intro m
    induction m with
    | zero =>
      intro j hj
      rw [List.count_eq_zero_of_not_mem fun h => absurd (hX j h).1 (by omega),
        List.count_eq_zero_of_not_mem fun h => absurd (hY j h).1 (by omega)]
    | succ m ih => exact fun j hj => hstep j fun k hk => ih k (by omega)
  exact List.perm_iff_count.mpr fun j => hall n j (Nat.le_add_left ..)

end

/-- What the tree invariant says of the nodes as the commands read them (R55). -/
structure IsTree (s : State) : Prop where
  odd : s.nodeCnt.toNat % 2 = 1
  root : s.root.toNat = s.nodeCnt.toNat - 1
  leaf : ∀ i < s.leafCnt, ∃ x f, s.nodeAt i = .leaf x f
  internal : ∀ i, s.leafCnt ≤ i → i < s.nodeCnt.toNat →
    ∃ f l r, s.nodeAt i = .internal f l r ∧ l.toNat < i ∧ r.toNat < i
  nodup : (leafSymbols s.nodes).Nodup
  childOnce : ∀ i < s.nodeCnt.toNat - 1, (s.nodes.flatMap childrenOf).count i = 1

theorem State.leafOk_spec {s : State} {i : Nat} (h : s.leafOk i = true) : ∃ x f, s.nodeAt i = .leaf x f := by
  unfold State.leafOk at h
  split at h
  · rename_i x f hn
    exact ⟨x, f, State.nodeAt_of_written hn⟩
  · cases h
  · cases h

theorem State.internalOk_spec {s : State} {i : Nat} (h : s.internalOk i = true) :
    ∃ f l r, s.nodeAt i = .internal f l r ∧ l.toNat < i ∧ r.toNat < i := by
  unfold State.internalOk at h
  split at h
  · rename_i f l r hn
    simp only [Bool.and_eq_true, decide_eq_true_eq] at h
    obtain ⟨⟨hl, hr⟩, -⟩ := h
    exact ⟨f, l, r, State.nodeAt_of_written hn, hl, hr⟩
  · cases h
  · cases h

theorem State.isTree_of_treeOk {s : State} (hv : s.treeValid = true) (hok : s.treeOk = true) : IsTree s := by
  rw [State.treeOk, if_pos hv] at hok
  simp only [State.isTree, Bool.and_eq_true, decide_eq_true_eq, List.all_eq_true, List.mem_range, List.mem_range'_1,
    beq_iff_eq] at hok
  obtain ⟨⟨⟨⟨⟨hodd, hroot⟩, hleaf⟩, hinternal⟩, hnodup⟩, honce⟩ := hok
  exact ⟨hodd, hroot, fun i hi => State.leafOk_spec (hleaf i hi),
    fun i hk hi => State.internalOk_spec (hinternal i ⟨hk, by omega⟩), hnodup, honce⟩

section

variable {s : State} (h : IsTree s)
include h

/-- NODE_CNT is twice the number of leaves, less 1 (R8, R55). -/
theorem IsTree.toNat_nodeCnt : s.nodeCnt.toNat + 1 = 2 * s.leafCnt := by
  have := h.odd
  unfold State.leafCnt
  omega

/-- Below every node is a tree: an Internal node adds one digit, and there are `i + 1 - K` of them up to index `i`. -/
theorem IsTree.exists_subtree {i : Nat} (hi : i < s.nodeCnt.toNat) :
    ∃ t, Subtree s i t ∧ t.height ≤ i + 1 - s.leafCnt ∧ ∀ k ∈ t.indices, k ≤ i := by
  induction i using Nat.strong_induction_on with
  | _ i ih =>
    by_cases hk : i < s.leafCnt
    · obtain ⟨x, f, hn⟩ := h.leaf i hk
      exact ⟨_, .leaf hn, Nat.zero_le _, by simp [CodeTree.indices]⟩
    · obtain ⟨f, l, r, hn, hli, hri⟩ := h.internal i (by omega) hi
      obtain ⟨tl, htl, hhl, hkl⟩ := ih _ hli (hli.trans hi)
      obtain ⟨tr, htr, hhr, hkr⟩ := ih _ hri (hri.trans hi)
      refine ⟨_, .branch hn htl htr, ?_, fun k hk => ?_⟩
      · simp only [CodeTree.height]
        omega
      · simp only [CodeTree.indices, List.mem_cons, List.mem_append] at hk
        rcases hk with rfl | hk | hk
        · exact Nat.le_refl _
        · exact (hkl k hk).trans hli.le
        · exact (hkr k hk).trans hri.le

theorem IsTree.childrenAt_lt {i c : Nat} (hi : i < s.nodeCnt.toNat) (hc : c ∈ s.childrenAt i) : c < i := by
  by_cases hk : i < s.leafCnt
  · obtain ⟨x, f, hn⟩ := h.leaf i hk
    simp [State.childrenAt, hn, childrenOf] at hc
  · obtain ⟨f, l, r, hn, hli, hri⟩ := h.internal i (by omega) hi
    simp only [State.childrenAt, hn, childrenOf, List.mem_cons, List.not_mem_nil, or_false] at hc
    rcases hc with rfl | rfl
    · exact hli
    · exact hri

/-- All the nodes are the root and the children of nodes. -/
theorem IsTree.range_perm :
    (List.range s.nodeCnt.toNat).Perm (s.root.toNat :: (List.range s.nodeCnt.toNat).flatMap s.childrenAt) := by
  have hodd := h.odd
  have hlt : ∀ c ∈ (List.range s.nodeCnt.toNat).flatMap s.childrenAt, c < s.nodeCnt.toNat - 1 := by
    intro c hc
    obtain ⟨i, hi, hc⟩ := List.mem_flatMap.mp hc
    rw [List.mem_range] at hi
    have := h.childrenAt_lt hi hc
    omega
  have honce : ∀ j < s.nodeCnt.toNat - 1, ((List.range s.nodeCnt.toNat).flatMap s.childrenAt).count j = 1 := by
    intro j hj
    rw [← h.childOnce j hj, State.nodes, List.flatMap_map]
    rfl
  refine List.perm_iff_count.mpr fun j => ?_
  rw [h.root]
  rw [List.count_cons, List.nodup_range.count]
  by_cases hj : j < s.nodeCnt.toNat - 1
  · rw [honce j hj, if_pos (List.mem_range.mpr (by omega)), if_neg (by simpa using hj.ne')]
  · rw [List.count_eq_zero_of_not_mem fun hc => hj (hlt j hc)]
    simp only [List.mem_range, beq_iff_eq]
    by_cases hj' : j = s.nodeCnt.toNat - 1
    · rw [if_pos (by omega), if_pos hj'.symm]
    · rw [if_neg (by omega), if_neg (Ne.symm hj')]

/-- The tree below the root has every node, each once. -/
theorem IsTree.indices_perm_range {t : CodeTree} (ht : Subtree s s.root.toNat t)
    (hle : ∀ k ∈ t.indices, k ≤ s.root.toNat) : t.indices.Perm (List.range s.nodeCnt.toNat) := by
  have hodd := h.odd
  have hroot := h.root
  refine perm_of_perm_flatMap (n := s.nodeCnt.toNat) (fun i hi => ?_) (fun i hi => ?_) ht.indices_perm h.range_perm
  · have hlt : i < s.nodeCnt.toNat := by
      have := hle i hi
      omega
    exact ⟨hlt, fun c => h.childrenAt_lt hlt⟩
  · exact ⟨List.mem_range.mp hi, fun c => h.childrenAt_lt (List.mem_range.mp hi)⟩

/-- No symbol is bound twice, since the tree's leaves are those of the node list. -/
theorem IsTree.nodup_keys {t : CodeTree} (ht : Subtree s s.root.toNat t)
    (hle : ∀ k ∈ t.indices, k ≤ s.root.toNat) : (t.bindings.map Prod.fst).Nodup := by
  have hperm : (leafSymbols (t.indices.map s.nodeAt)).Perm (leafSymbols s.nodes) :=
    ((h.indices_perm_range ht hle).map s.nodeAt).filterMap _
  rw [ht.keys_bindings]
  exact hperm.nodup_iff.mpr h.nodup

theorem IsTree.length_bindings {t : CodeTree} (ht : Subtree s s.root.toNat t)
    (hle : ∀ k ∈ t.indices, k ≤ s.root.toNat) : t.bindings.length = s.leafCnt := by
  have hindices := (h.indices_perm_range ht hle).length_eq
  have htwice := t.length_indices
  have hcnt := h.toNat_nodeCnt
  rw [List.length_range] at hindices
  omega

/-- The whole tree: no path is longer than CODE_MAX (R145), and the leaves are bound once each (R147). -/
theorem IsTree.exists_tree :
    ∃ t, Subtree s s.root.toNat t ∧ t.height ≤ s.leafCnt - 1 ∧ t.height ≤ codeMax ∧
      (t.bindings.map Prod.fst).Nodup ∧ t.bindings.length = s.leafCnt := by
  have hcnt := h.toNat_nodeCnt
  have hroot := h.root
  have hfit : s.nodeCnt.toNat < 512 := s.nodeCnt.isLt
  obtain ⟨t, ht, hheight, hle⟩ := h.exists_subtree (i := s.root.toNat) (by omega)
  exact ⟨t, ht, by omega, by simp only [codeMax]; omega, h.nodup_keys ht hle, h.length_bindings ht hle⟩

end

/-! ### The table of a list of bindings (R140, R141) -/

theorem writeCode_ofPath (ct : Memory CtEntry) (x : Byte) (p : List Bool) :
    writeCode ct x (CtEntry.ofPath p) = ct.write x.toNat (CtEntry.ofPath p) :=
  if_neg fun h => absurd (congrArg CtEntry.valid h) (by simp [CtEntry.invalid])

/-- Bind each symbol to its path, below `path`. -/
def bindAll (path : List Bool) (ct : Memory CtEntry) (bs : List (Byte × List Bool)) : Memory CtEntry :=
  match bs with
  | [] => ct
  | b :: rest => bindAll path (writeCode ct b.1 (CtEntry.ofPath (path ++ b.2))) rest

theorem bindAll_append (path : List Bool) (ct : Memory CtEntry) (as bs : List (Byte × List Bool)) :
    bindAll path ct (as ++ bs) = bindAll path (bindAll path ct as) bs := by
  induction as generalizing ct with
  | nil => rfl
  | cons a as ih => exact ih _

theorem bindAll_map_cons (path : List Bool) (ct : Memory CtEntry) (d : Bool) (bs : List (Byte × List Bool)) :
    bindAll path ct (bs.map (fun b => (b.1, d :: b.2))) = bindAll (path ++ [d]) ct bs := by
  induction bs generalizing ct with
  | nil => rfl
  | cons b bs ih => simp [bindAll, ih]

/-- GENTAB's traversal makes the tree's bindings, as long as it has a level for each digit (R140). -/
theorem Subtree.visit_eq {s : State} {i : Nat} {t : CodeTree} (h : Subtree s i t) {depth : Nat}
    (hd : t.height < depth) (path : List Bool) (ct : Memory CtEntry) :
    visit s depth i path ct = some (bindAll path ct t.bindings) := by
  induction h generalizing depth path ct with
  | leaf hn =>
    cases depth with
    | zero => exact absurd hd (Nat.not_lt_zero _)
    | succ depth => simp [visit, hn, CodeTree.bindings, bindAll]
  | branch hn _ _ ihl ihr =>
    cases depth with
    | zero => exact absurd hd (Nat.not_lt_zero _)
    | succ depth =>
      simp only [CodeTree.height] at hd
      simp only [visit, hn, ihl (depth := depth) (by omega), ihr (depth := depth) (by omega), CodeTree.bindings,
        bindAll_append, bindAll_map_cons]

theorem readCode_bindAll_of_notMem {path : List Bool} {ct : Memory CtEntry} {bs : List (Byte × List Bool)} {x : Byte}
    (h : x ∉ bs.map Prod.fst) : readCode (bindAll path ct bs) x = readCode ct x := by
  induction bs generalizing ct with
  | nil => rfl
  | cons b bs ih =>
    obtain ⟨hb, hrest⟩ := not_or.mp (mt List.mem_cons.mpr h)
    rw [bindAll, ih hrest, readCode_writeCode, if_neg hb]

theorem readCode_bindAll_of_mem {path p : List Bool} {ct : Memory CtEntry} {bs : List (Byte × List Bool)} {x : Byte}
    (hn : (bs.map Prod.fst).Nodup) (h : (x, p) ∈ bs) :
    readCode (bindAll path ct bs) x = CtEntry.ofPath (path ++ p) := by
  induction bs generalizing ct with
  | nil => exact absurd h List.not_mem_nil
  | cons b bs ih =>
    obtain ⟨hb, hrest⟩ := List.nodup_cons.mp hn
    rcases List.mem_cons.mp h with rfl | h
    · rw [bindAll, readCode_bindAll_of_notMem hb, readCode_writeCode, if_pos rfl]
    · exact ih hrest h

theorem Memory.length_write_of_unlisted {α : Type} {m : Memory α} {i : Nat} (v : α) (h : m.read? i = none) :
    (m.write i v).length = m.length + 1 := by
  induction m with
  | nil => rfl
  | cons c m ih =>
    obtain ⟨k, w⟩ := c
    rw [Memory.read?_cons] at h
    split at h
    · cases h
    · rename_i hk
      rw [Memory.write, if_neg hk]
      split
      · rw [List.length_cons, ih h, List.length_cons]
      · rfl

/-- Binding distinct symbols that have no entry lists one entry for each. -/
theorem length_bindAll {path : List Bool} {ct : Memory CtEntry} {bs : List (Byte × List Bool)}
    (hn : (bs.map Prod.fst).Nodup) (h : ∀ x ∈ bs.map Prod.fst, ct.read? x.toNat = none) :
    (bindAll path ct bs).length = ct.length + bs.length := by
  induction bs generalizing ct with
  | nil => rfl
  | cons b bs ih =>
    obtain ⟨hb, hrest⟩ := List.nodup_cons.mp hn
    obtain ⟨hfree, hfrees⟩ := List.forall_mem_cons.mp h
    have hstill : ∀ x ∈ bs.map Prod.fst,
        (ct.write b.1.toNat (CtEntry.ofPath (path ++ b.2))).read? x.toNat = none := by
      intro x hx
      have hne : x.toNat ≠ b.1.toNat := fun he => hb (BitVec.eq_of_toNat_eq he ▸ hx)
      rw [Memory.read?_write_of_ne _ _ hne, hfrees x hx]
    rw [bindAll, writeCode_ofPath, ih hrest hstill, Memory.length_write_of_unlisted _ hfree, List.length_cons]
    omega

/-! ### GENTAB -/

theorem exec_gentab_of_noTree {s : State} (h : s.treeValid = false) :
    exec .gentab s = .next ((s.putCodes invalidTable).raise .noTree 0 0) :=
  if_neg (by simp [h])

theorem exec_gentab_of_tree {s : State} {ct : Memory CtEntry} (hv : s.treeValid = true) (h : codeTable s = some ct) :
    exec .gentab s = .next (s.putCodes ct).succeed := by
  simp [exec, execGentab, hv, h]

/-- The table of a tree, from the tree. -/
theorem Subtree.codeTable_eq {s : State} {t : CodeTree} (h : Subtree s s.root.toNat t) (hd : t.height ≤ codeMax) :
    codeTable s = some (bindAll [] invalidTable t.bindings) :=
  h.visit_eq (Nat.lt_succ_of_le hd) [] invalidTable

/-- An entry of a tree's table: a bound symbol has its path, and every other symbol has no code (R147). -/
theorem CodeTree.readCode_table {t : CodeTree} (hn : (t.bindings.map Prod.fst).Nodup) (x : Byte) :
    (∃ p, (x, p) ∈ t.bindings ∧ readCode (bindAll [] invalidTable t.bindings) x = CtEntry.ofPath p) ∨
      ((∀ p, (x, p) ∉ t.bindings) ∧ readCode (bindAll [] invalidTable t.bindings) x = CtEntry.invalid) := by
  by_cases hx : x ∈ t.bindings.map Prod.fst
  · obtain ⟨⟨y, p⟩, hp, rfl⟩ := List.mem_map.mp hx
    exact .inl ⟨p, hp, readCode_bindAll_of_mem hn hp⟩
  · exact .inr ⟨fun p hp => hx (List.mem_map_of_mem hp), readCode_bindAll_of_notMem hx⟩

/-- The valid entries hold the bindings, and nothing else. -/
theorem CodeTree.readCode_table_iff {t : CodeTree} (hn : (t.bindings.map Prod.fst).Nodup) (hd : t.height ≤ codeMax)
    (x : Byte) (p : List Bool) :
    ((readCode (bindAll [] invalidTable t.bindings) x).valid = true ∧
      (readCode (bindAll [] invalidTable t.bindings) x).digits = p) ↔ (x, p) ∈ t.bindings := by
  have hdigits : ∀ q, (x, q) ∈ t.bindings → (CtEntry.ofPath q).digits = q :=
    fun q hq => CtEntry.digits_ofPath ((t.length_le_height hq).trans hd)
  constructor
  · rintro ⟨hvalid, rfl⟩
    rcases t.readCode_table hn x with ⟨q, hq, hread⟩ | ⟨-, hread⟩
    · rwa [hread, hdigits q hq]
    · rw [hread] at hvalid
      cases hvalid
  · intro hp
    rw [readCode_bindAll_of_mem hn hp, List.nil_append]
    exact ⟨rfl, hdigits p hp⟩

/-- Settles O22: the table that GENTAB makes holds the bindings of the tree that the nodes are. -/
theorem gentabBindsEachLeafToItsPath : Obligations.GentabBindsEachLeafToItsPath := by
  intro s hv hok
  obtain ⟨t, ht, -, hd, hn, hlength⟩ := (State.isTree_of_treeOk hv hok).exists_tree
  refine ⟨_, exec_gentab_of_tree hv (ht.codeTable_eq hd), completed_succeed _, fun x p => ?_, fun x hx => ?_, ?_⟩
  · rw [State.codeOf_putCodes, ← ht.mem_bindings]
    exact t.readCode_table_iff hn hd x p
  · rw [State.codeOf_putCodes] at hx ⊢
    rcases t.readCode_table hn x with ⟨p, -, hread⟩ | ⟨-, hread⟩
    · rw [hread] at hx
      cases hx
    · exact hread
  · rw [State.succeed_ct, State.putCodes_ct, length_bindAll hn (fun x _ => rfl), hlength]
    exact Nat.zero_add _

/-- Settles O21, by the branch of GENTAB for no tree, whose state is spelled out. -/
theorem gentabWithoutTreeFails : Obligations.GentabWithoutTreeFails := fun _ h =>
  ⟨⟨_, exec_gentab_of_noTree h, readCode_invalidTable⟩, exec_gentab_of_noTree h⟩

/-- Settles O23: the tree is one leaf, and its one binding is the empty path. -/
theorem gentabGivesALeafRootTheEmptyCode : Obligations.GentabGivesALeafRootTheEmptyCode := by
  intro s x f hv hn
  have ht : Subtree s s.root.toNat (.leaf s.root.toNat x) := .leaf hn
  refine ⟨_, exec_gentab_of_tree hv (ht.codeTable_eq (Nat.zero_le _)), completed_succeed _, ?_, fun y hy => ?_⟩
  · exact readCode_bindAll_of_mem (bs := [(x, [])]) (List.nodup_singleton x) (List.mem_singleton_self _)
  · exact readCode_bindAll_of_notMem (by simpa [CodeTree.bindings] using hy)

end Sys2Proof.Machine
end

section
/-! ENCODE's loop on an input with a code for every symbol, and up to the first symbol without one; the statements on
ENCODE (spec/43_encode.md). -/

namespace Sys2Proof.Machine

/-! ### ENCODE's loop (R150) -/

/-- With a code for every symbol the loop reaches its end: the one error it has is at a symbol without a code. -/
theorem encodeFrom_of_valid {ct : Memory CtEntry} {xs : List Byte} (p : Parameters) (i : Nat)
    (h : ∀ x ∈ xs, (readCode ct x).valid = true) : ∃ l, encodeFrom p ct i xs = .done l := by
  cases he : encodeFrom p ct i xs with
  | done l => exact ⟨l, rfl⟩
  | failed e =>
    obtain ⟨-, -, hmem, hinvalid⟩ := encodeFrom_failed he
    rw [h _ (List.mem_of_getElem? hmem)] at hinvalid
    cases hinvalid

/-- The loop passes the symbols that have a code and ends at the first one that has none (R152). -/
theorem encodeFrom_append_of_invalid {ct : Memory CtEntry} {xs : List Byte} {x : Byte} (p : Parameters) (i : Nat)
    (rest : List Byte) (hxs : ∀ y ∈ xs, (readCode ct y).valid = true) (hx : (readCode ct x).valid = false) :
    encodeFrom p ct i (xs ++ x :: rest) = .failed ⟨.unknownSymbol, i + xs.length, x⟩ := by
  induction xs generalizing i with
  | nil => exact encodeFrom_cons_of_invalid p i rest hx
  | cons y xs ih =>
    obtain ⟨hy, hxs⟩ := List.forall_mem_cons.mp hxs
    simp only [List.cons_append, encodeFrom, hy, if_true, ih (i + 1) hxs, Encoded.prepend, List.length_cons]
    rw [Nat.add_right_comm, Nat.add_assoc]

/-! ### The length of the stream (R151) -/

theorem length_of_encodeFrom_done {p : Parameters} {ct : Memory CtEntry} {i : Nat} {xs l : List Byte}
    (h : encodeFrom p ct i xs = .done l) : l.length = (xs.map (fun x => (readCode ct x).len.toNat)).sum := by
  obtain ⟨-, rfl⟩ := encodeFrom_done h
  simp [List.length_flatMap]

/-- The stream of an input fits ENC_LEN: at most N_MAX symbols, of at most CODE_MAX digits each (R11). -/
theorem State.length_lt_of_encodeFrom_done {s : State} {i : Nat} {l : List Byte}
    (h : encodeFrom s.params s.ct i s.symbols = .done l) : l.length < 2 ^ elenW := by
  have hsum := List.sum_le_card_nsmul (s.symbols.map (fun x => (readCode s.ct x).len.toNat)) codeMax
    (List.forall_mem_map.mpr fun x _ => Nat.le_of_lt_succ (readCode s.ct x).len.isLt)
  have hsymbols := s.length_symbols_lt
  rw [← length_of_encodeFrom_done h, List.length_map, smul_eq_mul] at hsum
  simp only [lenW, elenW, codeMax] at hsum hsymbols ⊢
  omega

/-! ### ENCODE -/

theorem exec_encode_of_done {s : State} {l : List Byte} (h : encodeFrom s.params s.ct 0 s.symbols = .done l) :
    exec .encode s = .next (s.putStream l).succeed := by
  simp only [exec, execEncode, h]

/-- An input whose elements have all been written reads the same in every epoch. -/
theorem State.symbols_congr {s u : State} (hsym : u.sym = s.sym) (hlen : u.symLen = s.symLen)
    (h : s.inputWritten = true) : u.symbols = s.symbols := by
  simp only [State.inputWritten, List.all_eq_true, List.mem_range] at h
  simp only [State.symbols, hlen]
  refine List.map_congr_left fun i hi => ?_
  obtain ⟨x, hx⟩ := Option.isSome_iff_exists.mp (h i (List.mem_range.mp hi))
  rw [State.symAt_of_written hx, State.symAt_of_written (hsym ▸ hx)]

/-- A state with the same parameters, codes and written input makes the same stream, or meets the same error. -/
theorem encodeFrom_symbols_congr {s : State} (h : s.inputWritten = true) (u : State) (hp : u.params = s.params)
    (hct : u.ct = s.ct) (hsym : u.sym = s.sym) (hlen : u.symLen = s.symLen) :
    encodeFrom u.params u.ct 0 u.symbols = encodeFrom s.params s.ct 0 s.symbols := by
  rw [hp, hct, State.symbols_congr hsym hlen h]

/-- Settles O27: the loop reaches its end, and the stream of the next state is what it made. -/
theorem encodeConcatenatesTheCodes : Obligations.EncodeConcatenatesTheCodes := by
  intro s hvalid
  obtain ⟨l, hl⟩ := encodeFrom_of_valid s.params 0 hvalid
  have hlt := State.length_lt_of_encodeFrom_done hl
  refine ⟨_, exec_encode_of_done hl, completed_succeed _, ?_, ?_⟩
  · rw [State.stream_putStream s hlt]
    exact (encodeFrom_done hl).2
  · rw [State.succeed_encLen, State.putStream_encLen, toNat_ofNat_of_lt hlt]
    exact length_of_encodeFrom_done hl

/-- Settles O28: the loop passes the symbols in front of `x` and fails there. -/
theorem encodeStopsAtTheFirstUnknownSymbol : Obligations.EncodeStopsAtTheFirstUnknownSymbol := by
  intro s i x hi hx hbefore
  obtain ⟨hlt, hget⟩ := List.getElem?_eq_some_iff.mp hi
  have hsplit : s.symbols = s.symbols.take i ++ x :: s.symbols.drop (i + 1) := by
    rw [← hget, ← List.drop_eq_getElem_cons hlt, List.take_append_drop]
  have hfail : encodeFrom s.params s.ct 0 s.symbols = .failed ⟨.unknownSymbol, i, x⟩ := by
    rw [hsplit, encodeFrom_append_of_invalid s.params 0 _ hbefore hx, List.length_take_of_le hlt.le, Nat.zero_add]
  exact exec_encode_of_failed hfail

/-- Settles O29: the loop does not run, so the stream is empty and no element is written. -/
theorem encodeOfNothingIsEmpty : Obligations.EncodeOfNothingIsEmpty := by
  intro s hempty
  have hsymbols : s.symbols = [] := List.eq_nil_of_length_eq_zero (by rw [State.length_symbols, hempty]; rfl)
  have hdone : encodeFrom s.params s.ct 0 s.symbols = .done [] := by
    rw [hsymbols]
    rfl
  exact ⟨_, exec_encode_of_done hdone, completed_succeed _, rfl, rfl⟩

/-- Settles O30: ENCODE's one write is the stream, at the indices below the new ENC_LEN; again its loop ends as before,
since it reads the same input and codes. -/
theorem encodeTouchesOnlyTheStream : Obligations.EncodeTouchesOnlyTheStream := by
  intro s t h
  rcases exec_encode_cases h with ⟨l, hl, rfl⟩ | ⟨e, he, rfl⟩
  · have hlt := State.length_lt_of_encodeFrom_done hl
    refine ⟨⟨rfl, rfl⟩, ⟨rfl, rfl⟩, ⟨rfl, rfl, rfl, rfl⟩, rfl, ⟨rfl, rfl, rfl, rfl⟩, ⟨rfl, rfl, rfl⟩,
      fun p hp => ?_, fun hwritten u hu => ?_⟩
    · rw [State.succeed_encLen, State.putStream_encLen, toNat_ofNat_of_lt hlt] at hp
      exact Memory.read?_writeSeq_above s.enc _ hp
    · have hagain := (encodeFrom_symbols_congr hwritten (s.putStream l).succeed rfl rfl rfl rfl).trans hl
      rw [exec_encode_of_done hagain] at hu
      cases hu
      rw [State.stream_putStream _ hlt, State.stream_putStream _ hlt]
      exact ⟨rfl, rfl⟩
  · refine ⟨⟨rfl, rfl⟩, ⟨rfl, rfl⟩, ⟨rfl, rfl, rfl, rfl⟩, rfl, ⟨rfl, rfl, rfl, rfl⟩, ⟨rfl, rfl, rfl⟩,
      fun p _ => rfl, fun hwritten u hu => ?_⟩
    have hagain := (encodeFrom_symbols_congr hwritten (s.dropStream.raise e.code e.pos e.val) rfl rfl rfl rfl).trans he
    rw [exec_encode_of_failed hagain] at hu
    cases hu
    exact ⟨rfl, rfl⟩

end Sys2Proof.Machine
end

section
/-! DECODE's loop along the paths of a stream, what it leaves once the paths are spelled, and what it reads; the
statements on DECODE (spec/44_decode.md). -/

namespace Sys2Proof.Machine

/-! ### DECODE -/

theorem exec_decode_of_noTree {s : State} (h : s.treeValid = false) :
    exec .decode s = .next (s.dropDecoded.raise .noTree 0 0) :=
  if_neg (by simp [h])

theorem exec_decode_of_done {s : State} {l : List Byte} {pos : Nat} (hv : s.treeValid = true)
    (h : decodeStream s = .done l pos) : exec .decode s = .next (s.putDecoded l pos).succeed := by
  simp only [exec, execDecode, hv, if_true, h]

theorem exec_decode_of_failed {s : State} {e : Raised} (hv : s.treeValid = true) (h : decodeStream s = .failed e) :
    exec .decode s = .next (s.dropDecoded.raise e.code e.pos e.val) := by
  simp only [exec, execDecode, hv, if_true, h]

theorem decodeStream_of_leaf {s : State} {x : Byte} {f : LenWord} (h : s.nodeAt s.root.toNat = .leaf x f) :
    decodeStream s = .done (List.replicate s.expCnt.toNat x) 0 := by
  simp only [decodeStream, h]

theorem exists_internal_of_staysInside {s : State} {i : Nat} {path : List Bool} (h : staysInside s i path = true) :
    ∃ f l r, s.nodeAt i = .internal f l r := by
  cases hn : s.nodeAt i with
  | leaf x f => cases path <;> simp [staysInside, hn] at h
  | internal f l r => exact ⟨f, l, r, rfl⟩

/-- A path that reaches no leaf begins at an Internal node. -/
theorem staysInside_nil {s : State} {i : Nat} {path : List Bool} (h : staysInside s i path = true) :
    staysInside s i [] = true := by
  obtain ⟨f, l, r, hn⟩ := exists_internal_of_staysInside h
  simp only [staysInside, hn]

theorem decodeStream_of_internal {s : State} {f : LenWord} {l r : NodeIndex}
    (h : s.nodeAt s.root.toNat = .internal f l r) :
    decodeStream s = decodeWalk s s.encLen.toNat s.expCnt.toNat s.root.toNat 0 := by
  simp only [decodeStream, h]

/-- With no symbol needed the loop does not run (R169). -/
theorem decodeWalk_need_zero (s : State) (left ptr pos : Nat) : decodeWalk s left 0 ptr pos = .done [] pos := by
  simp only [decodeWalk]

/-- A DECODE that completes has emitted EXP_CNT symbols and consumed no more than the stream (R161, R166). -/
theorem decodeStream_done {s : State} {l : List Byte} {pos : Nat} (h : decodeStream s = .done l pos) :
    l.length = s.expCnt.toNat ∧ pos ≤ s.encLen.toNat := by
  cases hn : s.nodeAt s.root.toNat with
  | leaf x f =>
    rw [decodeStream_of_leaf hn] at h
    cases h
    exact ⟨List.length_replicate, Nat.zero_le _⟩
  | internal f a b =>
    rw [decodeStream_of_internal hn] at h
    rcases decodeWalk_cases s s.encLen.toNat s.expCnt.toNat s.root.toNat 0 with
      ⟨l', pos', hdone, hlen, -, hpos⟩ | hfail | ⟨p, hfail, -⟩
    · rw [h] at hdone
      cases hdone
      exact ⟨hlen, by omega⟩
    · rw [h] at hfail
      cases hfail
    · rw [h] at hfail
      cases hfail

/-- The symbols of a DECODE that completes fit DEC_LEN. -/
theorem decodeStream_done_lt {s : State} {l : List Byte} {pos : Nat} (h : decodeStream s = .done l pos) :
    l.length < 2 ^ lenW :=
  (decodeStream_done h).1 ▸ s.expCnt.isLt

/-- DEC_LEN of a DECODE that completes is EXP_CNT. -/
theorem decLen_putDecoded {s : State} {l : List Byte} {pos : Nat} (h : decodeStream s = .done l pos) :
    (s.putDecoded l pos).succeed.decLen = s.expCnt :=
  BitVec.eq_of_toNat_eq ((toNat_ofNat_of_lt (decodeStream_done_lt h)).trans (decodeStream_done h).1)

/-- DEC_POS of a DECODE that completes is the number of consumed digits. -/
theorem toNat_decPos_putDecoded {s : State} {l : List Byte} {pos : Nat} (h : decodeStream s = .done l pos) :
    (s.putDecoded l pos).succeed.decPos.toNat = pos :=
  toNat_ofNat_of_lt ((decodeStream_done h).2.trans_lt s.encLen.isLt)

/-! ### The elements of the stream -/

/-- ENC holds the elements of the list from `pos` on. -/
def State.spells (s : State) (pos : Nat) (l : List Byte) : Prop :=
  ∀ j (h : j < l.length), s.encAt (pos + j) = l[j]

theorem State.spells_stream (s : State) : s.spells 0 s.stream := by
  intro j h
  simp [State.stream]

theorem State.spells.append {s : State} {pos : Nat} {a b : List Byte} (h : s.spells pos (a ++ b)) :
    s.spells pos a ∧ s.spells (pos + a.length) b := by
  refine ⟨fun j hj => ?_, fun j hj => ?_⟩
  · rw [h j (by rw [List.length_append]; omega), List.getElem_append_left hj]
  · rw [Nat.add_assoc, h (a.length + j) (by rw [List.length_append]; omega), List.getElem_append_right (by omega)]
    simp

theorem State.spells.head {s : State} {pos : Nat} {c : Byte} {l : List Byte} (h : s.spells pos (c :: l)) :
    s.encAt pos = c :=
  h 0 (Nat.zero_lt_succ _)

theorem State.spells.digits {s : State} {pos : Nat} {path : List Bool}
    (h : s.spells pos (path.map (digitElement s.params))) (j : Nat) (hj : j < path.length) :
    s.encAt (pos + j) = digitElement s.params path[j] :=
  (h j (by rwa [List.length_map])).trans (List.getElem_map _)

/-! ### DECODE's loop along a stream of paths (R160, R173) -/

theorem streamOf_cons (p : Parameters) (c : Byte × List Bool) (coded : List (Byte × List Bool)) :
    streamOf p (c :: coded) = c.2.map (digitElement p) ++ streamOf p coded := List.flatMap_cons

/-- All but the last digit of a path to a leaf lead to Internal nodes. -/
theorem staysInside_of_leadsTo {s : State} {i : Nat} {path rest : List Bool} {d : Bool} {x : Byte}
    (h : leadsTo s i (path ++ d :: rest) x = true) : staysInside s i path = true := by
  induction path generalizing i with
  | nil => cases hn : s.nodeAt i <;> simp [leadsTo, staysInside, hn] at h ⊢
  | cons b path ih =>
    cases hn : s.nodeAt i with
    | leaf y f => simp [leadsTo, hn] at h
    | internal f l r =>
      simp only [List.cons_append, leadsTo, hn] at h
      simpa only [staysInside, hn] using ih h

/-- A digit that leads to a leaf emits its symbol and moves PTR back to the root (R173, third row). -/
theorem decodeWalk_lastDigit {s : State} {k pos : Nat} {d : Bool} {x : Byte} (left need : Nat)
    (h : leadsTo s k [d] x = true) (hc : s.encAt pos = digitElement s.params d) :
    decodeWalk s (left + 1) (need + 1) k pos = (decodeWalk s left need s.root.toNat (pos + 1)).emit x := by
  cases hn : s.nodeAt k with
  | leaf y f => simp [leadsTo, hn] at h
  | internal f l r =>
    have hchild : (childOf s.params (.internal f l r) (digitElement s.params d)).toNat =
        if d then r.toNat else l.toNat := by
      rw [childOf_internal]
      split <;> rfl
    cases hm : s.nodeAt (if d then r.toNat else l.toNat) with
    | internal f' l' r' => simp [leadsTo, hn, hm] at h
    | leaf y g =>
      obtain rfl : y = x := by simpa [leadsTo, hn, hm] using h
      simp only [decodeWalk, hc, digitElement_valid, if_true, hn, hchild, hm]

/-- The path of a leaf emits its symbol: up to its last digit the loop stays among Internal nodes. -/
theorem decodeWalk_path {s : State} {pos : Nat} {path : List Bool} {x : Byte} (left need : Nat)
    (hroot : staysInside s s.root.toNat [] = true) (hlead : leadsTo s s.root.toNat path x = true)
    (hread : s.spells pos (path.map (digitElement s.params))) :
    decodeWalk s (path.length + left) (need + 1) s.root.toNat pos =
      (decodeWalk s left need s.root.toNat (pos + path.length)).emit x := by
  rcases List.eq_nil_or_concat path with rfl | ⟨front, d, rfl⟩
  · obtain ⟨f, l, r, hn⟩ := exists_internal_of_staysInside hroot
    simp [leadsTo, hn] at hlead
  · rw [List.concat_eq_append] at hlead hread ⊢
    rw [List.map_append] at hread
    obtain ⟨hfront, hlast⟩ := hread.append
    rw [List.length_map] at hlast
    obtain ⟨k, hwalk, -, hlead'⟩ := decodeWalk_inside s front s.root.toNat (left + 1) need pos
      (staysInside_of_leadsTo hlead) hfront.digits
    rw [hlead'] at hlead
    rw [List.length_append, List.length_singleton, Nat.add_assoc, Nat.add_comm 1 left, hwalk,
      decodeWalk_lastDigit left need hlead hlast.head, Nat.add_assoc]

/-- The paths of a sequence of leaves emit their symbols, one after another (R161). -/
theorem decodeWalk_coded {s : State} {coded : List (Byte × List Bool)} {pos : Nat} (left need : Nat)
    (hroot : staysInside s s.root.toNat [] = true) (hlead : leadsToAll s coded = true)
    (hread : s.spells pos (streamOf s.params coded)) :
    decodeWalk s ((streamOf s.params coded).length + left) (coded.length + need) s.root.toNat pos =
      (coded.map Prod.fst).foldr Walked.emit
        (decodeWalk s left need s.root.toNat (pos + (streamOf s.params coded).length)) := by
  induction coded generalizing pos with
  | nil => simp [streamOf]
  | cons c coded ih =>
    simp only [leadsToAll, List.all_cons, Bool.and_eq_true] at hlead
    obtain ⟨hc, hrest⟩ := hlead
    rw [streamOf_cons] at hread ⊢
    obtain ⟨hreadc, hreadrest⟩ := hread.append
    rw [List.length_append, List.length_map, Nat.add_assoc, List.length_cons, Nat.add_right_comm,
      decodeWalk_path _ _ hroot hc hreadc]
    rw [List.length_map] at hreadrest
    rw [ih hrest hreadrest, Nat.add_assoc]
    rfl

theorem foldr_emit_done (xs l : List Byte) (pos : Nat) : xs.foldr Walked.emit (.done l pos) = .done (xs ++ l) pos := by
  induction xs with
  | nil => rfl
  | cons x xs ih => rw [List.foldr_cons, ih]; rfl

/-- An error discards what was emitted before it (R167). -/
theorem foldr_emit_failed (xs : List Byte) (e : Raised) : xs.foldr Walked.emit (.failed e) = .failed e := by
  induction xs with
  | nil => rfl
  | cons x xs ih => rw [List.foldr_cons, ih]; rfl

/-- DECODE on a stream that begins with the paths of leaves: their symbols, and then the loop on the rest. -/
theorem decodeStream_coded {s : State} {coded : List (Byte × List Bool)} {rest : List Byte} {need : Nat}
    (hroot : staysInside s s.root.toNat [] = true) (hlead : leadsToAll s coded = true)
    (hneed : coded.length + need = s.expCnt.toNat) (hstream : s.stream = streamOf s.params coded ++ rest) :
    decodeStream s = (coded.map Prod.fst).foldr Walked.emit
      (decodeWalk s rest.length need s.root.toNat (streamOf s.params coded).length) := by
  obtain ⟨f, l, r, hn⟩ := exists_internal_of_staysInside hroot
  have hread := s.spells_stream
  rw [hstream] at hread
  rw [decodeStream_of_internal hn, ← s.length_stream, hstream, List.length_append, ← hneed,
    decodeWalk_coded _ _ hroot hlead hread.append.1, Nat.zero_add]

/-- The paths of EXP_CNT leaves are all that DECODE consumes (R161). -/
theorem decodeStream_coded_done {s : State} {coded : List (Byte × List Bool)} {rest : List Byte}
    (hroot : staysInside s s.root.toNat [] = true) (hlead : leadsToAll s coded = true)
    (hlen : coded.length = s.expCnt.toNat) (hstream : s.stream = streamOf s.params coded ++ rest) :
    decodeStream s = .done (coded.map Prod.fst) (streamOf s.params coded).length := by
  rw [decodeStream_coded (need := 0) hroot hlead hlen hstream, decodeWalk_need_zero, foldr_emit_done, List.append_nil]

/-- DECODE on a stream of fewer than EXP_CNT leaves' paths and a path that reaches no leaf: it needs one more
element. -/
theorem decodeStream_unfinished {s : State} {coded : List (Byte × List Bool)} {path : List Bool} {rest : List Byte}
    (hin : staysInside s s.root.toNat path = true) (hlead : leadsToAll s coded = true)
    (hlen : coded.length < s.expCnt.toNat)
    (hstream : s.stream = streamOf s.params coded ++ path.map (digitElement s.params) ++ rest) :
    ∃ n k, decodeStream s = (coded.map Prod.fst).foldr Walked.emit
      (decodeWalk s rest.length (n + 1) k ((streamOf s.params coded).length + path.length)) := by
  obtain ⟨n, hn⟩ := Nat.exists_eq_add_of_lt hlen
  have hread := s.spells_stream
  rw [hstream] at hread
  obtain ⟨-, hpath⟩ := hread.append.1.append
  rw [Nat.zero_add] at hpath
  obtain ⟨k, hwalk, -⟩ := decodeWalk_inside s path s.root.toNat rest.length n
    (streamOf s.params coded).length hin hpath.digits
  refine ⟨n, k, ?_⟩
  rw [decodeStream_coded (need := n + 1) (staysInside_nil hin) hlead hn.symm (by rw [hstream, List.append_assoc]),
    List.length_append, List.length_map, hwalk]

/-- A needed element that the stream does not have ends DECODE (R164). -/
theorem decodeStream_truncated {s : State} {coded : List (Byte × List Bool)} {path : List Bool}
    (hin : staysInside s s.root.toNat path = true) (hlead : leadsToAll s coded = true)
    (hlen : coded.length < s.expCnt.toNat)
    (hstream : s.stream = streamOf s.params coded ++ path.map (digitElement s.params)) :
    decodeStream s = .failed ⟨.truncatedStream, s.encLen.toNat, 0⟩ := by
  obtain ⟨n, k, hwalk⟩ := decodeStream_unfinished (rest := []) hin hlead hlen (by rw [hstream, List.append_nil])
  have hend : s.encLen.toNat = (streamOf s.params coded).length + path.length := by
    rw [← s.length_stream, hstream, List.length_append, List.length_map]
  rw [hwalk, hend]
  exact foldr_emit_failed _ _

/-- A needed element that is no digit ends DECODE (R165). -/
theorem decodeStream_malformed {s : State} {coded : List (Byte × List Bool)} {path : List Bool} {c : Byte}
    {tail : List Byte} (hin : staysInside s s.root.toNat path = true) (hlead : leadsToAll s coded = true)
    (hlen : coded.length < s.expCnt.toNat) (h0 : c ≠ s.params.digit0) (h1 : c ≠ s.params.digit1)
    (hstream : s.stream = streamOf s.params coded ++ path.map (digitElement s.params) ++ c :: tail) :
    decodeStream s = .failed ⟨.malformedStream, (streamOf s.params coded).length + path.length, c⟩ := by
  obtain ⟨n, k, hwalk⟩ := decodeStream_unfinished hin hlead hlen hstream
  have hread := s.spells_stream
  rw [hstream] at hread
  have hc := hread.append.2.head
  rw [Nat.zero_add, List.length_append, List.length_map] at hc
  rw [hwalk, List.length_cons, decodeWalk, hc, if_neg (not_or.mpr ⟨h0, h1⟩)]
  exact foldr_emit_failed _ _

/-! ### What DECODE's loop reads (R91, R170) -/

/-- From a node below `n` the loop reads nodes below `n` only, if that holds their children and the root, and no
element at or above `m`, if that is where the stream ends. -/
theorem decodeWalk_congr_below {s u : State} {n m : Nat} (hp : u.params = s.params) (hr : u.root = s.root)
    (hn : ∀ i < n, u.nodeAt i = s.nodeAt i) (he : ∀ p < m, u.encAt p = s.encAt p) (hroot : s.root.toNat < n)
    (hchild : ∀ i < n, ∀ c, (childOf s.params (s.nodeAt i) c).toNat < n) {left need ptr pos : Nat} (hptr : ptr < n)
    (hm : pos + left ≤ m) : decodeWalk u left need ptr pos = decodeWalk s left need ptr pos := by
  induction left generalizing need ptr pos with
  | zero => cases need <;> rfl
  | succ left ih =>
    cases need with
    | zero => rfl
    | succ need =>
      have hnext := hchild ptr hptr (s.encAt pos)
      simp only [decodeWalk, hp, hr, he pos (by omega), hn ptr hptr, hn _ hnext,
        ih (ptr := s.root.toNat) (pos := pos + 1) hroot (by omega), ih (pos := pos + 1) hnext (by omega)]

/-- The tree's nodes have been written (R55, R79). -/
theorem State.isSome_node_of_treeOk {s : State} (hv : s.treeValid = true) (hok : s.treeOk = true) {i : Nat}
    (hi : i < s.nodeCnt.toNat) : (s.node.read? i).isSome = true := by
  rw [State.treeOk, if_pos hv] at hok
  simp only [State.isTree, Bool.and_eq_true, List.all_eq_true, List.mem_range, List.mem_range'_1] at hok
  obtain ⟨⟨⟨⟨-, hleaf⟩, hinternal⟩, -⟩, -⟩ := hok
  cases hn : s.node.read? i with
  | some n => rfl
  | none =>
    by_cases hk : i < s.leafCnt
    · have hok := hleaf i hk
      simp [State.leafOk, hn] at hok
    · have hok := hinternal i (by omega)
      simp [State.internalOk, hn] at hok

theorem State.nodeAt_congr {s u : State} (hv : s.treeValid = true) (hok : s.treeOk = true) (hnode : u.node = s.node)
    {i : Nat} (hi : i < s.nodeCnt.toNat) : u.nodeAt i = s.nodeAt i := by
  obtain ⟨n, hn⟩ := Option.isSome_iff_exists.mp (State.isSome_node_of_treeOk hv hok hi)
  rw [State.nodeAt_of_written hn, State.nodeAt_of_written (hnode ▸ hn)]

theorem State.encAt_congr {s u : State} (hwritten : s.streamWritten = true) (henc : u.enc = s.enc) {p : Nat}
    (hp : p < s.encLen.toNat) : u.encAt p = s.encAt p := by
  simp only [State.streamWritten, List.all_eq_true, List.mem_range] at hwritten
  obtain ⟨b, hb⟩ := Option.isSome_iff_exists.mp (hwritten p hp)
  rw [State.encAt_of_written hb, State.encAt_of_written (henc ▸ hb)]

/-- A node of the tree leads to nodes of the tree. -/
theorem IsTree.childOf_lt {s : State} (h : IsTree s) (p : Parameters) (c : Byte) {i : Nat} (hi : i < s.nodeCnt.toNat) :
    (childOf p (s.nodeAt i) c).toNat < s.nodeCnt.toNat := by
  cases hn : s.nodeAt i with
  | leaf x f =>
    have hzero : childOf p (.leaf x f) c = 0 := ite_self _
    rw [hzero]
    exact Nat.zero_lt_of_lt hi
  | internal f l r =>
    have hbelow : ∀ k ∈ [l.toNat, r.toNat], k < i := fun k hk =>
      h.childrenAt_lt hi (by simpa only [State.childrenAt, hn, childOf, childrenOf] using hk)
    unfold childOf
    split
    · exact (hbelow l.toNat (by simp)).trans hi
    · exact (hbelow r.toNat (by simp)).trans hi

/-- A state with the same parameters, tree, stream and EXP_CNT decodes the same, once tree and stream have been
written. -/
theorem decodeStream_congr_of_written {s : State} (hv : s.treeValid = true) (hok : s.treeOk = true)
    (hwritten : s.streamWritten = true) (u : State) (hp : u.params = s.params) (htree : sameTree s u)
    (hstream : sameStream s u) (hx : u.expCnt = s.expCnt) : decodeStream u = decodeStream s := by
  obtain ⟨hnode, -, hr, -⟩ := htree
  obtain ⟨henc, hl⟩ := hstream
  have hT := State.isTree_of_treeOk hv hok
  have hroot : s.root.toNat < s.nodeCnt.toNat := by
    have hodd := hT.odd
    have heq := hT.root
    omega
  have hn : ∀ i < s.nodeCnt.toNat, u.nodeAt i = s.nodeAt i := fun i => State.nodeAt_congr hv hok hnode
  simp only [decodeStream, hr, hl, hx, hn _ hroot,
    decodeWalk_congr_below hp hr hn (fun p => State.encAt_congr hwritten henc) hroot
      (fun i hi c => hT.childOf_lt s.params c hi) hroot (Nat.zero_add s.encLen.toNat).le]

/-! ### The statements -/

/-- Settles O31, by the branch of DECODE for no tree, whose state is spelled out. -/
theorem decodeWithoutTreeFails : Obligations.DecodeWithoutTreeFails := fun _ => exec_decode_of_noTree

/-- Settles O32: a Leaf root is decoded without the loop. -/
theorem decodeCopiesALeafRoot : Obligations.DecodeCopiesALeafRoot := by
  intro s x f hv hn
  have hdone := decodeStream_of_leaf hn
  exact ⟨_, exec_decode_of_done hv hdone, completed_succeed _, State.decoded_putDecoded s 0 (decodeStream_done_lt hdone),
    decLen_putDecoded hdone, rfl, rfl⟩

/-- Settles O33: the loop emits the symbols and stops; something is left if the stream is longer than their paths. -/
theorem decodeEmitsTheSymbolsOfItsPaths : Obligations.DecodeEmitsTheSymbolsOfItsPaths := by
  intro s coded tail hv hroot hlead hlen hstream
  have hdone := decodeStream_coded_done hroot hlead hlen hstream
  refine ⟨_, exec_decode_of_done hv hdone, completed_succeed _,
    State.decoded_putDecoded s _ (decodeStream_done_lt hdone), decLen_putDecoded hdone, toNat_decPos_putDecoded hdone, ?_⟩
  rw [State.succeed_trailing, State.putDecoded_trailing, State.leavesDigits, ← s.length_stream, hstream,
    List.length_append]
  cases tail <;> simp

/-- Settles O34: the loop needs one more element and there is none. -/
theorem decodeReportsATruncatedStream : Obligations.DecodeReportsATruncatedStream := by
  intro s coded path hv hlead hlen hin hstream
  rw [exec_decode_of_failed hv (decodeStream_truncated hin hlead hlen hstream), State.raise, BitVec.ofNat_toNat,
    BitVec.setWidth_eq]
  rfl

/-- Settles O35: after EXP_CNT symbols the element is part of what is left, as in O33; before, the loop checks it. -/
theorem decodeReportsAMalformedElement : Obligations.DecodeReportsAMalformedElement := by
  refine ⟨fun s coded c tail hv hlead hlen hroot _ _ hstream => ?_,
    fun s coded path c tail hv hlead hlen hin h0 h1 hstream =>
      exec_decode_of_failed hv (decodeStream_malformed hin hlead hlen h0 h1 hstream)⟩
  obtain ⟨t, ht, hcompleted, -, -, hpos, htrailing⟩ :=
    decodeEmitsTheSymbolsOfItsPaths s coded (c :: tail) hv hroot hlead hlen hstream
  exact ⟨t, ht, hcompleted, hpos, htrailing⟩

/-- Settles O36: no symbol is needed, whether the root is a Leaf or Internal. -/
theorem decodeOfNothingIsEmpty : Obligations.DecodeOfNothingIsEmpty := by
  intro s hv h0
  have hdone : decodeStream s = .done [] 0 := by
    cases hn : s.nodeAt s.root.toNat with
    | leaf x f =>
      rw [decodeStream_of_leaf hn, h0]
      rfl
    | internal f l r =>
      rw [decodeStream_of_internal hn, h0]
      exact decodeWalk_need_zero ..
  exact ⟨_, exec_decode_of_done hv hdone, completed_succeed _, rfl, rfl, rfl, rfl⟩

/-- Settles O37: DECODE's one write is the decoded sequence, at the indices below the new DEC_LEN; again it ends as
before, since it reads the same tree and stream. -/
theorem decodeTouchesOnlyTheDecodedSequence : Obligations.DecodeTouchesOnlyTheDecodedSequence := by
  intro s t h
  rcases exec_decode_cases h with ⟨hv, rfl⟩ | ⟨hv, l, pos, hdone, rfl⟩ | ⟨hv, e, hfail, rfl⟩
  · refine ⟨⟨rfl, rfl⟩, ⟨rfl, rfl⟩, ⟨rfl, rfl, rfl, rfl⟩, rfl, ⟨rfl, rfl⟩, ⟨rfl, rfl, rfl⟩, fun i _ => rfl,
      fun _ => ⟨rfl, rfl, rfl, rfl⟩, fun _ _ u hu => ?_⟩
    rw [exec_decode_of_noTree (by exact hv)] at hu
    cases hu
    exact ⟨rfl, rfl, rfl, rfl, rfl⟩
  · have hlt := decodeStream_done_lt hdone
    refine ⟨⟨rfl, rfl⟩, ⟨rfl, rfl⟩, ⟨rfl, rfl, rfl, rfl⟩, rfl, ⟨rfl, rfl⟩, ⟨rfl, rfl, rfl⟩, fun i hi => ?_,
      fun herr => absurd herr (by simp), fun hok hwritten u hu => ?_⟩
    · rw [State.succeed_decLen, State.putDecoded_decLen, toNat_ofNat_of_lt hlt] at hi
      exact Memory.read?_writeSeq_above s.dec _ hi
    · have hagain := (decodeStream_congr_of_written hv hok hwritten (s.putDecoded l pos).succeed rfl
        ⟨rfl, rfl, rfl, rfl⟩ ⟨rfl, rfl⟩ rfl).trans hdone
      rw [exec_decode_of_done (by exact hv) hagain] at hu
      cases hu
      rw [State.decoded_putDecoded _ _ hlt, State.decoded_putDecoded _ _ hlt]
      exact ⟨rfl, rfl, rfl, rfl, rfl⟩
  · refine ⟨⟨rfl, rfl⟩, ⟨rfl, rfl⟩, ⟨rfl, rfl, rfl, rfl⟩, rfl, ⟨rfl, rfl⟩, ⟨rfl, rfl, rfl⟩, fun i _ => rfl,
      fun _ => ⟨rfl, rfl, rfl, rfl⟩, fun hok hwritten u hu => ?_⟩
    have hagain := (decodeStream_congr_of_written hv hok hwritten (s.dropDecoded.raise e.code e.pos e.val) rfl
      ⟨rfl, rfl, rfl, rfl⟩ ⟨rfl, rfl⟩ rfl).trans hfail
    rw [exec_decode_of_failed (by exact hv) hagain] at hu
    cases hu
    exact ⟨rfl, rfl, rfl, rfl, rfl⟩

end Sys2Proof.Machine
end

section
/-! What NOP and CLEAR leave: the statements on the commands that belong to no component (spec/45_control.md). -/

namespace Sys2Proof.Machine

/-! ### NOP (R183) -/

theorem exec_nop (s : State) : exec .nop s = .next s.succeed := rfl

/-- Settles O13: NOP's next state is the success status, whose fields are spelled out. -/
theorem nopClearsOnlyTheRecord : Obligations.NopClearsOnlyTheRecord := exec_nop

/-! ### CLEAR (R184) -/

theorem exec_clear (s : State) : exec .clear s = .next s.clearObjects.succeed := rfl

/-- Neither the error record nor BUSY survives the success status, and no other register survives `clearObjects`. -/
theorem State.readReg_succeed_clearObjects (s : State) (r : Reg) :
    s.clearObjects.succeed.readReg r = State.reset.readReg r := by
  cases r <;> rfl

theorem State.codeOf_succeed_clearObjects (s : State) (x : Byte) :
    s.clearObjects.succeed.codeOf x = CtEntry.invalid := readCode_invalidTable x

/-- Settles O14: the registers are those after reset, which are 0; of the spaces, `clearObjects` writes CT alone. -/
theorem clearEndsTheSession : Obligations.ClearEndsTheSession := by
  intro s
  have hreg : ∀ r : Reg, s.clearObjects.succeed.readReg r = 0 := fun r =>
    (s.readReg_succeed_clearObjects r).trans (reset_readReg r)
  exact ⟨_, exec_clear s, completed_succeed _, hreg, s.codeOf_succeed_clearObjects, rfl, rfl, rfl, rfl, rfl, rfl, rfl⟩

end Sys2Proof.Machine
end

section
/-! Every step keeps the spaces in canonical form: what each write needs to fit its space, and GENTAB's traversal, which
never holds a path longer than CODE_MAX (spec/20_memory.md section 5). -/

namespace Sys2Proof.Machine

/-! ### The canonical form as a structure -/

/-- A valid entry, with 0 above its digits (R41). -/
def EntryOk (e : CtEntry) : Prop := e.valid = true ∧ e.code.toNat < 2 ^ e.len.toNat

/-- What `State.memoryOk` checks. -/
structure MemoryOk (s : State) : Prop where
  sym : s.sym.wf Config.seqMax = true
  ft : s.ft.wf Config.alphabetMax = true
  node : s.node.wf Config.nodeMax = true
  ct : s.ct.wf Config.alphabetMax = true
  enc : s.enc.wf Config.streamMax = true
  dec : s.dec.wf Config.seqMax = true
  entries : ∀ c ∈ s.ct, EntryOk c.2
  ftK : s.ftK.toNat ≤ Config.alphabetMax

theorem State.memoryOk_iff {s : State} : s.memoryOk = true ↔ MemoryOk s := by
  simp only [State.memoryOk, Bool.and_eq_true, List.all_eq_true, decide_eq_true_eq]
  constructor
  · rintro ⟨⟨⟨⟨⟨⟨⟨hsym, hft⟩, hnode⟩, hct⟩, henc⟩, hdec⟩, hentries⟩, hk⟩
    exact ⟨hsym, hft, hnode, hct, henc, hdec, hentries, hk⟩
  · rintro ⟨hsym, hft, hnode, hct, henc, hdec, hentries, hk⟩
    exact ⟨⟨⟨⟨⟨⟨⟨hsym, hft⟩, hnode⟩, hct⟩, henc⟩, hdec⟩, hentries⟩, hk⟩

/-! ### GENTAB's table (R41, R48) -/

/-- The code of a path that fits the field has 0 above its digits. -/
theorem entryOk_ofPath {path : List Bool} (h : path.length ≤ codeMax) : EntryOk (CtEntry.ofPath path) := by
  have hlt := pathBits_lt path
  have hlen : (CtEntry.ofPath path).len.toNat = path.length := toNat_ofNat_of_lt (Nat.lt_succ_of_le h)
  refine ⟨rfl, ?_⟩
  rw [hlen]
  exact (Nat.mod_le ..).trans_lt hlt

/-- What every write of a path of at most CODE_MAX digits keeps, GENTAB's traversal keeps, tree or no tree. -/
theorem visit_keeps {s : State} {P : Memory CtEntry → Prop}
    (hwrite : ∀ ct x path, path.length ≤ codeMax → P ct → P (writeCode ct x (CtEntry.ofPath path)))
    {depth i : Nat} {path : List Bool} {ct ct' : Memory CtEntry} (hd : path.length + depth ≤ codeMax + 1)
    (hct : P ct) (h : visit s depth i path ct = some ct') : P ct' := by
  induction depth generalizing i path ct ct' with
  | zero => cases h
  | succ d ih =>
    rw [visit] at h
    split at h
    · cases h
      exact hwrite _ _ _ (by omega) hct
    · split at h
      · cases h
      · rename_i hleft
        have hdeeper : ∀ b, (path ++ [b]).length + d ≤ codeMax + 1 := fun b => by
          rw [List.length_append, List.length_singleton]
          omega
        exact ih (hdeeper true) (ih (hdeeper false) hct hleft) h

/-- The CodeTable's part of the canonical form. -/
def TableOfEntries (ct : Memory CtEntry) : Prop := ct.wf Config.alphabetMax = true ∧ ∀ c ∈ ct, EntryOk c.2

theorem tableOfEntries_writeCode {ct : Memory CtEntry} (x : Byte) {path : List Bool} (hp : path.length ≤ codeMax)
    (h : TableOfEntries ct) : TableOfEntries (writeCode ct x (CtEntry.ofPath path)) := by
  refine ⟨writeCode_wf x _ h.1, fun c hc => ?_⟩
  rw [writeCode_ofPath] at hc
  rcases Memory.mem_write _ _ _ hc with rfl | hc
  · exact entryOk_ofPath hp
  · exact h.2 c hc

theorem tableOfEntries_codeTable {s : State} {ct : Memory CtEntry} (h : codeTable s = some ct) : TableOfEntries ct :=
  visit_keeps (fun _ x _ hp => tableOfEntries_writeCode x hp) (Nat.zero_add _).le ⟨rfl, by simp [invalidTable]⟩ h

/-! ### Steps (R78, R185) -/

theorem MemoryOk.writeElement {s : State} (h : MemoryOk s) {sp : Space} {i : Nat} (v : Byte) (hi : i < sp.size) :
    MemoryOk (s.writeElement sp i v) := by
  cases sp with
  | sym => exact { h with sym := Memory.wf_write v hi h.sym }
  | enc => exact { h with enc := Memory.wf_write v hi h.enc }
  | ft => exact h
  | node => exact h
  | ct => exact h
  | dec => exact h

theorem length_le_of_lt_two_pow {α : Type} {w : Nat} {l : List α} (h : l.length < 2 ^ w) :
    0 + l.length ≤ 2 ^ w - 1 := by
  omega

/-- Every command keeps the canonical form: what it writes fits its space. -/
theorem MemoryOk.exec {i : Instr} {s t : State} (h : MemoryOk s) (ht : exec i s = .next t) : MemoryOk t := by
  cases i with
  | nop =>
    cases ht
    exact { h with }
  | clear =>
    cases ht
    exact { h with ct := rfl, entries := fun _ hc => absurd hc List.not_mem_nil, ftK := Nat.zero_le _ }
  | count =>
    cases ht
    have hk := length_countSymbols s.symbols ▸ length_eraseDups_le s.symbols
    exact { h with
      ft := Memory.wf_writeSeq _ ((Nat.zero_add _).trans_le hk) h.ft
      ftK := (toNat_ftK_putTable_countSymbols s s.symbols).trans_le hk }
  | build =>
    rcases exec_build_cases ht with ⟨-, rfl⟩ | ⟨hne, rfl⟩
    · exact { h with }
    · exact { h with
        node := Memory.wf_writeSeq _ (length_le_of_lt_two_pow (State.length_buildTree_lt hne h.ftK)) h.node }
  | gentab =>
    rcases exec_gentab_cases ht with ⟨-, rfl⟩ | ⟨-, ct, hct, rfl⟩
    · exact { h with ct := rfl, entries := fun _ hc => absurd hc List.not_mem_nil }
    · obtain ⟨hwf, hentries⟩ := tableOfEntries_codeTable hct
      exact { h with ct := hwf, entries := hentries }
  | encode =>
    rcases exec_encode_cases ht with ⟨l, hl, rfl⟩ | ⟨e, -, rfl⟩
    · exact { h with
        enc := Memory.wf_writeSeq _ (length_le_of_lt_two_pow (State.length_lt_of_encodeFrom_done hl)) h.enc }
    · exact { h with }
  | decode =>
    rcases exec_decode_cases ht with ⟨-, rfl⟩ | ⟨-, l, p, hl, rfl⟩ | ⟨-, e, -, rfl⟩
    · exact { h with }
    · exact { h with dec := Memory.wf_writeSeq _ (length_le_of_lt_two_pow (decodeStream_done_lt hl)) h.dec }
    · exact { h with }

/-- Settles O45, by the induction over a step: host writes are inside their space, and what a command writes fits. -/
theorem stepKeepsTheCanonicalMemory : Obligations.StepKeepsTheCanonicalMemory := by
  intro s t hs h
  rw [State.memoryOk_iff] at hs ⊢
  exact step_keeps (P := MemoryOk) (fun _ _ _ _ _ _ h => { h with })
    (fun _ r _ h => by cases r <;> exact { h with })
    (fun _ _ _ v hi h => h.writeElement v hi)
    (fun _ => State.memoryOk_iff.mp rfl)
    (fun _ _ h => { h with })
    (fun _ _ _ h => h.exec) hs h

end Sys2Proof.Machine
end

section
/-! Every step keeps the FrequencyTable invariant: COUNT establishes it, and a table that has been written does not
depend on the epoch (spec/10_state.md section 9). -/

namespace Sys2Proof.Machine

/-- What `State.tableOk` checks (R54). -/
structure TableOk (s : State) : Prop where
  fits : s.ftK.toNat ≤ Config.alphabetMax
  written : ∀ j < s.ftK.toNat, (s.ft.read? j).isSome = true
  nodup : (s.table.map FtEntry.sym).Nodup
  pos : ∀ e ∈ s.table, 1 ≤ e.cnt.toNat
  sum : (s.table.map (fun e => e.cnt.toNat)).sum ≤ Config.seqMax

theorem State.tableOk_iff {s : State} : s.tableOk = true ↔ TableOk s := by
  simp only [State.tableOk, Bool.and_eq_true, List.all_eq_true, decide_eq_true_eq, List.mem_range]
  constructor
  · rintro ⟨⟨⟨⟨hfits, hwritten⟩, hnodup⟩, hpos⟩, hsum⟩
    exact ⟨hfits, hwritten, hnodup, hpos, hsum⟩
  · rintro ⟨hfits, hwritten, hnodup, hpos, hsum⟩
    exact ⟨⟨⟨⟨hfits, hwritten⟩, hnodup⟩, hpos⟩, hsum⟩

/-- The invariant is about FT and FT_K, and nothing else. -/
theorem TableOk.congr {s u : State} (h : TableOk s) (hft : u.ft = s.ft) (hk : u.ftK = s.ftK) : TableOk u := by
  have htable : u.table = s.table := State.table_congr hft hk (State.tableOk_iff.mpr h)
  exact ⟨hk ▸ h.fits, hk ▸ hft ▸ h.written, htable ▸ h.nodup, htable ▸ h.pos, htable ▸ h.sum⟩

/-- The empty table meets the invariant, whatever FT holds. -/
theorem tableOk_of_ftK_zero {s : State} (h : s.ftK = 0) : TableOk s := by
  have hk : s.ftK.toNat = 0 := congrArg BitVec.toNat h
  have htable : s.table = [] := List.eq_nil_of_length_eq_zero ((State.length_table s).trans hk)
  exact ⟨by omega, by omega, by simp [htable], by simp [htable], by simp [htable]⟩

/-- COUNT establishes the invariant in every state (R111, R112). -/
theorem tableOk_putTable (s : State) : TableOk (s.putTable (countSymbols s.symbols)).succeed := by
  have hlen := s.length_symbols_lt
  have htable := State.table_putTable s (length_countSymbols_lt s.symbols)
  have hk := toNat_ftK_putTable_countSymbols s s.symbols
  refine ⟨?_, fun j hj => ?_, ?_, fun e he => ?_, ?_⟩
  · rw [hk, length_countSymbols]
    exact length_eraseDups_le _
  · rw [hk] at hj
    rw [State.succeed_ft, State.putTable_ft, Memory.read?_writeSeq_zero s.ft _ hj, List.getElem?_eq_getElem hj]
    rfl
  · rw [htable, countSymbols_keys]
    exact nodup_eraseDups _
  · rw [htable] at he
    rw [toNat_cnt_of_mem_countSymbols hlen he]
    exact List.count_pos_iff.mpr (mem_of_mem_countSymbols he)
  · rw [htable, sum_cnt_countSymbols hlen]
    exact Nat.le_sub_one_of_lt hlen

/-- Every command keeps the invariant: COUNT and CLEAR alone write the table. -/
theorem TableOk.exec {i : Instr} {s t : State} (h : TableOk s) (ht : exec i s = .next t) : TableOk t := by
  cases i with
  | nop =>
    cases ht
    exact h.congr rfl rfl
  | clear =>
    cases ht
    exact tableOk_of_ftK_zero rfl
  | count =>
    cases ht
    exact tableOk_putTable s
  | build => rcases exec_build_cases ht with ⟨-, rfl⟩ | ⟨-, rfl⟩ <;> exact h.congr rfl rfl
  | gentab => rcases exec_gentab_cases ht with ⟨-, rfl⟩ | ⟨-, ct, -, rfl⟩ <;> exact h.congr rfl rfl
  | encode => rcases exec_encode_cases ht with ⟨l, -, rfl⟩ | ⟨e, -, rfl⟩ <;> exact h.congr rfl rfl
  | decode =>
    rcases exec_decode_cases ht with ⟨-, rfl⟩ | ⟨-, l, p, -, rfl⟩ | ⟨-, e, -, rfl⟩ <;> exact h.congr rfl rfl

/-- Settles O47, by the induction over a step: only COUNT, CLEAR and reset write the table. -/
theorem stepKeepsTheFrequencyTable : Obligations.StepKeepsTheFrequencyTable := by
  intro s t hs h
  rw [State.tableOk_iff] at hs ⊢
  exact step_keeps (P := TableOk) (fun _ _ _ _ _ _ h => h.congr rfl rfl)
    (fun _ r _ h => h.congr (by cases r <;> rfl) (by cases r <;> rfl))
    (fun _ sp _ _ _ h => h.congr (by cases sp <;> rfl) (by cases sp <;> rfl))
    (fun _ => tableOk_of_ftK_zero rfl)
    (fun _ _ h => h.congr rfl rfl)
    (fun _ _ _ h => h.exec) hs h

end Sys2Proof.Machine
end

section
/-! The order of BUILD's merges: the frequencies of PQ's members always sum to the table's, no sum overflows, the merged
frequencies do not decrease, and every node but the root is a child once (spec/41_build.md section 1). -/

namespace Sys2Proof.Machine

/-! ### The first two members -/

/-- The members are the first two and the rest. -/
theorem firstTwo.perm {nodes : List Node} {members : List Nat} {a b : Nat} (h : firstTwo nodes members a b)
    (hd : members.Nodup) : members.Perm (a :: b :: members.filter (fun i => i ∉ [a, b])) := by
  obtain ⟨ha, hb, hne, -⟩ := h
  have hb' : b ∈ members.erase a := hd.mem_erase_iff.mpr ⟨hne.symm, hb⟩
  have hrest : (members.erase a).erase b = members.filter (fun i => i ∉ [a, b]) := by
    rw [(hd.erase a).erase_eq_filter, hd.erase_eq_filter, List.filter_filter]
    refine List.filter_congr fun i _ => ?_
    rw [Bool.eq_iff_iff]
    simp [and_comm]
  rw [← hrest]
  exact (List.perm_cons_erase ha).trans ((List.perm_cons_erase hb').cons a)

/-- Each of the first two comes before every other member. -/
theorem firstTwo.comesBefore_rest {nodes : List Node} {members : List Nat} {a b y c : Nat}
    (h : firstTwo nodes members a b) (hy : y ∈ [a, b]) (hc : c ∈ members) (hrest : c ∉ [a, b]) :
    comesBefore nodes y c = true := by
  obtain ⟨-, -, -, hfirst, hsecond⟩ := h
  simp only [List.mem_cons, List.not_mem_nil, or_false, not_or] at hy hrest
  rcases hy with rfl | rfl
  · exact hfirst c hc hrest.1
  · exact hsecond c hc hrest.1 hrest.2

/-- The frequencies of the members are those of the first two and of the rest. -/
theorem firstTwo.sum_eq {nodes : List Node} {members : List Nat} {a b : Nat} (h : firstTwo nodes members a b)
    (hd : members.Nodup) (f : Nat → Nat) :
    (members.map f).sum = f a + (f b + ((members.filter (fun i => i ∉ [a, b])).map f).sum) := by
  rw [((h.perm hd).map f).sum_eq, List.map_cons, List.map_cons, List.sum_cons, List.sum_cons]

theorem freqAt_of_getElem? {nodes : List Node} {n : Nat} {x : Node} (h : nodes[n]? = some x) :
    freqAt nodes n = x.freq.toNat := by
  simp only [freqAt, h]

/-- The members at `n` are determined by the nodes below `n`. -/
theorem membersBefore_take (nodes : List Node) {n m : Nat} (h : n ≤ m) :
    membersBefore (nodes.take m) n = membersBefore nodes n := by
  simp only [membersBefore, List.take_take, Nat.min_eq_left h]

/-! ### The nodes of a finished merge loop -/

section

variable {table : List FtEntry} {nodes : List Node} {root : Nat} (h : MergeInv table nodes [root])
include h

theorem MergeInv.membersBefore_length : membersBefore nodes nodes.length = [root] := h.members.symm

theorem MergeInv.childrenOf_leaf {i : Nat} {x : Node} (hi : i < table.length) (hx : nodes[i]? = some x) :
    childrenOf x = [] := by
  rw [h.getElem?_leaf hi] at hx
  cases hx
  rfl

theorem MergeInv.membersBefore_leaves : membersBefore nodes table.length = List.range table.length := by
  obtain ⟨more, rfl⟩ := h.leaves
  rw [membersBefore_append more (length_leavesOf table).ge, membersBefore,
    List.take_of_length_le (length_leavesOf table).le, flatMap_childrenOf_leavesOf]
  simp

theorem MergeInv.freqAt_leaf {i : Nat} (hi : i < table.length) : freqAt nodes i = table[i].cnt.toNat :=
  freqAt_of_getElem? (h.getElem?_leaf hi)

/-- Every node but the root is a child (R124). -/
theorem MergeInv.mem_children {i : Nat} (hi : i < nodes.length) (hroot : i ≠ root) : i ∈ nodes.flatMap childrenOf := by
  by_contra hnot
  have hmem : i ∈ membersBefore nodes nodes.length := mem_membersBefore.mpr ⟨hi, by rwa [List.take_length]⟩
  rw [h.membersBefore_length, List.mem_singleton] at hmem
  exact hroot hmem

variable (hk : table.length ≤ Config.alphabetMax)
include hk

/-- The node at `n` joins the two members that came first when it was made. -/
theorem MergeInv.exists_merge {n : Nat} (hn : table.length ≤ n) (hlt : n < nodes.length) :
    ∃ f l r, nodes[n]? = some (.internal f l r) ∧ firstTwo nodes (membersBefore nodes n) l.toNat r.toNat ∧
      f = BitVec.ofNat lenW (freqAt nodes l.toNat + freqAt nodes r.toNat) := by
  refine (h.merges n hn hlt).exists_internal (hlt.trans ?_)
  rw [h.length_eq]
  exact two_mul_sub_one_lt hk

/-- A node with children is a merge, of two of the members then. -/
theorem MergeInv.mem_membersBefore_of_child {n c : Nat} {x : Node} (hx : nodes[n]? = some x) (hc : c ∈ childrenOf x) :
    table.length ≤ n ∧ c ∈ membersBefore nodes n := by
  obtain ⟨hlt, -⟩ := List.getElem?_eq_some_iff.mp hx
  have hn : table.length ≤ n := by
    by_contra hn
    rw [h.childrenOf_leaf (Nat.lt_of_not_le hn) hx] at hc
    exact absurd hc List.not_mem_nil
  obtain ⟨f, l, r, hnode, ⟨hl, hr, -⟩, -⟩ := h.exists_merge hk hn hlt
  rw [hnode] at hx
  cases hx
  simp only [childrenOf, List.mem_cons, List.not_mem_nil, or_false] at hc
  rcases hc with rfl | rfl
  · exact ⟨hn, hl⟩
  · exact ⟨hn, hr⟩

theorem MergeInv.child_lt {n c : Nat} {x : Node} (hx : nodes[n]? = some x) (hc : c ∈ childrenOf x) : c < n :=
  (mem_membersBefore.mp (h.mem_membersBefore_of_child hk hx hc).2).1

/-- The members after a merge: those that were not merged, and the new node. -/
theorem MergeInv.membersBefore_succ {n : Nat} {x : Node} (hx : nodes[n]? = some x) :
    membersBefore nodes (n + 1) = (membersBefore nodes n).filter (fun i => i ∉ childrenOf x) ++ [n] := by
  obtain ⟨hlt, hget⟩ := List.getElem?_eq_some_iff.mp hx
  have hlen : (nodes.take n).length = n := List.length_take_of_le hlt.le
  have hsplit : nodes.take n ++ [x] = nodes.take (n + 1) := by rw [← hget, List.take_concat_get' nodes n hlt]
  have hchild : ∀ c ∈ (nodes.take n ++ [x]).flatMap childrenOf, c < (nodes.take n).length := by
    intro c hc
    rw [hsplit] at hc
    obtain ⟨y, hy, hc⟩ := List.mem_flatMap.mp hc
    obtain ⟨i, hi, hyi⟩ := List.getElem_of_mem hy
    rw [List.getElem_take] at hyi
    have := h.child_lt hk (List.getElem?_eq_some_iff.mpr ⟨_, hyi⟩) hc
    rw [List.length_take] at hi
    omega
  have hconcat := membersBefore_concat hchild
  rwa [hlen, hsplit, membersBefore_take nodes le_rfl, membersBefore_take nodes le_rfl] at hconcat

/-- No node is a child twice (R55). -/
theorem MergeInv.nodup_children : (nodes.flatMap childrenOf).Nodup := by
  have htake : ∀ n ≤ nodes.length, ((nodes.take n).flatMap childrenOf).Nodup := by
    intro n
    induction n with
    | zero => simp
    | succ n ih =>
      intro hn
      have hx : nodes[n]? = some nodes[n] := List.getElem?_eq_getElem hn
      rw [← List.take_concat_get' nodes n hn, List.flatMap_append, List.flatMap_singleton]
      refine (ih (Nat.le_of_succ_le hn)).append ?_ (List.disjoint_right.mpr fun c hc =>
        (mem_membersBefore.mp (h.mem_membersBefore_of_child hk hx hc).2).2)
      by_cases hleaf : n < table.length
      · rw [h.childrenOf_leaf hleaf hx]
        exact List.nodup_nil
      · obtain ⟨f, l, r, hnode, ⟨-, -, hlr, -⟩, -⟩ := h.exists_merge hk (Nat.le_of_not_lt hleaf) hn
        rw [hx] at hnode
        rw [Option.some.inj hnode]
        simpa [childrenOf] using hlr
  simpa using htake nodes.length le_rfl

/-- The nodes are the leaves and then Internal nodes (R122, R124). -/
theorem MergeInv.exists_internals :
    ∃ more, nodes = leavesOf table ++ more ∧ ∀ x ∈ more, ∃ f l r, x = .internal f l r := by
  obtain ⟨more, hmore⟩ := h.leaves
  refine ⟨more, hmore.symm, fun x hx => ?_⟩
  obtain ⟨j, hj, rfl⟩ := List.getElem_of_mem hx
  have hlen := congrArg List.length hmore
  rw [List.length_append, length_leavesOf] at hlen
  obtain ⟨f, l, r, hnode, -⟩ := h.exists_merge hk (Nat.le_add_right table.length j) (by omega)
  rw [← hmore, List.getElem?_append_right (by simp), length_leavesOf, Nat.add_sub_cancel_left,
    List.getElem?_eq_getElem hj] at hnode
  exact ⟨f, l, r, Option.some.inj hnode⟩

/-- The leaves among the nodes are the table's entries. -/
theorem MergeInv.leafSymbols_eq : leafSymbols nodes = table.map FtEntry.sym := by
  obtain ⟨more, rfl, hmore⟩ := h.exists_internals hk
  have hleaves : leafSymbols (leavesOf table) = table.map FtEntry.sym := by
    simp [leafSymbols, leavesOf, List.filterMap_map]
  have hnone : leafSymbols more = [] := by
    refine List.filterMap_eq_nil_iff.mpr fun x hx => ?_
    obtain ⟨f, l, r, rfl⟩ := hmore x hx
    rfl
  rw [leafSymbols_append, hleaves, hnone, List.append_nil]

/-- A merge's frequency is the sum of its children's, exactly, where the members' sum fits (R127). -/
theorem MergeInv.freqAt_merge_of_fits {n : Nat} {f : LenWord} {l r : NodeIndex}
    (hnode : nodes[n]? = some (.internal f l r))
    (hfits : ((membersBefore nodes n).map (freqAt nodes)).sum ≤ Config.seqMax) :
    freqAt nodes n = freqAt nodes l.toNat + freqAt nodes r.toNat := by
  obtain ⟨hlt, -⟩ := List.getElem?_eq_some_iff.mp hnode
  obtain ⟨hn, -⟩ := h.mem_membersBefore_of_child hk hnode (c := l.toNat) (by simp [childrenOf])
  obtain ⟨f', l', r', hnode', hfirst, hf⟩ := h.exists_merge hk hn hlt
  rw [hnode] at hnode'
  cases hnode'
  rw [hfirst.sum_eq (nodup_membersBefore nodes n)] at hfits
  have hlt : freqAt nodes l.toNat + freqAt nodes r.toNat < 2 ^ lenW :=
    Nat.lt_of_le_of_lt (m := Config.seqMax) (by omega) (by decide)
  rw [freqAt_of_getElem? hnode, Node.freq, hf, toNat_ofNat_of_lt hlt]

variable (hsum : (table.map (fun e => e.cnt.toNat)).sum ≤ Config.seqMax)
include hsum

/-- The members' frequencies always sum to the table's counts. -/
theorem MergeInv.sum_members {n : Nat} (hn : table.length ≤ n) (hlt : n ≤ nodes.length) :
    ((membersBefore nodes n).map (freqAt nodes)).sum = (table.map (fun e => e.cnt.toNat)).sum := by
  induction n, hn using Nat.le_induction with
  | base =>
    rw [h.membersBefore_leaves]
    congr 1
    refine List.ext_getElem (by simp) fun i hi hi' => ?_
    rw [List.length_map] at hi'
    simp [h.freqAt_leaf hi']
  | succ n hn ih =>
    have hbefore := ih (Nat.le_of_succ_le hlt)
    obtain ⟨f, l, r, hnode, hfirst, -⟩ := h.exists_merge hk hn hlt
    have hfreq := h.freqAt_merge_of_fits hk hnode (hbefore.trans_le hsum)
    rw [hfirst.sum_eq (nodup_membersBefore nodes n)] at hbefore
    rw [h.membersBefore_succ hk hnode, List.map_append, List.sum_append, childrenOf, List.map_singleton,
      List.sum_singleton, hfreq]
    omega

theorem MergeInv.freqAt_merge {n : Nat} {f : LenWord} {l r : NodeIndex} (hnode : nodes[n]? = some (.internal f l r)) :
    freqAt nodes n = freqAt nodes l.toNat + freqAt nodes r.toNat := by
  obtain ⟨hlt, -⟩ := List.getElem?_eq_some_iff.mp hnode
  obtain ⟨hn, -⟩ := h.mem_membersBefore_of_child hk hnode (c := l.toNat) (by simp [childrenOf])
  exact h.freqAt_merge_of_fits hk hnode ((h.sum_members hk hsum hn hlt.le).trans_le hsum)

/-- The root has the whole frequency (R251). -/
theorem MergeInv.freqAt_root : freqAt nodes root = (table.map (fun e => e.cnt.toNat)).sum := by
  have hlen := h.length_eq
  have hsize := h.size
  rw [← h.sum_members hk hsum (by rw [List.length_singleton] at hsize; omega) le_rfl, h.membersBefore_length,
    List.map_singleton, List.sum_singleton]

/-- The merged frequencies do not decrease: what is merged next comes after what was merged, or contains it (R257). -/
theorem MergeInv.freqAt_le_succ {n : Nat} (hn : table.length ≤ n) (hlt : n + 1 < nodes.length) :
    freqAt nodes n ≤ freqAt nodes (n + 1) := by
  obtain ⟨f, l, r, hnode, hfirst, -⟩ := h.exists_merge hk hn (Nat.lt_of_succ_lt hlt)
  obtain ⟨f', l', r', hnode', hfirst', -⟩ := h.exists_merge hk (n := n + 1) (by omega) hlt
  obtain ⟨hl', hr', hlr', -⟩ := hfirst'
  rw [h.membersBefore_succ hk hnode, List.mem_append, List.mem_singleton, List.mem_filter, decide_eq_true_eq] at hl' hr'
  have hsum' := h.freqAt_merge hk hsum hnode'
  rcases hl' with ⟨hl', hlold⟩ | hl'
  · rcases hr' with ⟨hr', hrold⟩ | hr'
    · have hll := comesBefore_iff.mp (hfirst.comesBefore_rest (y := l.toNat) (by simp) hl' hlold)
      have hrr := comesBefore_iff.mp (hfirst.comesBefore_rest (y := r.toNat) (by simp) hr' hrold)
      have hmerge := h.freqAt_merge hk hsum hnode
      omega
    · rw [hsum', hr']
      exact Nat.le_add_left ..
  · rw [hsum', hl']
    exact Nat.le_add_right ..

theorem MergeInv.freqAt_mono {m n : Nat} (hm : table.length ≤ m) (hmn : m ≤ n) (hlt : n < nodes.length) :
    freqAt nodes m ≤ freqAt nodes n := by
  induction n, hmn using Nat.le_induction with
  | base => exact le_rfl
  | succ n hmn ih => exact (ih (Nat.lt_of_succ_lt hlt)).trans (h.freqAt_le_succ hk hsum (hm.trans hmn) hlt)

end

end Sys2Proof.Machine
end

section
/-! The nodes that BUILD makes from a table that meets its invariant are one tree with exact sums, and every step keeps
the tree; the laws of the pipeline on frequencies and on the tree's order (spec/46_invariants.md). -/

namespace Sys2Proof.Machine

/-! ### The checks of the tree invariant (R55) -/

theorem State.leafOk_iff {s : State} {i : Nat} :
    s.leafOk i = true ↔ ∃ x f, s.node.read? i = some (.leaf x f) ∧ 1 ≤ f.toNat := by
  cases hn : s.node.read? i with
  | none => simp [State.leafOk, hn]
  | some n => cases n <;> simp [State.leafOk, hn]

theorem State.internalOk_iff {s : State} {i : Nat} :
    s.internalOk i = true ↔ ∃ f l r, s.node.read? i = some (.internal f l r) ∧ l.toNat < i ∧ r.toNat < i ∧
      f.toNat = (s.nodeAt l.toNat).freq.toNat + (s.nodeAt r.toNat).freq.toNat := by
  cases hn : s.node.read? i with
  | none => simp [State.internalOk, hn]
  | some n => cases n <;> simp [State.internalOk, hn, and_assoc]

/-- What `State.isTree` checks, node by node. -/
structure WrittenTree (s : State) : Prop where
  odd : s.nodeCnt.toNat % 2 = 1
  root : s.root.toNat = s.nodeCnt.toNat - 1
  leaf : ∀ i < s.leafCnt, s.leafOk i = true
  internal : ∀ i, s.leafCnt ≤ i → i < s.nodeCnt.toNat → s.internalOk i = true
  nodup : (leafSymbols s.nodes).Nodup
  childOnce : ∀ i < s.nodeCnt.toNat - 1, (s.nodes.flatMap childrenOf).count i = 1

theorem State.isTree_iff {s : State} : s.isTree = true ↔ WrittenTree s := by
  simp only [State.isTree, Bool.and_eq_true, decide_eq_true_eq, List.all_eq_true, List.mem_range, List.mem_range'_1,
    beq_iff_eq]
  constructor
  · rintro ⟨⟨⟨⟨⟨hodd, hroot⟩, hleaf⟩, hinternal⟩, hnodup⟩, honce⟩
    exact ⟨hodd, hroot, hleaf, fun i hk hi => hinternal i ⟨hk, by omega⟩, hnodup, honce⟩
  · rintro ⟨hodd, hroot, hleaf, hinternal, hnodup, honce⟩
    exact ⟨⟨⟨⟨⟨hodd, hroot⟩, hleaf⟩, fun i hi => hinternal i hi.1 (by omega)⟩, hnodup⟩, honce⟩

theorem State.treeOk_iff {s : State} :
    s.treeOk = true ↔ (s.treeValid = true ∧ WrittenTree s) ∨ (s.treeValid = false ∧ s.nodeCnt = 0 ∧ s.root = 0) := by
  cases hv : s.treeValid <;> simp [State.treeOk, hv, State.isTree_iff]

/-- The invariant is about NODE, NODE_CNT, ROOT and TREE_VALID, and nothing else: the tree's nodes have been written. -/
theorem State.treeOk_congr {s u : State} (hok : s.treeOk = true) (h : sameTree s u) : u.treeOk = true := by
  obtain ⟨hnode, hcnt, hroot, hvalid⟩ := h
  rcases State.treeOk_iff.mp hok with ⟨hv, htree⟩ | ⟨hv, hempty⟩
  · have hat : ∀ i < s.nodeCnt.toNat, u.nodeAt i = s.nodeAt i := fun i => State.nodeAt_congr hv hok hnode
    have hleafCnt : u.leafCnt = s.leafCnt := by rw [State.leafCnt, hcnt, State.leafCnt]
    have hnodes : u.nodes = s.nodes := by
      rw [State.nodes, hcnt]
      exact List.map_congr_left fun i hi => hat i (List.mem_range.mp hi)
    refine State.treeOk_iff.mpr (.inl ⟨hvalid.trans hv, hcnt ▸ htree.odd, hcnt ▸ hroot ▸ htree.root, fun i hi => ?_,
      fun i hk hi => ?_, hnodes ▸ htree.nodup, hcnt ▸ hnodes ▸ htree.childOnce⟩)
    · rw [State.leafOk_iff, hnode, ← State.leafOk_iff]
      exact htree.leaf i (hleafCnt ▸ hi)
    · rw [hcnt] at hi
      obtain ⟨f, l, r, hn, hl, hr, hf⟩ := State.internalOk_iff.mp (htree.internal i (hleafCnt ▸ hk) hi)
      rw [← hat _ (hl.trans hi), ← hat _ (hr.trans hi)] at hf
      exact State.internalOk_iff.mpr ⟨f, l, r, hnode ▸ hn, hl, hr, hf⟩
  · exact State.treeOk_iff.mpr (.inr ⟨hvalid.trans hv, by rwa [hcnt, hroot]⟩)

/-! ### The tree that BUILD makes -/

theorem TableOk.length_table_le {s : State} (h : TableOk s) : s.table.length ≤ Config.alphabetMax :=
  (State.length_table s).trans_le h.fits

section

variable {s t : State} (h : BuiltFrom s t)
include h

theorem BuiltFrom.leafCnt_eq : t.leafCnt = s.ftK.toNat := by
  have hcnt := h.toNat_nodeCnt
  have hsize := h.inv.size
  rw [State.length_nodes, State.length_table, List.length_singleton] at hsize
  unfold State.leafCnt
  omega

variable (hok : TableOk s)
include hok

/-- BUILD establishes the tree invariant from the FrequencyTable's (R55). -/
theorem BuiltFrom.writtenTree : WrittenTree t := by
  have hk := hok.length_table_le
  have hcnt := h.toNat_nodeCnt
  have hroot := h.toNat_root
  have hleafCnt := h.leafCnt_eq
  have hsize := h.inv.size
  rw [State.length_nodes, State.length_table, List.length_singleton] at hsize
  refine ⟨by omega, by omega, fun i hi => ?_, fun i hki hi => ?_, ?_, fun i hi => ?_⟩
  · rw [hleafCnt] at hi
    exact State.leafOk_iff.mpr ⟨_, _, h.read?_leaf hi, hok.pos _ (List.mem_map_of_mem (List.mem_range.mpr hi))⟩
  · obtain ⟨f, l, r, hnode, ⟨hl, hr, -⟩, -⟩ := h.read?_internal (hleafCnt ▸ hki) (hcnt ▸ hi)
    obtain ⟨hl, -⟩ := mem_membersBefore.mp hl
    obtain ⟨hr, -⟩ := mem_membersBefore.mp hr
    have hfreq := h.inv.freqAt_merge hk hok.sum ((h.written i hi).symm.trans hnode)
    rw [State.freqAt_nodes hi, State.freqAt_nodes (hl.trans hi), State.freqAt_nodes (hr.trans hi),
      State.nodeAt_of_written hnode] at hfreq
    exact State.internalOk_iff.mpr ⟨f, l, r, hnode, hl, hr, hfreq⟩
  · rw [h.inv.leafSymbols_eq hk]
    exact hok.nodup
  · exact List.count_eq_one_of_mem (h.inv.nodup_children hk)
      (h.inv.mem_children (by rw [State.length_nodes]; omega) (by omega))

theorem BuiltFrom.treeOk : t.treeOk = true := State.treeOk_iff.mpr (.inl ⟨h.valid, h.writtenTree hok⟩)

end

/-! ### Steps -/

/-- Every command keeps the tree invariant: BUILD and CLEAR alone write the tree. -/
theorem treeOk_exec {i : Instr} {s t : State} (htable : TableOk s) (h : s.treeOk = true) (ht : exec i s = .next t) :
    t.treeOk = true := by
  cases i with
  | nop =>
    cases ht
    exact State.treeOk_congr h ⟨rfl, rfl, rfl, rfl⟩
  | clear =>
    cases ht
    exact State.treeOk_iff.mpr (.inr ⟨rfl, rfl, rfl⟩)
  | count =>
    cases ht
    exact State.treeOk_congr h ⟨rfl, rfl, rfl, rfl⟩
  | build =>
    rcases exec_build_cases ht with ⟨-, rfl⟩ | ⟨hne, rfl⟩
    · exact State.treeOk_iff.mpr (.inr ⟨rfl, rfl, rfl⟩)
    · exact (builtFrom_putTree hne htable.fits).treeOk htable
  | gentab =>
    rcases exec_gentab_cases ht with ⟨-, rfl⟩ | ⟨-, ct, -, rfl⟩ <;>
      exact State.treeOk_congr h ⟨rfl, rfl, rfl, rfl⟩
  | encode =>
    rcases exec_encode_cases ht with ⟨l, -, rfl⟩ | ⟨e, -, rfl⟩ <;> exact State.treeOk_congr h ⟨rfl, rfl, rfl, rfl⟩
  | decode =>
    rcases exec_decode_cases ht with ⟨-, rfl⟩ | ⟨-, l, p, -, rfl⟩ | ⟨-, e, -, rfl⟩ <;>
      exact State.treeOk_congr h ⟨rfl, rfl, rfl, rfl⟩

/-- The two invariants that BUILD needs and gives. -/
def TableAndTreeOk (s : State) : Prop := TableOk s ∧ s.treeOk = true

/-- The two invariants are about FT, FT_K and the tree, and nothing else. -/
theorem TableAndTreeOk.congr {s u : State} (h : TableAndTreeOk s) (htable : sameTable s u) (htree : sameTree s u) :
    TableAndTreeOk u :=
  ⟨h.1.congr htable.1 htable.2, State.treeOk_congr h.2 htree⟩

/-- Settles O48, by the induction over a step, with the FrequencyTable invariant that BUILD needs. -/
theorem stepKeepsTheTree : Obligations.StepKeepsTheTree := by
  intro s t htable htree h
  have hs : TableAndTreeOk s := ⟨State.tableOk_iff.mp htable, htree⟩
  have ht : TableAndTreeOk t := step_keeps
    (fun _ _ _ _ _ _ h => h.congr ⟨rfl, rfl⟩ ⟨rfl, rfl, rfl, rfl⟩)
    (fun _ r _ h => by cases r <;> exact h.congr ⟨rfl, rfl⟩ ⟨rfl, rfl, rfl, rfl⟩)
    (fun _ sp _ _ _ h => by cases sp <;> exact h.congr ⟨rfl, rfl⟩ ⟨rfl, rfl, rfl, rfl⟩)
    (fun _ => ⟨tableOk_of_ftK_zero rfl, State.treeOk_iff.mpr (.inr ⟨rfl, rfl, rfl⟩)⟩)
    (fun _ _ h => h.congr ⟨rfl, rfl⟩ ⟨rfl, rfl, rfl, rfl⟩)
    (fun _ _ _ h he => ⟨h.1.exec he, treeOk_exec h.1 h.2 he⟩) hs h
  exact ht.2

/-! ### The pipeline's frequencies and the tree's order -/

theorem one_le_toNat_ftK {s : State} (h : s.ftK ≠ 0) : 1 ≤ s.ftK.toNat :=
  Nat.pos_of_ne_zero fun h0 => h (BitVec.eq_of_toNat_eq h0)

/-- Settles O52: the invariant of the merge loop gives the shape, and the order in which members were merged the
rest. -/
theorem builtTreeIsOrdered : Obligations.BuiltTreeIsOrdered := by
  intro s hok hne
  rw [State.tableOk_iff] at hok
  obtain ⟨t, ht, hbuilt⟩ := exec_build_builds (one_le_toNat_ftK hne) hok.fits
  have hk := hok.length_table_le
  refine ⟨t, ht, hbuilt.toNat_nodeCnt, hbuilt.toNat_root, fun j hj => State.nodeAt_of_written (hbuilt.read?_leaf hj),
    fun n hkn hn => ?_, fun m n hkm hmn hn => ?_⟩
  · obtain ⟨f, l, r, hnode, ⟨hl, hr, hlr, hfirst, -⟩, -⟩ := hbuilt.read?_internal hkn (hbuilt.toNat_nodeCnt ▸ hn)
    have horder := comesBefore_iff.mp (hfirst _ hr hlr.symm)
    obtain ⟨hl, -⟩ := mem_membersBefore.mp hl
    obtain ⟨hr, -⟩ := mem_membersBefore.mp hr
    rw [State.freqAt_nodes (hl.trans hn), State.freqAt_nodes (hr.trans hn)] at horder
    exact ⟨f, l, r, State.nodeAt_of_written hnode, hl, hr, by omega⟩
  · rw [← State.freqAt_nodes hn, ← State.freqAt_nodes (hmn.trans_lt hn)]
    exact hbuilt.inv.freqAt_mono hk hok.sum ((State.length_table s).trans_le hkm) hmn ((State.length_nodes t).symm ▸ hn)

/-- A non-empty input has a symbol, and so the table an entry. -/
theorem ftK_putTable_ne_zero {s : State} (h : s.symLen ≠ 0) :
    (s.putTable (countSymbols s.symbols)).succeed.ftK ≠ 0 := by
  intro h0
  have hk := toNat_ftK_putTable_countSymbols s s.symbols
  have hsum := sum_cnt_countSymbols s.length_symbols_lt
  rw [h0] at hk
  rw [List.eq_nil_of_length_eq_zero hk.symm, State.length_symbols] at hsum
  exact h (BitVec.eq_of_toNat_eq hsum.symm)

/-- After COUNT of a non-empty input BUILD makes a tree. -/
theorem exec_build_of_count {s t : State} (h : s.symLen ≠ 0) (ht : exec .count s = .next t) :
    TableOk t ∧ ∃ u, exec .build t = .next u ∧ BuiltFrom t u := by
  cases ht
  have hok := tableOk_putTable s
  exact ⟨hok, exec_build_builds (one_le_toNat_ftK (ftK_putTable_ne_zero h)) hok.fits⟩

/-- Settles O51: COUNT's counts sum to the input length, and so do the frequencies of PQ's last member, the root. -/
theorem frequencyIsConserved : Obligations.FrequencyIsConserved := by
  intro s hne
  obtain ⟨t, ht, -, -, hk, -, hsum⟩ := countListsSymbolsFirstSeen s
  obtain ⟨hok, u, hu, hbuilt⟩ := exec_build_of_count hne ht
  have htree := hbuilt.writtenTree hok
  have hroot := hbuilt.inv.freqAt_root hok.length_table_le hok.sum
  have hodd := htree.odd
  rw [State.freqAt_nodes (by rw [htree.root]; omega), hsum] at hroot
  exact ⟨t, u, ht, hu, hsum, hk, BitVec.eq_of_toNat_eq hroot⟩

end Sys2Proof.Machine
end

section
/-! No code that GENTAB makes is the beginning of another, since the codes are paths to distinct leaves of one tree;
every step keeps the CodeTable's invariant and the parameters (spec/10_state.md section 9). -/

namespace Sys2Proof.Machine

/-! ### Codes of a tree (R147, R252, R258) -/

/-- A path to a leaf does not go on to another leaf. -/
theorem CodeTree.eq_of_prefix {t : CodeTree} {a b : Byte × List Bool} (ha : a ∈ t.bindings) (hb : b ∈ t.bindings)
    (h : a.2 <+: b.2) : a = b := by
  induction t generalizing a b with
  | leaf i x => rw [List.mem_singleton.mp ha, List.mem_singleton.mp hb]
  | branch i l r ihl ihr =>
    simp only [bindings, List.mem_append, List.mem_map] at ha hb
    rcases ha with ⟨a, ha, rfl⟩ | ⟨a, ha, rfl⟩ <;> rcases hb with ⟨b, hb, rfl⟩ | ⟨b, hb, rfl⟩ <;>
      obtain ⟨hd, h⟩ := List.cons_prefix_cons.mp h
    · rw [ihl ha hb h]
    · cases hd
    · cases hd
    · rw [ihr ha hb h]

theorem CodeTree.one_le_length_bindings (t : CodeTree) : 1 ≤ t.bindings.length := by
  have := t.length_indices
  omega

/-- The tree of one leaf has the empty path. -/
theorem CodeTree.eq_nil_of_length_one {t : CodeTree} {b : Byte × List Bool} (h : t.bindings.length = 1)
    (hb : b ∈ t.bindings) : b.2 = [] := by
  cases t with
  | leaf i x => rw [List.mem_singleton.mp hb]
  | branch i l r =>
    have hl := l.one_le_length_bindings
    have hr := r.one_le_length_bindings
    simp only [bindings, List.length_append, List.length_map] at h
    omega

/-- What GENTAB leaves: the table of the tree that the nodes are. -/
theorem exec_gentab_tree {s t : State} (hv : s.treeValid = true) (hok : s.treeOk = true)
    (h : exec .gentab s = .next t) :
    ∃ c : CodeTree, c.height ≤ s.leafCnt - 1 ∧ c.height ≤ codeMax ∧ (c.bindings.map Prod.fst).Nodup ∧
      t = (s.putCodes (bindAll [] invalidTable c.bindings)).succeed := by
  obtain ⟨c, hc, hheight, hd, hn, -⟩ := (State.isTree_of_treeOk hv hok).exists_tree
  rw [exec_gentab_of_tree hv (hc.codeTable_eq hd)] at h
  cases h
  exact ⟨c, hheight, hd, hn, rfl⟩

/-- Settles O25: the tree is lower than the number of its leaves. -/
theorem codesAreShorterThanTheLeafCount : Obligations.CodesAreShorterThanTheLeafCount := by
  intro s t hv hok h x
  obtain ⟨c, hheight, hd, hn, rfl⟩ := exec_gentab_tree hv hok h
  rw [State.codeOf_putCodes, ← CtEntry.length_digits]
  rcases c.readCode_table hn x with ⟨p, hp, hread⟩ | ⟨-, hread⟩
  · have hlen := c.length_le_height hp
    rw [hread, CtEntry.digits_ofPath (hlen.trans hd)]
    exact hlen.trans hheight
  · rw [hread]
    exact Nat.zero_le _

/-- Settles O26: two codes are paths to two leaves. -/
theorem codesArePrefixFree : Obligations.CodesArePrefixFree := by
  intro s t hv hok h x y hxy hx hy hprefix
  obtain ⟨c, -, hd, hn, rfl⟩ := exec_gentab_tree hv hok h
  simp only [State.codeOf_putCodes] at hx hy hprefix
  have heq := c.eq_of_prefix ((c.readCode_table_iff hn hd x _).mp ⟨hx, rfl⟩)
    ((c.readCode_table_iff hn hd y _).mp ⟨hy, rfl⟩) hprefix
  exact hxy (congrArg Prod.fst heq)

/-! ### The CodeTable invariant (R56) -/

/-- What `State.codesOk` checks of the table. -/
def CodesOk (ct : Memory CtEntry) : Prop :=
  (∀ a ∈ ct, ∀ b ∈ ct, a.1 ≠ b.1 → ¬ a.2.digits <+: b.2.digits) ∧ (ct.length = 1 → ∀ c ∈ ct, c.2.len = 0)

theorem State.codesOk_iff {s : State} : s.codesOk = true ↔ CodesOk s.ct := by
  simp [State.codesOk, prefixFree, CodesOk, or_iff_not_imp_left, ← List.isPrefixOf_iff_prefix]

theorem codesOk_invalidTable : CodesOk invalidTable :=
  ⟨fun _ ha => absurd ha List.not_mem_nil, fun _ _ hc => absurd hc List.not_mem_nil⟩

theorem mem_bindAll {path : List Bool} {ct : Memory CtEntry} {bs : List (Byte × List Bool)} {c : Nat × CtEntry}
    (h : c ∈ bindAll path ct bs) : c ∈ ct ∨ ∃ b ∈ bs, c = (b.1.toNat, CtEntry.ofPath (path ++ b.2)) := by
  induction bs generalizing ct with
  | nil => exact .inl h
  | cons b bs ih =>
    rcases ih h with h | ⟨d, hd, rfl⟩
    · rw [writeCode_ofPath] at h
      rcases Memory.mem_write _ _ _ h with rfl | h
      · exact .inr ⟨b, List.mem_cons_self, rfl⟩
      · exact .inl h
    · exact .inr ⟨d, List.mem_cons_of_mem _ hd, rfl⟩

/-- The table of a tree's bindings meets the invariant. -/
theorem CodeTree.codesOk_table {t : CodeTree} (hn : (t.bindings.map Prod.fst).Nodup) (hd : t.height ≤ codeMax) :
    CodesOk (bindAll [] invalidTable t.bindings) := by
  have hentry : ∀ c ∈ bindAll [] invalidTable t.bindings, ∃ b ∈ t.bindings, c = (b.1.toNat, CtEntry.ofPath b.2) :=
    fun c hc => (mem_bindAll hc).resolve_left List.not_mem_nil
  have hdigits : ∀ b ∈ t.bindings, (CtEntry.ofPath b.2).digits = b.2 :=
    fun b hb => CtEntry.digits_ofPath ((t.length_le_height hb).trans hd)
  refine ⟨fun a ha b hb hab hprefix => ?_, fun hone c hc => ?_⟩
  · obtain ⟨p, hp, rfl⟩ := hentry a ha
    obtain ⟨q, hq, rfl⟩ := hentry b hb
    rw [hdigits p hp, hdigits q hq] at hprefix
    exact hab (by rw [t.eq_of_prefix hp hq hprefix])
  · obtain ⟨b, hb, rfl⟩ := hentry c hc
    rw [length_bindAll hn (fun x _ => rfl)] at hone
    rw [t.eq_nil_of_length_one ((Nat.zero_add _).symm.trans hone) hb]
    rfl

/-- Every command keeps the CodeTable invariant: GENTAB writes the table of a tree, or the empty one. -/
theorem codesOk_exec {i : Instr} {s t : State} (htree : s.treeOk = true) (h : CodesOk s.ct)
    (ht : exec i s = .next t) : CodesOk t.ct := by
  cases i with
  | nop =>
    cases ht
    exact h
  | clear =>
    cases ht
    exact codesOk_invalidTable
  | count =>
    cases ht
    exact h
  | build => rcases exec_build_cases ht with ⟨-, rfl⟩ | ⟨-, rfl⟩ <;> exact h
  | gentab =>
    cases hv : s.treeValid with
    | false =>
      rw [exec_gentab_of_noTree hv] at ht
      cases ht
      exact codesOk_invalidTable
    | true =>
      obtain ⟨c, -, hd, hn, rfl⟩ := exec_gentab_tree hv htree ht
      exact c.codesOk_table hn hd
  | encode => rcases exec_encode_cases ht with ⟨l, -, rfl⟩ | ⟨e, -, rfl⟩ <;> exact h
  | decode => rcases exec_decode_cases ht with ⟨-, rfl⟩ | ⟨-, l, p, -, rfl⟩ | ⟨-, e, -, rfl⟩ <;> exact h

/-! ### Steps that run no command -/

/-- What only commands and reset write: the CodeTable, and what nothing writes: the parameters. -/
def SameCodesOrReset (s t : State) : Prop := t.params = s.params ∧ (t.ct = s.ct ∨ t.ct = invalidTable)

theorem serve_sameCodesOrReset {s t : State} {e : HostEvent} (h : s.serve e = .handled t) : SameCodesOrReset s t := by
  rcases serve_handled_cases h with ⟨h', rfl⟩ | ⟨v, rfl⟩ | ⟨v, rfl⟩ | ⟨r, v, rfl⟩ | ⟨sp, i, v, -, rfl⟩ | rfl |
    ⟨w, rfl⟩ | ⟨i, n, rfl⟩
  · exact ⟨rfl, .inl rfl⟩
  · exact ⟨rfl, .inl rfl⟩
  · exact ⟨rfl, .inl rfl⟩
  · cases r <;> exact ⟨rfl, .inl rfl⟩
  · cases sp <;> exact ⟨rfl, .inl rfl⟩
  · exact ⟨rfl, .inr rfl⟩
  · exact ⟨rfl, .inl rfl⟩
  · exact ⟨rfl, .inl rfl⟩

theorem serveBusy_sameCodesOrReset (s : State) (e : HostEvent) : SameCodesOrReset s (s.serveBusy e) := by
  rcases serveBusy_cases s e with ⟨h', h⟩ | ⟨v, h⟩ | ⟨v, h⟩ | h <;> rw [h]
  · exact ⟨rfl, .inl rfl⟩
  · exact ⟨rfl, .inl rfl⟩
  · exact ⟨rfl, .inl rfl⟩
  · exact ⟨rfl, .inr rfl⟩

/-- A step runs a command on the state, but for the host's coming transactions, or it writes no code but by reset. -/
theorem step_command_or_sameCodesOrReset {s t : State} (h : step s = .next t) :
    (∃ i hs, exec i { s with host := hs } = .next t) ∨ SameCodesOrReset s t := by
  rcases step_cases h with ⟨i, -, he⟩ | ⟨e, hs, n, rfl⟩ | rfl | ⟨e, hs, hv⟩ | ⟨hs, i, he⟩
  · exact .inl ⟨i, s.host, he⟩
  · exact .inr (serveBusy_sameCodesOrReset { s with overlap := n, host := hs } e)
  · exact .inr ⟨rfl, .inl rfl⟩
  · exact .inr (serve_sameCodesOrReset (s := { s with host := hs }) hv)
  · exact .inl ⟨i, hs, he⟩

/-- Settles O49: GENTAB makes the table of a tree, CLEAR and reset the empty one, and nothing else writes it. -/
theorem stepKeepsTheCodeTable : Obligations.StepKeepsTheCodeTable := by
  intro s t htree hcodes h
  rw [State.codesOk_iff] at hcodes ⊢
  rcases step_command_or_sameCodesOrReset h with ⟨i, hs, he⟩ | ⟨-, hct | hct⟩
  · exact codesOk_exec (s := { s with host := hs }) htree hcodes he
  · rwa [hct]
  · rw [hct]
    exact codesOk_invalidTable

/-- Settles O59: neither a command nor a transaction writes the parameters, which carry the check of R12. -/
theorem stepKeepsTheParameters : Obligations.StepKeepsTheParameters := by
  intro s t h
  refine ⟨?_, t.params.digit0_ne_digit1⟩
  rcases step_command_or_sameCodesOrReset h with ⟨i, hs, he⟩ | ⟨hp, -⟩
  · obtain ⟨-, -, -, -, hp⟩ := exec_ends he
    exact hp
  · exact hp

end Sys2Proof.Machine
end

section
/-! The errors that a command can raise, on what condition and with what record, once for all commands; what a failed
command leaves, and that it fails again (spec/60_exceptions.md). -/

namespace Sys2Proof.Machine

/-! ### The errors (R200) -/

/-- The command, in the state, raises the error. -/
inductive Raises (s : State) : Instr → Raised → Prop
  | emptyInput (h : s.ftK = 0) : Raises s .build ⟨.emptyInput, 0, 0⟩
  | gentabNoTree (h : s.treeValid = false) : Raises s .gentab ⟨.noTree, 0, 0⟩
  | unknownSymbol {e : Raised} (h : encodeFrom s.params s.ct 0 s.symbols = .failed e) : Raises s .encode e
  | decodeNoTree (h : s.treeValid = false) : Raises s .decode ⟨.noTree, 0, 0⟩
  | badStream {e : Raised} (hv : s.treeValid = true) (h : decodeStream s = .failed e) : Raises s .decode e

/-- The command's own output object zeroed (R210); the commands that raise nothing have none. -/
def State.dropOutput (s : State) (i : Instr) : State :=
  match i with
  | .nop => s
  | .clear => s
  | .count => s
  | .build => s.dropTree
  | .gentab => s.putCodes invalidTable
  | .encode => s.dropStream
  | .decode => s.dropDecoded

theorem Raises.exec_eq {s : State} {i : Instr} {e : Raised} (h : Raises s i e) :
    exec i s = .next ((s.dropOutput i).raise e.code e.pos e.val) := by
  cases h with
  | emptyInput h => exact exec_build_of_empty h
  | gentabNoTree h => exact exec_gentab_of_noTree h
  | unknownSymbol h => exact exec_encode_of_failed h
  | decodeNoTree h => exact exec_decode_of_noTree h
  | badStream hv h => exact exec_decode_of_failed hv h

/-- A command that completes has ended in success, or in an error that it raises. -/
theorem exec_succeeds_or_raises {i : Instr} {s t : State} (h : exec i s = .next t) :
    (∃ u : State, t = u.succeed) ∨
      ∃ e, Raises s i e ∧ t = (s.dropOutput i).raise e.code e.pos e.val := by
  cases i with
  | nop => cases h; exact .inl ⟨_, rfl⟩
  | clear => cases h; exact .inl ⟨_, rfl⟩
  | count => cases h; exact .inl ⟨_, rfl⟩
  | build =>
    rcases exec_build_cases h with ⟨hk, rfl⟩ | ⟨-, rfl⟩
    · exact .inr ⟨_, .emptyInput hk, rfl⟩
    · exact .inl ⟨_, rfl⟩
  | gentab =>
    rcases exec_gentab_cases h with ⟨hv, rfl⟩ | ⟨-, ct, -, rfl⟩
    · exact .inr ⟨_, .gentabNoTree hv, rfl⟩
    · exact .inl ⟨_, rfl⟩
  | encode =>
    rcases exec_encode_cases h with ⟨l, -, rfl⟩ | ⟨e, he, rfl⟩
    · exact .inl ⟨_, rfl⟩
    · exact .inr ⟨e, .unknownSymbol he, rfl⟩
  | decode =>
    rcases exec_decode_cases h with ⟨hv, rfl⟩ | ⟨-, l, p, -, rfl⟩ | ⟨hv, e, he, rfl⟩
    · exact .inr ⟨_, .decodeNoTree hv, rfl⟩
    · exact .inl ⟨_, rfl⟩
    · exact .inr ⟨e, .badStream hv he, rfl⟩

/-- DECODE's two stream errors (R164, R165). -/
theorem decodeStream_failed {s : State} {e : Raised} (h : decodeStream s = .failed e) :
    e = ⟨.truncatedStream, s.encLen.toNat, 0⟩ ∨
      ∃ p < s.encLen.toNat, e = ⟨.malformedStream, p, s.encAt p⟩ ∧
        s.encAt p ≠ s.params.digit0 ∧ s.encAt p ≠ s.params.digit1 := by
  cases hn : s.nodeAt s.root.toNat with
  | leaf x f =>
    rw [decodeStream_of_leaf hn] at h
    cases h
  | internal f a b =>
    rw [decodeStream_of_internal hn] at h
    rcases decodeWalk_cases s s.encLen.toNat s.expCnt.toNat s.root.toNat 0 with
      ⟨l, pos, hdone, -⟩ | hfail | ⟨p, hfail, -, hp, hdigits⟩
    · rw [h] at hdone
      cases hdone
    · rw [h, Nat.zero_add] at hfail
      exact .inl (by injection hfail)
    · rw [h] at hfail
      exact .inr ⟨p, by omega, by injection hfail, hdigits⟩

/-- An error's code, and a position that fits ERR_POS. -/
theorem Raises.code_and_pos {s : State} {i : Instr} {e : Raised} (h : Raises s i e) :
    e.code ≠ .none ∧ e.pos < 2 ^ elenW := by
  cases h with
  | emptyInput h => simp
  | gentabNoTree h => simp
  | decodeNoTree h => simp
  | unknownSymbol h =>
    obtain ⟨hcode, -, hmem, -⟩ := encodeFrom_failed h
    obtain ⟨hlt, -⟩ := List.getElem?_eq_some_iff.mp hmem
    refine ⟨by simp [hcode], hlt.trans (s.length_symbols_lt.trans (by decide))⟩
  | badStream hv h =>
    have hlen := s.encLen.isLt
    rcases decodeStream_failed h with rfl | ⟨p, hp, rfl, -⟩
    · exact ⟨by simp, hlen⟩
    · exact ⟨by simp, hp.trans hlen⟩

/-! ### The record and the flags -/

/-- Settles O9: success zeroes the record, and every error has a code. -/
theorem everyCommandLeavesAZeroRecordOrACode : Obligations.EveryCommandLeavesAZeroRecordOrACode := by
  intro i s t h
  rcases exec_succeeds_or_raises h with ⟨u, rfl⟩ | ⟨e, he, rfl⟩
  · exact .inl (completed_succeed u)
  · obtain ⟨hcode, -⟩ := he.code_and_pos
    exact .inr ⟨rfl, rfl, hcode⟩

/-- Settles O10, by the errors that a command raises; a position is read back from ERR_POS because it fits. -/
theorem errorsComeOnlyFromTheirCommands : Obligations.ErrorsComeOnlyFromTheirCommands := by
  intro i s t ht
  rcases exec_succeeds_or_raises ht with ⟨u, rfl⟩ | ⟨e, he, rfl⟩
  · simp
  · obtain ⟨-, hpos⟩ := he.code_and_pos
    cases he with
    | emptyInput h => simp [h]
    | gentabNoTree h => simp [h]
    | decodeNoTree h => simp [h]
    | unknownSymbol h =>
      obtain ⟨hcode, -, hmem, hinvalid⟩ := encodeFrom_failed h
      simp only [State.raise_errCode, State.raise_errPos, State.raise_errVal, toNat_ofNat_of_lt hpos, hcode]
      simpa using ⟨hmem, hinvalid⟩
    | badStream hv h =>
      rcases decodeStream_failed h with rfl | ⟨p, hp, rfl, h0, h1⟩
      · simp
      · simp only [State.raise_errCode, State.raise_errPos, State.raise_errVal, toNat_ofNat_of_lt hpos]
        simp [hp, h0, h1]

/-- The record's check, by whether there is an error. -/
theorem State.recordOk_iff {s : State} :
    s.recordOk = true ↔ (s.err = true ↔ s.errCode ≠ .none) ∧ (s.err = true ∨ s.errPos = 0 ∧ s.errVal = 0) := by
  cases herr : s.err <;> simp [State.recordOk, herr]

theorem recordOk_exec {i : Instr} {s t : State} (h : exec i s = .next t) : t.recordOk = true := by
  rcases everyCommandLeavesAZeroRecordOrACode i s t h with ⟨-, herr, hcode, hpos, hval⟩ | ⟨-, herr, hcode⟩
  · simp [State.recordOk_iff, herr, hcode, hpos, hval]
  · simp [State.recordOk_iff, herr, hcode]

/-- Settles O46, by the induction over a step: a command and an illegal word write a consistent record. -/
theorem stepKeepsTheErrorRecord : Obligations.StepKeepsTheErrorRecord := by
  intro s t hs h
  have ht : t.recordOk = true := step_keeps (P := fun u => u.recordOk = true)
    (fun _ _ _ _ _ _ h => h)
    (fun _ r _ h => by cases r <;> exact h)
    (fun _ sp _ _ _ h => by cases sp <;> exact h)
    (fun _ => rfl)
    (fun _ _ _ => rfl)
    (fun _ _ _ _ => recordOk_exec) hs h
  exact ⟨(State.recordOk_iff.mp ht).1, ht⟩

/-- Settles O8, by the writes of each command. -/
theorem flagsAreWrittenOnlyByTheirCommands : Obligations.FlagsAreWrittenOnlyByTheirCommands := by
  intro i s t h
  cases i with
  | nop => cases h; simp
  | clear => cases h; simp
  | count => cases h; simp
  | build => rcases exec_build_cases h with ⟨-, rfl⟩ | ⟨-, rfl⟩ <;> simp
  | gentab => rcases exec_gentab_cases h with ⟨-, rfl⟩ | ⟨-, ct, -, rfl⟩ <;> simp
  | encode => rcases exec_encode_cases h with ⟨l, -, rfl⟩ | ⟨e, -, rfl⟩ <;> simp
  | decode => rcases exec_decode_cases h with ⟨-, rfl⟩ | ⟨-, l, p, -, rfl⟩ | ⟨-, e, -, rfl⟩ <;> simp

/-- Settles O24: GENTAB's one write, with a tree or without one, is the table. -/
theorem gentabTouchesOnlyTheCodeTable : Obligations.GentabTouchesOnlyTheCodeTable := by
  intro s t h
  rcases exec_gentab_cases h with ⟨-, rfl⟩ | ⟨-, ct, -, rfl⟩ <;>
    exact ⟨⟨rfl, rfl⟩, ⟨rfl, rfl⟩, ⟨rfl, rfl, rfl, rfl⟩, ⟨rfl, rfl⟩, ⟨rfl, rfl, rfl, rfl⟩, ⟨rfl, rfl, rfl⟩⟩

/-! ### A failed command issued again (R213) -/

/-- A failed command left alone what its error depends on. -/
theorem Raises.again {s : State} {i : Instr} {e : Raised} (h : Raises s i e) (hinput : s.inputWritten = true)
    (hstream : s.streamWritten = true) (htree : s.treeOk = true) :
    Raises ((s.dropOutput i).raise e.code e.pos e.val) i e := by
  cases h with
  | emptyInput h => exact .emptyInput h
  | gentabNoTree h => exact .gentabNoTree h
  | decodeNoTree h => exact .decodeNoTree h
  | unknownSymbol h => exact .unknownSymbol ((encodeFrom_symbols_congr hinput
      (s.dropStream.raise e.code e.pos e.val) rfl rfl rfl rfl).trans h)
  | badStream hv h =>
    exact .badStream hv ((decodeStream_congr_of_written hv htree hstream
      (s.dropDecoded.raise e.code e.pos e.val) rfl ⟨rfl, rfl, rfl, rfl⟩ ⟨rfl, rfl⟩ rfl).trans h)

/-- Settles O12: the error depends on nothing that the failed command has written. -/
theorem failedCommandFailsAgain : Obligations.FailedCommandFailsAgain := by
  intro i s t hinput hstream htree h herr
  rcases exec_succeeds_or_raises h with ⟨u, rfl⟩ | ⟨e, he, rfl⟩
  · cases herr
  · exact ⟨_, (he.again hinput hstream htree).exec_eq, rfl, rfl, rfl, rfl, rfl⟩

end Sys2Proof.Machine
end

section
/-! The decoder answers a command for its own word only (spec/30_encoding.md sections 1 and 2). -/

namespace Sys2Proof

theorem CommandWord.toByte_ofByte (w : Byte) : (CommandWord.ofByte w).toByte = w := by
  have hlow := CommandWord.toNat_op_ofByte w
  have hhigh := CommandWord.toNat_rsv_ofByte w
  apply BitVec.eq_of_toNat_eq
  rw [CommandWord.toByte, BitVec.toNat_append, hlow, hhigh, ← Nat.shiftLeft_add_eq_or_of_lt (by omega),
    Nat.shiftLeft_eq]
  omega

/-- The opcode map gives each command one opcode (R92). -/
theorem eq_opcode_of_commandOfOp {op : BitVec 4} {i : Instr} (h : commandOfOp op = .command i) : op = opcode i := by
  apply BitVec.eq_of_toNat_eq
  unfold commandOfOp at h
  split at h <;> cases h <;> assumption

/-- A word that decodes to a command is that command's word. -/
theorem encode_of_decode {w : Byte} {i : Instr} (h : decode w = .command i) : encode i = w := by
  by_cases hrsv : w.toNat / 16 = 0
  · have hop := h
    rw [decode_of_rsv_zero hrsv] at hop
    rw [encode, ← eq_opcode_of_commandOfOp hop, ← (CommandWord.rsv_ofByte_eq_zero_iff w).mpr hrsv]
    exact CommandWord.toByte_ofByte w
  · rw [decode_of_reserved hrsv] at h
    cases h

/-- Settles O4: the two directions of the round trip. -/
theorem decodeAndEncodeAgree : Obligations.DecodeAndEncodeAgree := by
  intro w i _
  refine ⟨encode_of_decode, ?_⟩
  rintro rfl
  exact decode_encode i

/-- Settles O5: three words are those of their commands, and the other two lie outside the opcode map. -/
theorem literalWordsDecode : Obligations.LiteralWordsDecode := by
  refine ⟨decode_encode .count, decode_encode .encode, ?_, decode_of_reserved (by decide),
    decode_of_unassigned (by decide) (by decide)⟩
  rw [decodeTableWord, show BitVec.ofNat 8 (0b00000011 % 2 ^ 8) = encode .build from rfl, decode_encode]

end Sys2Proof
end

section
/-! The command cycle at the step: what a CMD write comes to, and what a busy window, a reset and the end of a command
do (spec/45_control.md section 1, spec/20_memory.md section 4). -/

namespace Sys2Proof.Machine

/-! ### CMD writes on an idle engine (R180, R95) -/

theorem step_of_serve_runs {s t : State} {e : HostEvent} {i : Instr} {rest : List HostEvent} (hr : s.running = none)
    (hh : s.host = e :: rest) (hs : State.serve { s with host := rest } e = .runs i t) : step s = exec i t := by
  unfold step
  split
  · rename_i j hj
    rw [hr] at hj
    cases hj
  · rw [hh]
    simp only [hs]

/-- A CMD write that the host makes starts a command or ends in an error, by its word. -/
theorem State.serve_cmdWrite (s : State) (v n : Nat) {g : Option Nat} (hg : g = none ∨ s.err = false) :
    s.serve ⟨.regWrite 0 v, n, g⟩ = s.startCommand (BitVec.ofNat 8 v) n := by
  have hissue : s.issues ⟨.regWrite 0 v, n, g⟩ = true := by
    rcases hg with rfl | he
    · rfl
    · simp [State.issues, he]
  rw [State.serve, if_pos hissue]
  rfl

theorem State.startCommand_of_command {w : Byte} {i : Instr} (s : State) (n : Nat) (h : decode w = .command i) :
    s.startCommand w n =
      if n = 0 then .runs i s else .handled { s with running := some i, overlap := n } := by
  simp only [State.startCommand, h]

theorem State.startCommand_of_illegal {w : Byte} (s : State) (n : Nat) (h : ∀ i, decode w ≠ .command i) :
    s.startCommand w n = .handled (s.raiseIllegal w) := by
  unfold State.startCommand
  split
  · rename_i i hi
    exact absurd hi (h i)
  · rfl
  · rfl

/-- An illegal word ends at once in IllegalCommandError (R95). -/
theorem step_illegalWord {s : State} {v n : Nat} {rest : List HostEvent} (hr : s.running = none)
    (hh : s.host = ⟨.regWrite 0 v, n, none⟩ :: rest) (h : ∀ i, decode (BitVec.ofNat 8 v) ≠ .command i) :
    step s = .next (State.raiseIllegal { s with host := rest } (BitVec.ofNat 8 v)) :=
  step_of_serve_handled hr hh ((State.serve_cmdWrite _ v n (.inl rfl)).trans (State.startCommand_of_illegal _ n h))

/-- Settles O7: the error entry, whose writes are spelled out. -/
theorem illegalWordChangesOnlyTheRecord : Obligations.IllegalWordChangesOnlyTheRecord :=
  fun _ _ _ _ => step_illegalWord

/-- Settles O11: a failed command has zeroed its own output object and then entered the error; an illegal word has
only entered it. -/
theorem failedCommandsLeaveNoPartialResult : Obligations.FailedCommandsLeaveNoPartialResult := by
  refine ⟨fun i s t h herr => ?_, fun s t v n rest hr hh hillegal h => ?_⟩
  · rcases exec_succeeds_or_raises h with ⟨u, rfl⟩ | ⟨e, he, rfl⟩
    · cases herr
    · have hcodes : ∀ x, ((s.putCodes invalidTable).raise e.code e.pos e.val).codeOf x = ⟨false, 0, 0⟩ :=
        readCode_invalidTable
      cases he with
      | gentabNoTree h => simpa [State.dropOutput, sameTree, sameDecoded, sameHostSide] using hcodes
      | emptyInput h => simp [State.dropOutput, sameTree, sameDecoded, sameHostSide]
      | unknownSymbol h => simp [State.dropOutput, sameTree, sameDecoded, sameHostSide]
      | decodeNoTree h => simp [State.dropOutput, sameTree, sameDecoded, sameHostSide]
      | badStream hv h => simp [State.dropOutput, sameTree, sameDecoded, sameHostSide]
  · rw [step_illegalWord hr hh hillegal] at h
    cases h
    exact ⟨⟨rfl, rfl⟩, ⟨rfl, rfl⟩, ⟨rfl, rfl, rfl, rfl⟩, rfl, ⟨rfl, rfl⟩, ⟨rfl, rfl, rfl, rfl⟩, rfl⟩

/-! ### The busy window (R73, R188) -/

/-- A running command whose window is over, or for which the host has nothing more, completes. -/
theorem step_of_windowOver {s : State} {i : Instr} (hr : s.running = some i) (h : s.overlap = 0 ∨ s.host = []) :
    step s = exec i s := by
  have hnone : s.nextInWindow = none := by
    rcases h with h | h
    · rw [State.nextInWindow, h]
    · rw [State.nextInWindow, h]
      cases s.overlap <;> rfl
  simp only [step, hr, hnone]

theorem step_of_window {s : State} {i : Instr} {n : Nat} {e : HostEvent} {rest : List HostEvent}
    (hr : s.running = some i) (ho : s.overlap = n + 1) (hh : s.host = e :: rest) :
    step s = .next (State.serveBusy { s with overlap := n, host := rest } e) := by
  have hnext : s.nextInWindow = some (e, { s with overlap := n, host := rest }) := by
    rw [State.nextInWindow, ho, hh]
  simp only [step, hr, hnext]

/-- The word of a row of the opcode table, placed as a CMD write, decodes to the row's command. -/
theorem decode_of_decodeTableWord {w : Nat} {i : Instr} (h : decodeTableWord 8 w = some i) :
    decode (BitVec.ofNat 8 (w % 2 ^ 8)) = .command i := by
  unfold decodeTableWord at h
  split at h <;> cases h
  assumption

/-- A CMD write without a busy window runs its command. -/
theorem step_command {s : State} {v : Nat} {i : Instr} {g : Option Nat} {rest : List HostEvent}
    (hr : s.running = none) (hh : s.host = ⟨.regWrite 0 v, 0, g⟩ :: rest) (hg : g = none ∨ s.err = false)
    (hi : decode (BitVec.ofNat 8 v) = .command i) : step s = exec i { s with host := rest } :=
  step_of_serve_runs hr hh
    ((State.serve_cmdWrite { s with host := rest } v 0 hg).trans (State.startCommand_of_command _ 0 hi))

/-- Settles O6, by the branches of a step. -/
theorem stepRunsTheDecodedCommand : Obligations.StepRunsTheDecodedCommand :=
  ⟨fun _ _ _ _ _ => step_command,
    fun s v n _ _ rest hr hh hg hi => step_of_serve_handled hr hh
      ((State.serve_cmdWrite { s with host := rest } v (n + 1) hg).trans (State.startCommand_of_command _ (n + 1) hi)),
    fun _ _ => step_of_windowOver,
    fun _ _ _ hi => step_command rfl rfl (.inl rfl) (decode_of_decodeTableWord hi)⟩

/-- A transaction in the busy window, other than reset, changes nothing but what the host has read. -/
theorem State.serveBusy_of_ne_reset (s : State) {e : HostEvent} (h : e.txn ≠ .reset) :
    ∃ d k, s.serveBusy e = { s with host := s.host.drop (s.leftOutWith e), readData := d, epoch := k } := by
  by_cases hissue : s.issues e = true
  · rw [State.serveBusy, if_pos hissue, State.leftOutWith, if_pos hissue]
    cases htxn : e.txn with
    | regRead k =>
      simp only [State.regRead_eq]
      split <;> exact ⟨_, _, rfl⟩
    | regWrite k v => exact ⟨_, _, rfl⟩
    | spaceRead id i => exact ⟨_, _, rfl⟩
    | spaceWrite id i v => exact ⟨_, _, rfl⟩
    | reset => exact absurd htxn h
  · rw [State.serveBusy, if_neg hissue]
    exact ⟨_, _, rfl⟩

theorem State.serveBusy_statusRead (s : State) {e : HostEvent} (htxn : e.txn = .regRead 1) (hg : e.ifNoError = none) :
    s.serveBusy e = s.answer (.reg s.statusWord.toNat) := by
  simp [State.serveBusy, State.issues, hg, htxn, State.regRead_eq, Reg.index, State.regValue, Reg.ofIndex,
    State.readReg]

/-- STATUS while a command runs: BUSY is 1 (R22). -/
theorem State.statusWord_of_running {s : State} {i : Instr} (h : s.running = some i) :
    s.statusWord.toNat % 2 = 1 := by
  simp only [State.statusWord, State.busy, h, Option.isSome_some, Bool.toNat_true, BitVec.toNat_ofNat]
  omega

/-- Settles O40: the window's step serves the transaction, which changes what the host has read. -/
theorem busyWindowRefusesTransactions : Obligations.BusyWindowRefusesTransactions := by
  intro s i n e rest hr ho hh hreset
  have hstep := step_of_window hr ho hh
  obtain ⟨d, k, hserve⟩ := State.serveBusy_of_ne_reset { s with overlap := n, host := rest } hreset
  refine ⟨_, hstep, ?_, fun htxn hg => ?_⟩
  · rw [hserve]
    rfl
  · rw [State.serveBusy_statusRead _ htxn hg]
    exact ⟨rfl, State.statusWord_of_running hr⟩

/-- Settles O42: idle or in the busy window, the step serves the reset input. -/
theorem resetInputAbortsAnyCommand : Obligations.ResetInputAbortsAnyCommand :=
  ⟨fun _ _ _ hr hh => step_of_serve_handled hr hh rfl, fun _ _ _ _ _ hr ho hh => step_of_window hr ho hh⟩

/-- A write or a STATUS read in the busy window that leaves out no other changes what the host has read, at most. -/
theorem State.serveBusy_of_harmless {s : State} {e : HostEvent} (h : harmless e = true) (hl : s.leftOutWith e = 0) :
    ∃ d, s.serveBusy e = { s with readData := d } := by
  by_cases hissue : s.issues e = true
  · rw [State.serveBusy, if_pos hissue]
    cases htxn : e.txn with
    | regRead k =>
      have hk : k = Reg.status.index := by simpa [harmless, htxn] using h
      simp only [State.regRead_eq, if_pos hk]
      exact ⟨_, rfl⟩
    | regWrite k v => exact ⟨_, rfl⟩
    | spaceRead id i => simp [harmless, htxn] at h
    | spaceWrite id i v => exact ⟨_, rfl⟩
    | reset => simp [harmless, htxn] at h
  · rw [State.serveBusy, if_neg hissue, State.leaveOut, hl]
    exact ⟨s.readData, rfl⟩

theorem run_one (s : State) : Host.Core.run core 1 s = step s := by
  simp only [Host.Core.run, core]
  cases step s <;> rfl

/-- A window of harmless transactions passes, and the command then runs on the state as it was. -/
theorem run_harmlessWindow (s : State) (i : Instr) (window rest : List HostEvent) (d : Option HostValue)
    (h : ∀ e ∈ window, harmless e = true ∧ s.leftOutWith e = 0) :
    ∃ d', Host.Core.run core (window.length + 1)
        (s.withHostSide (some i) window.length (window ++ rest) d) =
      exec i (s.withHostSide (some i) 0 rest d') := by
  induction window generalizing d with
  | nil => exact ⟨d, (run_one _).trans (step_of_windowOver rfl (.inl rfl))⟩
  | cons e window ih =>
    obtain ⟨⟨he, hl⟩, hrest⟩ := List.forall_mem_cons.mp h
    obtain ⟨d1, hserve⟩ := State.serveBusy_of_harmless
      (s := s.withHostSide (some i) window.length (window ++ rest) d) he hl
    have hstep : step (s.withHostSide (some i) (window.length + 1) (e :: (window ++ rest)) d) =
        .next (s.withHostSide (some i) window.length (window ++ rest) d1) :=
      (step_of_window rfl rfl rfl).trans (congrArg _ hserve)
    obtain ⟨d2, hrun⟩ := ih d1 hrest
    exact ⟨d2, (run_succ hstep _).trans hrun⟩

/-- Settles O41, by induction on the window. -/
theorem busyWindowChangesNoResult : Obligations.BusyWindowChangesNoResult := by
  intro s i window rest hr ho hh h
  have hs : s = s.withHostSide (some i) window.length (window ++ rest) s.readData := by
    rw [State.withHostSide, ← hr, ← ho, ← hh]
  obtain ⟨d, hrun⟩ := run_harmlessWindow s i window rest s.readData h
  rw [← hs, State.withHostSide, ← hr] at hrun
  exact ⟨d, hrun⟩

end Sys2Proof.Machine
end

section
/-! What the pseudo-statements of the host script come to: LOADSYM, COMPRESS and EXPAND (spec/30_encoding.md
section 4). -/

namespace Sys2Proof.Machine

/-! ### Runs of an idle engine -/

/-- A script given to an idle engine with nothing to do is all that the host has to make. -/
theorem State.withScript_of_idle {s : State} (hr : s.running = none) (hh : s.host = []) (script : List Statement) :
    s.withScript script = s.withHostSide none s.overlap (script.flatMap expansion) s.readData := by
  rw [State.withScript, State.withHostSide, hh, hr, List.nil_append]

/-- Some run of at most `n` steps goes from one state to the other. -/
def RunsWithin (n : Nat) (s t : State) : Prop := ∃ k ≤ n, Host.Core.run core k s = .next t

theorem RunsWithin.trans {n m : Nat} {s t u : State} (h : RunsWithin n s t) (h' : RunsWithin m t u) :
    RunsWithin (n + m) s u := by
  obtain ⟨k, hk, hrun⟩ := h
  obtain ⟨k', hk', hrun'⟩ := h'
  exact ⟨k + k', Nat.add_le_add hk hk', (run_add hrun k').trans hrun'⟩

theorem runsWithin_of_step {s t : State} (h : step s = .next t) : RunsWithin 1 s t :=
  ⟨1, le_rfl, (run_one s).trans h⟩

/-- A run that has come to an idle engine with nothing to do stays there. -/
theorem RunsWithin.run_eq {n : Nat} {s t : State} (h : RunsWithin n s t) (hr : t.running = none) (hh : t.host = []) :
    Host.Core.run core n s = .next t := by
  obtain ⟨k, hk, hrun⟩ := h
  obtain ⟨m, rfl⟩ := Nat.exists_eq_add_of_le hk
  exact (run_add hrun m).trans (run_idle hr hh m)

/-! ### LOADSYM (R98) -/

/-- The writes of a text to SYM, one step each. -/
theorem run_wmEvents_sym {s : State} {base : Nat} {text : List Byte} {rest : List HostEvent} (hr : s.running = none)
    (hh : s.host = wmEvents .sym base text ++ rest) (hlen : base + text.length ≤ Config.seqMax) :
    Host.Core.run core text.length s = .next { s with host := rest, sym := s.sym.writeSeq base text } := by
  induction text generalizing s base with
  | nil =>
    simp only [wmEvents, List.nil_append] at hh
    rw [← hh]
    rfl
  | cons v text ih =>
    rw [List.length_cons] at hlen
    have hi : base < Space.sym.size := Nat.lt_of_lt_of_le (by omega) hlen
    exact (run_succ (step_spaceWrite_of_lt hr hi hh) _).trans
      (ih (s := State.writeElement _ .sym base v) hr rfl (by omega))

theorem step_wrSymLen {s : State} {v : Nat} {rest : List HostEvent} (hr : s.running = none)
    (hh : s.host = wrEvent .symLen v 0 :: rest) :
    step s = .next { s with host := rest, symLen := BitVec.ofNat lenW v } :=
  step_regWrite (k := Reg.symLen.index) hr (by decide) hh

/-- Settles O43: the writes to SYM, and then the write of SYM_LEN. -/
theorem loadSymMakesTheInputSequence : Obligations.LoadSymMakesTheInputSequence := by
  intro s text hr hh hlen
  have hexpand : (s.withScript [.loadSym text]).host =
      wmEvents .sym 0 text ++ [wrEvent .symLen text.length 0] := by
    simp [State.withScript, hh, expansion]
  have hwrites := run_wmEvents_sym (s := s.withScript [.loadSym text]) hr hexpand ((Nat.zero_add _).trans_le hlen)
  have hrun := (run_add hwrites 1).trans ((run_one _).trans (step_wrSymLen (by exact hr) rfl))
  refine ⟨{ s with sym := s.sym.writeSeq 0 text, symLen := BitVec.ofNat lenW text.length }, ?_, ?_, rfl⟩
  · rw [hrun, ← hh]
    rfl
  · have hfit : text.length < 2 ^ lenW := Nat.lt_succ_of_le hlen
    simp only [State.symbols, toNat_ofNat_of_lt hfit]
    exact Memory.range_map_writeSeq s.sym text _

/-! ### COMPRESS and EXPAND (R98) -/

/-- A command statement that is issued, with what the host has to make after it. -/
theorem runsWithin_command {s t : State} {i : Instr} {g : Option Nat} (hg : g = none ∨ s.err = false)
    (ht : exec i s = .next t) (n o : Nat) (h : List HostEvent) (d : Option HostValue) :
    RunsWithin (n + 3) (s.withHostSide none o (commandWrite i n g :: (List.replicate (n + 1) statusRead ++ h)) d)
      (t.withHostSide none 0 h (some t.idleStatus)) :=
  run_commandStatement hg ht n o h d

/-- A command statement with a condition that holds (R98). -/
theorem runsWithin_commandIfNoError {s t : State} {i : Instr} (he : s.err = false) (ht : exec i s = .next t)
    (n o : Nat) (h : List HostEvent) (d : Option HostValue) :
    RunsWithin (n + 3)
      (s.withHostSide none o (commandWrite i n (some (n + 1)) :: (List.replicate (n + 1) statusRead ++ h)) d)
      (t.withHostSide none 0 h (some t.idleStatus)) :=
  runsWithin_command (.inr he) ht n o h d

/-- A command statement that is not issued, with what the host has to make after it. -/
theorem runsWithin_leftOut {s : State} (he : s.err = true) (i : Instr) (n o : Nat) (h : List HostEvent)
    (d : Option HostValue) :
    RunsWithin 1
      (s.withHostSide none o (commandWrite i n (some (n + 1)) :: (List.replicate (n + 1) statusRead ++ h)) d)
      (s.withHostSide none o h d) := by
  have hstep := step_commandLeftOut he i n (n + 1) o (List.replicate (n + 1) statusRead ++ h) d
  rw [List.drop_left' (by simp)] at hstep
  exact runsWithin_of_step hstep

/-- An idle engine with nothing to do, whose STATUS the host has read. -/
theorem State.withHostSide_idle {t : State} (hr : t.running = none) (ho : t.overlap = 0) (hh : t.host = []) :
    t.withHostSide none 0 [] (some t.idleStatus) = { t with readData := some (.reg t.statusWord.toNat) } := by
  have hstatus : t.idleStatus = .reg t.statusWord.toNat := by
    simp only [State.idleStatus, State.statusWord, State.busy, State.withHostSide, hr]
  rw [hstatus, State.withHostSide, hr, ho, hh]

/-- The state that a script's last command leaves, its STATUS read, is where the run stays. -/
theorem RunsWithin.run_eq_statusRead {n : Nat} {s u t : State} {i : Instr}
    (h : RunsWithin n s (t.withHostSide none 0 [] (some t.idleStatus))) (ht : exec i u = .next t) (hh : u.host = []) :
    Host.Core.run core n s = .next { t with readData := some (.reg t.statusWord.toNat) } := by
  obtain ⟨hr, ho, hhost, -⟩ := exec_ends ht
  rw [← State.withHostSide_idle hr ho (hhost.trans hh)]
  exact h.run_eq rfl rfl

/-- The transactions of COMPRESS, as each command's write and its STATUS reads. -/
theorem expansion_compress (a b c d : Nat) :
    [Statement.compress a b c d].flatMap expansion =
      commandWrite .count a none :: (List.replicate (a + 1) statusRead ++
        (commandWrite .build b (some (b + 1)) :: (List.replicate (b + 1) statusRead ++
          (commandWrite .gentab c (some (c + 1)) :: (List.replicate (c + 1) statusRead ++
            (commandWrite .encode d (some (d + 1)) :: (List.replicate (d + 1) statusRead ++ []))))))) := by
  simp [expansion, commandEvents_eq, commandEventsIfNoError_eq]

/-- COUNT raises nothing, so BUILD is issued: the first half of COMPRESS. -/
theorem runsWithin_countBuild {s s1 s2 : State} (h1 : exec .count s = .next s1) (h2 : exec .build s1 = .next s2)
    (a b o : Nat) (h : List HostEvent) (d : Option HostValue) :
    RunsWithin (a + 3 + (b + 3))
      (s.withHostSide none o (commandWrite .count a none :: (List.replicate (a + 1) statusRead ++
        (commandWrite .build b (some (b + 1)) :: (List.replicate (b + 1) statusRead ++ h)))) d)
      (s2.withHostSide none 0 h (some s2.idleStatus)) := by
  have herr : s1.err = false := by
    cases h1
    rfl
  exact (runsWithin_command (.inl rfl) h1 a o _ d).trans (runsWithin_commandIfNoError herr h2 b 0 h _)

/-- Settles O57: two statements run, and the next two are left out after BUILD's error, or run one after the other. -/
theorem compressIssuesItsCommandsUntilOneFails : Obligations.CompressIssuesItsCommandsUntilOneFails := by
  refine ⟨fun s s1 s2 a b c d hr hh h1 h2 herr => ?_, fun s s1 s2 s3 s4 a b c d hr hh h1 h2 herr h3 h4 => ?_⟩
  all_goals
    obtain ⟨-, -, hhost1, -⟩ := exec_ends h1
    obtain ⟨-, -, hhost2, -⟩ := exec_ends h2
    rw [State.withScript_of_idle hr hh, expansion_compress]
  · have hrun := ((runsWithin_countBuild h1 h2 a b s.overlap _ s.readData).trans
      (runsWithin_leftOut herr .gentab c 0 _ _)).trans (runsWithin_leftOut herr .encode d 0 [] _)
    rw [show a + b + 8 = a + 3 + (b + 3) + 1 + 1 by omega]
    exact hrun.run_eq_statusRead h2 (hhost1.trans hh)
  · obtain ⟨-, -, hhost3, -⟩ := exec_ends h3
    have herr3 : s3.err = false := by
      rcases exec_gentab_cases h3 with ⟨hv, -⟩ | ⟨-, ct, -, rfl⟩
      · rcases exec_build_cases h2 with ⟨-, rfl⟩ | ⟨-, rfl⟩
        · cases herr
        · cases hv
      · rfl
    have hrun := ((runsWithin_countBuild h1 h2 a b s.overlap _ s.readData).trans
      (runsWithin_commandIfNoError herr h3 c 0 _ _)).trans (runsWithin_commandIfNoError herr3 h4 d 0 [] _)
    rw [show a + b + c + d + 12 = a + 3 + (b + 3) + (c + 3) + (d + 3) by omega]
    exact hrun.run_eq_statusRead h4 (hhost3.trans (hhost2.trans (hhost1.trans hh)))

theorem step_wrExpCnt (s : State) (v o : Nat) (h : List HostEvent) (d : Option HostValue) :
    step (s.withHostSide none o (wrEvent .expCnt v 0 :: h) d) =
      .next (State.withHostSide { s with expCnt := BitVec.ofNat lenW v } none o h d) :=
  step_regWrite (k := Reg.expCnt.index) rfl (by decide) rfl

/-- Settles O58: the write of EXP_CNT, and then the command statement. -/
theorem expandDecodesWithTheGivenCount : Obligations.ExpandDecodesWithTheGivenCount := by
  intro s t n polls hr hh ht
  rw [ofNat_mod_two_pow] at ht
  have hexpand : [Statement.expand n polls].flatMap expansion =
      wrEvent .expCnt n 0 :: commandWrite .decode polls none :: (List.replicate (polls + 1) statusRead ++ []) := by
    simp [expansion, commandEvents_eq]
  have hrun := (runsWithin_of_step (step_wrExpCnt s n s.overlap _ s.readData)).trans
    (runsWithin_command (.inl rfl) ht polls s.overlap [] s.readData)
  rw [State.withScript_of_idle hr hh, hexpand, show polls + 4 = 1 + (polls + 3) by omega]
  exact hrun.run_eq_statusRead ht hh

end Sys2Proof.Machine
end

section
/-! From a state that meets the invariants every step answers a next state that meets them (spec/45_control.md
section 5, spec/70_reset_and_hazards.md section 2). -/

namespace Sys2Proof.Machine

/-- Settles O44: no register holds a number, and no space an element. -/
theorem resetMeetsTheInvariants : Obligations.ResetMeetsTheInvariants := ⟨rfl, rfl, rfl, rfl, rfl⟩

/-- Every command completes where the tree invariant holds: the one fault needs a path longer than any tree has. -/
theorem exec_completes {s : State} (h : s.treeOk = true) (i : Instr) : ∃ t, exec i s = .next t := by
  by_contra hstop
  obtain ⟨-, hv, hnone⟩ := exec_stops (not_exists.mp hstop)
  obtain ⟨c, hc, -, hd, -⟩ := (State.isTree_of_treeOk hv h).exists_tree
  rw [hc.codeTable_eq hd] at hnone
  cases hnone

/-- A step answers a next state if the command that it may run does. -/
theorem step_completes {s : State} (h : ∀ i hs, ∃ t, exec i { s with host := hs } = .next t) :
    ∃ t, step s = .next t := by
  unfold step
  split
  · rename_i i hi
    split
    · exact ⟨_, rfl⟩
    · exact h i s.host
  · split
    · exact ⟨_, rfl⟩
    · split
      · exact ⟨_, rfl⟩
      · rename_i hserve
        obtain ⟨rfl, -⟩ := serve_runs hserve
        exact h _ _

/-- Settles O50: the step lemmas of the five invariants, and that no command stops where the tree invariant holds. -/
theorem everyStepCompletesAndKeepsTheInvariants : Obligations.EveryStepCompletesAndKeepsTheInvariants := by
  intro s hinv
  obtain ⟨hmemory, hrecord, htable, htree, hcodes⟩ := hinv
  obtain ⟨t, ht⟩ := step_completes (s := s) fun i hs => exec_completes (s := { s with host := hs }) htree i
  exact ⟨t, ht, stepKeepsTheCanonicalMemory s t hmemory ht, (stepKeepsTheErrorRecord s t hrecord ht).2,
    stepKeepsTheFrequencyTable s t htable ht, stepKeepsTheTree s t htable htree ht,
    stepKeepsTheCodeTable s t htree hcodes ht⟩

end Sys2Proof.Machine
end

section
/-! What ENCODE makes from the table of a tree, DECODE reads back with the same tree: the round trips of the pipeline
(spec/46_invariants.md, R253). -/

namespace Sys2Proof.Machine

/-! ### DECODE of a stream of paths -/

theorem leadsTo_of_leaf {s : State} {i : Nat} {x y : Byte} {f : LenWord} {p : List Bool} (hn : s.nodeAt i = .leaf x f)
    (h : leadsTo s i p y = true) : p = [] ∧ x = y := by
  cases p with
  | nil => exact ⟨rfl, by simpa [leadsTo, hn] using h⟩
  | cons d p => simp [leadsTo, hn] at h

/-- A stream that is nothing but the paths of EXP_CNT leaves is decoded whole, whether the root is a Leaf or
Internal. -/
theorem decodeStream_of_coded {s : State} {coded : List (Byte × List Bool)} (hlead : leadsToAll s coded = true)
    (hlen : coded.length = s.expCnt.toNat) (hstream : s.stream = streamOf s.params coded) :
    decodeStream s = .done (coded.map Prod.fst) s.encLen.toNat := by
  rw [← s.length_stream, hstream]
  cases hn : s.nodeAt s.root.toNat with
  | leaf x f =>
    have hcoded : ∀ c ∈ coded, c.2 = [] ∧ x = c.1 := fun c hc => leadsTo_of_leaf hn (List.all_eq_true.mp hlead c hc)
    have hsymbols : coded.map Prod.fst = List.replicate s.expCnt.toNat x :=
      List.eq_replicate_iff.mpr ⟨by rw [List.length_map, hlen],
        List.forall_mem_map.mpr fun c hc => (hcoded c hc).2.symm⟩
    have hempty : streamOf s.params coded = [] :=
      List.flatMap_eq_nil_iff.mpr fun c hc => by rw [(hcoded c hc).1, List.map_nil]
    rw [decodeStream_of_leaf hn, hsymbols, hempty]
    rfl
  | internal f l r =>
    exact decodeStream_coded_done (rest := []) (by simp only [staysInside, hn]) hlead hlen
      (by rw [hstream, List.append_nil])

/-- The paths of a tree are the same in every state with that tree. -/
theorem IsTree.leadsTo_congr {s u : State} (h : IsTree s) (hn : ∀ i < s.nodeCnt.toNat, u.nodeAt i = s.nodeAt i)
    {i : Nat} (hi : i < s.nodeCnt.toNat) (p : List Bool) (x : Byte) : leadsTo u i p x = leadsTo s i p x := by
  induction p generalizing i with
  | nil => simp only [leadsTo, hn i hi]
  | cons d p ih =>
    cases hnode : s.nodeAt i with
    | leaf y f => simp only [leadsTo, hn i hi, hnode]
    | internal f l r =>
      have hchild : ∀ c ∈ [l.toNat, r.toNat], c < s.nodeCnt.toNat := fun c hc =>
        (h.childrenAt_lt hi (by simpa only [State.childrenAt, hnode, childrenOf] using hc)).trans hi
      simp only [leadsTo, hn i hi, hnode]
      exact ih (hchild _ (by cases d <;> simp))

theorem IsTree.root_lt {s : State} (h : IsTree s) : s.root.toNat < s.nodeCnt.toNat := by
  have hodd := h.odd
  rw [h.root]
  omega

/-- The symbols of an input, each with its code. -/
def codedInput (s : State) (xs : List Byte) : List (Byte × List Bool) := xs.map (fun x => (x, (s.codeOf x).digits))

/-- The paths from the root depend on the tree alone, once it has been written. -/
theorem leadsTo_root_congr {s u : State} (hv : s.treeValid = true) (hok : s.treeOk = true) (h : sameTree s u)
    (p : List Bool) (x : Byte) : leadsTo u u.root.toNat p x = leadsTo s s.root.toNat p x := by
  obtain ⟨hnode, -, hroot, -⟩ := h
  have hT := State.isTree_of_treeOk hv hok
  rw [hroot]
  exact hT.leadsTo_congr (fun i => State.nodeAt_congr hv hok hnode) hT.root_lt p x

/-- Settles O56: the stream is the concatenation of codes, which are paths in the tree; DECODE follows them. -/
theorem roundTripUnderReuse : Obligations.RoundTripUnderReuse := by
  intro s s1 hv hok h1 m n _ hvalid
  obtain ⟨t, ht, -, hcode, -⟩ := gentabBindsEachLeafToItsPath s hv hok
  rw [h1] at ht
  cases ht
  obtain ⟨-, -, ⟨hnode1, hcnt1, hroot1, hvalid1⟩, -⟩ := gentabTouchesOnlyTheCodeTable s s1 h1
  obtain ⟨s2, h2, hdone2, hstream, -⟩ := encodeConcatenatesTheCodes { s1 with sym := m, symLen := n } hvalid
  obtain ⟨-, -, ⟨hnode2, hcnt2, hroot2, hvalid2⟩, -⟩ := encodeTouchesOnlyTheStream _ _ h2
  obtain ⟨-, -, -, -, hparams⟩ := exec_ends h2
  have htree : sameTree s { s2 with expCnt := n } :=
    ⟨hnode2.trans hnode1, hcnt2.trans hcnt1, hroot2.trans hroot1, hvalid2.trans hvalid1⟩
  have hlead : leadsToAll { s2 with expCnt := n }
      (codedInput s1 (State.symbols { s1 with sym := m, symLen := n })) = true := by
    refine List.all_eq_true.mpr (List.forall_mem_map.mpr fun x hx => ?_)
    rw [leadsTo_root_congr hv hok htree]
    exact (hcode x _).mp ⟨hvalid x hx, rfl⟩
  have hlen : (codedInput s1 (State.symbols { s1 with sym := m, symLen := n })).length = n.toNat := by
    simp [codedInput]
  have hstream' : s2.stream =
      streamOf s2.params (codedInput s1 (State.symbols { s1 with sym := m, symLen := n })) := by
    rw [hstream, hparams, streamOf, codedInput, List.flatMap_map]
    rfl
  have hdone := decodeStream_of_coded hlead hlen hstream'
  refine ⟨s2, _, h2, exec_decode_of_done (hvalid2.trans (hvalid1.trans hv)) hdone, hdone2,
    completed_succeed _, ?_, ?_, ?_⟩
  · rw [State.decoded_putDecoded _ _ (decodeStream_done_lt hdone), codedInput, List.map_map]
    exact List.map_id _
  · exact BitVec.eq_of_toNat_eq (toNat_decPos_putDecoded hdone)
  · simp [State.leavesDigits]

/-! ### The pipeline (R253) -/

/-- The tree's keys, in the order of `visit`, are the symbols of its leaves. -/
theorem IsTree.keys_perm {s : State} (h : IsTree s) {t : CodeTree} (ht : Subtree s s.root.toNat t)
    (hle : ∀ k ∈ t.indices, k ≤ s.root.toNat) : (t.bindings.map Prod.fst).Perm (leafSymbols s.nodes) := by
  rw [ht.keys_bindings]
  exact ((h.indices_perm_range ht hle).map s.nodeAt).filterMap _

/-- Every leaf's symbol has a path that leads to it (R147). -/
theorem IsTree.exists_path {s : State} (h : IsTree s) {x : Byte} (hx : x ∈ leafSymbols s.nodes) :
    ∃ p, leadsTo s s.root.toNat p x = true := by
  obtain ⟨t, ht, -, hle⟩ := h.exists_subtree h.root_lt
  obtain ⟨⟨y, p⟩, hp, rfl⟩ := List.mem_map.mp ((h.keys_perm ht hle).mem_iff.mpr hx)
  exact ⟨p, ht.mem_bindings.mp hp⟩

/-- A run of COUNT, BUILD and GENTAB on a non-empty input: each completes, and the tables and the tree are what their
statements say. -/
structure Pipeline (s s1 s2 s3 : State) : Prop where
  count : exec .count s = .next s1
  build : exec .build s1 = .next s2
  gentab : exec .gentab s2 = .next s3
  tableOk : TableOk s1
  keys : s1.table.map FtEntry.sym = s.symbols.eraseDups
  counts : ∀ e ∈ s1.table, e.cnt.toNat = s.symbols.count e.sym
  built : BuiltFrom s1 s2
  counted : completed s1
  gentabbed : completed s3
  codes : ∀ (x : Byte) (p : List Bool),
    ((s3.codeOf x).valid = true ∧ (s3.codeOf x).digits = p) ↔ leadsTo s2 s2.root.toNat p x = true

theorem exists_pipeline {s : State} (h : s.symLen ≠ 0) : ∃ s1 s2 s3, Pipeline s s1 s2 s3 := by
  obtain ⟨s1, h1, hcounted, hkeys, -, hcounts, -⟩ := countListsSymbolsFirstSeen s
  obtain ⟨hok, s2, h2, hbuilt⟩ := exec_build_of_count h h1
  obtain ⟨s3, h3, hgentabbed, hcodes, -⟩ := gentabBindsEachLeafToItsPath s2 hbuilt.valid (hbuilt.treeOk hok)
  exact ⟨s1, s2, s3, h1, h2, h3, hok, hkeys, fun e he => (hcounts e he).1, hbuilt, hcounted, hgentabbed, hcodes⟩

/-- The commands answer one state each, so any run is the one of `exists_pipeline`. -/
theorem pipeline_of_exec {s s1 s2 s3 : State} (h : s.symLen ≠ 0) (h1 : exec .count s = .next s1)
    (h2 : exec .build s1 = .next s2) (h3 : exec .gentab s2 = .next s3) : Pipeline s s1 s2 s3 := by
  obtain ⟨t1, t2, t3, hp⟩ := exists_pipeline h
  obtain rfl : t1 = s1 := by simpa [h1] using hp.count.symm
  obtain rfl : t2 = s2 := by simpa [h2] using hp.build.symm
  obtain rfl : t3 = s3 := by simpa [h3] using hp.gentab.symm
  exact hp

section

variable {s s1 s2 s3 : State} (h : Pipeline s s1 s2 s3)
include h

theorem Pipeline.treeOk : s2.treeOk = true := h.built.treeOk h.tableOk

theorem Pipeline.isTree : IsTree s2 := State.isTree_of_treeOk h.built.valid h.treeOk

theorem Pipeline.leafSymbols_eq : leafSymbols s2.nodes = s.symbols.eraseDups :=
  (h.built.inv.leafSymbols_eq h.tableOk.length_table_le).trans h.keys

/-- A symbol of the input has a code, the path to its leaf. -/
theorem Pipeline.exists_code {x : Byte} (hx : x ∈ s.symbols) :
    ∃ p, leadsTo s2 s2.root.toNat p x = true ∧ (s3.codeOf x).valid = true ∧ (s3.codeOf x).digits = p := by
  obtain ⟨p, hp⟩ := h.isTree.exists_path (x := x) (by rw [h.leafSymbols_eq]; exact List.mem_eraseDups.mpr hx)
  exact ⟨p, hp, (h.codes x p).mpr hp⟩

theorem Pipeline.sameInput : sameInput s s3 := by
  obtain ⟨⟨hsym1, hlen1⟩, -⟩ := countTouchesOnlyTheTable s s1 h.count
  obtain ⟨⟨hsym2, hlen2⟩, -⟩ := buildTouchesOnlyTheTree s1 s2 h.tableOk.fits h.build
  obtain ⟨⟨hsym3, hlen3⟩, -⟩ := gentabTouchesOnlyTheCodeTable s2 s3 h.gentab
  exact ⟨hsym3.trans (hsym2.trans hsym1), hlen3.trans (hlen2.trans hlen1)⟩

/-- ENCODE reads the input that COUNT read, once the host has written it. -/
theorem Pipeline.symbols_eq (hwritten : s.inputWritten = true) : s3.symbols = s.symbols :=
  State.symbols_congr h.sameInput.1 h.sameInput.2 hwritten

theorem Pipeline.valid_codes (hwritten : s.inputWritten = true) : ∀ x ∈ s3.symbols, (s3.codeOf x).valid = true := by
  intro x hx
  rw [h.symbols_eq hwritten] at hx
  obtain ⟨p, -, hvalid, -⟩ := h.exists_code hx
  exact hvalid

end

/-- Settles O55: the pipeline makes a code for every symbol of the input, and the rest is the round trip with one
tree. -/
theorem pipelineRoundTrip : Obligations.PipelineRoundTrip := by
  intro s hwritten hne
  obtain ⟨s1, s2, s3, h⟩ := exists_pipeline hne
  have ⟨hsym, hlen⟩ := h.sameInput
  have hinput : ({ s3 with sym := s.sym, symLen := s.symLen } : State) = s3 := by rw [← hsym, ← hlen]
  have hround := roundTripUnderReuse s2 s3 h.built.valid h.treeOk h.gentab s.sym s.symLen
  rw [hinput] at hround
  obtain ⟨s4, s5, h4, h5, hdone4, hdone5, hdecoded, hpos, htrailing⟩ :=
    hround (by rw [← hinput]; exact hwritten) (h.valid_codes hwritten)
  have hdecLen : s5.decLen = s.symLen := by
    apply BitVec.eq_of_toNat_eq
    rw [← State.length_decoded, hdecoded, State.length_symbols, hlen]
  exact ⟨s1, s2, s3, s4, s5, h.count, h.build, h.gentab, h4, h5, h.counted, h.built.done, h.gentabbed, hdone4, hdone5,
    hdecoded.trans (h.symbols_eq hwritten), hdecLen, hpos, htrailing⟩

end Sys2Proof.Machine
end

section
/-! Depths in the tree that BUILD makes: what is merged earlier lies at least as deep, so a rarer symbol has a code at
least as long (spec/46_invariants.md, R254). -/

namespace Sys2Proof.Machine

/-! ### The order of merges -/

/-- `c` is a child of node `n`. -/
def IsChild (nodes : List Node) (n c : Nat) : Prop := ∃ x, nodes[n]? = some x ∧ c ∈ childrenOf x

/-- The node lies so many digits below the root. -/
inductive AtDepth (nodes : List Node) (root : Nat) : Nat → Nat → Prop
  | root : AtDepth nodes root root 0
  | child {n c d : Nat} (hn : AtDepth nodes root n d) (hc : IsChild nodes n c) : AtDepth nodes root c (d + 1)

/-- The members at `n` are the nodes below `n` that are no child of a node below `n`. -/
theorem mem_membersBefore_iff {nodes : List Node} {n i : Nat} :
    i ∈ membersBefore nodes n ↔ i < n ∧ ∀ m < n, ¬ IsChild nodes m i := by
  rw [mem_membersBefore]
  refine and_congr_right fun _ => ⟨fun hfree m hm hc => ?_, fun hfree hc => ?_⟩
  · obtain ⟨x, hx, hi⟩ := hc
    refine hfree (List.mem_flatMap.mpr ⟨x, List.mem_of_getElem? (i := m) ?_, hi⟩)
    rw [List.getElem?_take, if_pos hm, hx]
  · obtain ⟨x, hx, hi⟩ := List.mem_flatMap.mp hc
    obtain ⟨m, hm⟩ := List.getElem?_of_mem hx
    rw [List.getElem?_take] at hm
    split at hm
    · rename_i hmn
      exact hfree m hmn ⟨x, hm, hi⟩
    · cases hm

section

variable {table : List FtEntry} {nodes : List Node} {root : Nat} (h : MergeInv table nodes [root])
  (hk : table.length ≤ Config.alphabetMax) (hsum : (table.map (fun e => e.cnt.toNat)).sum ≤ Config.seqMax)
include h hk hsum

/-- Of two merges the earlier one comes before the later one, or is it. -/
theorem MergeInv.not_comesBefore_of_le {m n : Nat} (hm : table.length ≤ m) (hmn : m ≤ n) (hlt : n < nodes.length) :
    ¬ comesBefore nodes n m = true := by
  have hmono := h.freqAt_mono hk hsum hm hmn hlt
  rw [comesBefore_iff]
  omega

/-- A child comes before its parent, and before every later merge. -/
theorem MergeInv.comesBefore_of_child {m n c : Nat} (hc : IsChild nodes m c) (hmn : m ≤ n) (hlt : n < nodes.length) :
    comesBefore nodes c n = true := by
  obtain ⟨x, hx, hcx⟩ := hc
  obtain ⟨hm, hmem⟩ := h.mem_membersBefore_of_child hk hx hcx
  obtain ⟨hcm, -⟩ := mem_membersBefore.mp hmem
  obtain ⟨f, l, r, hnode, -⟩ := h.exists_merge hk hm (hmn.trans_lt hlt)
  rw [hx] at hnode
  cases hnode
  have hfreq := h.freqAt_merge hk hsum hx
  have hmono := h.freqAt_mono hk hsum hm hmn hlt
  rw [comesBefore_iff]
  simp only [childrenOf, List.mem_cons, List.not_mem_nil, or_false] at hcx
  rcases hcx with rfl | rfl <;> omega

/-- The members are merged in their order: a child of an earlier merge comes before a child of a later one. -/
theorem MergeInv.comesBefore_of_parents {m n a b : Nat} (ha : IsChild nodes m a) (hb : IsChild nodes n b)
    (hmn : m < n) : comesBefore nodes a b = true := by
  obtain ⟨y, hy, hby⟩ := hb
  obtain ⟨-, hbmem⟩ := h.mem_membersBefore_of_child hk hy hby
  obtain ⟨hbn, hfree⟩ := mem_membersBefore_iff.mp hbmem
  obtain ⟨hn, -⟩ := List.getElem?_eq_some_iff.mp hy
  by_cases hbm : m ≤ b
  · exact h.comesBefore_of_child hk hsum ha hbm (hbn.trans hn)
  · obtain ⟨x, hx, hax⟩ := ha
    obtain ⟨hm, -⟩ := h.mem_membersBefore_of_child hk hx hax
    obtain ⟨f, l, r, hnode, hfirst, -⟩ := h.exists_merge hk hm (hmn.trans hn)
    rw [hx] at hnode
    cases hnode
    exact hfirst.comesBefore_rest hax
      (mem_membersBefore_iff.mpr ⟨Nat.lt_of_not_le hbm, fun k hkm => hfree k (hkm.trans hmn)⟩)
      fun hb => hfree m hmn ⟨_, hx, hb⟩

/-- The earlier member lies at least as deep as the later one: so do their parents. -/
theorem MergeInv.depth_le {a b d e : Nat} (ha : AtDepth nodes root a d) (hb : AtDepth nodes root b e)
    (hab : ¬ comesBefore nodes b a = true) : e ≤ d := by
  induction hb generalizing a d with
  | root => exact Nat.zero_le d
  | @child n b e _ hbn ih =>
    have hlt : n < nodes.length := by
      obtain ⟨x, hx, -⟩ := hbn
      exact (List.getElem?_eq_some_iff.mp hx).1
    cases ha with
    | root =>
      have hroot := List.mem_singleton.mp h.last_mem
      exact absurd (h.comesBefore_of_child hk hsum hbn (n := root) (by omega) (by omega)) hab
    | @child m _ d ha ham =>
      have hmn : m ≤ n := by
        by_contra hnm
        exact hab (h.comesBefore_of_parents hk hsum hbn ham (Nat.lt_of_not_le hnm))
      have hm : table.length ≤ m := by
        obtain ⟨x, hx, hax⟩ := ham
        exact (h.mem_membersBefore_of_child hk hx hax).1
      exact Nat.succ_le_succ (ih ha (h.not_comesBefore_of_le hk hsum hm hmn hlt))

end

/-! ### Codes (R254) -/

theorem State.getElem?_nodes {s : State} {i : Nat} (h : i < s.nodeCnt.toNat) : s.nodes[i]? = some (s.nodeAt i) := by
  simp [State.nodes, h]

/-- A path from a node leads to a leaf that lies as many digits below it. -/
theorem IsTree.exists_leaf_atDepth {s : State} (hT : IsTree s) {i d : Nat} {p : List Bool} {x : Byte}
    (hi : i < s.nodeCnt.toNat) (hd : AtDepth s.nodes s.root.toNat i d) (h : leadsTo s i p x = true) :
    ∃ j f, j < s.nodeCnt.toNat ∧ s.nodeAt j = .leaf x f ∧ AtDepth s.nodes s.root.toNat j (d + p.length) := by
  induction p generalizing i d with
  | nil =>
    cases hn : s.nodeAt i with
    | leaf y f =>
      obtain ⟨-, rfl⟩ := leadsTo_of_leaf hn h
      exact ⟨i, f, hi, hn, hd⟩
    | internal f l r => simp [leadsTo, hn] at h
  | cons b p ih =>
    cases hn : s.nodeAt i with
    | leaf y f => simp [leadsTo, hn] at h
    | internal f l r =>
      simp only [leadsTo, hn] at h
      have hchild : (if b then r.toNat else l.toNat) ∈ childrenOf (s.nodeAt i) := by
        rw [hn]
        cases b <;> simp [childrenOf]
      obtain ⟨j, g, hj, hleaf, hdepth⟩ := ih ((hT.childrenAt_lt hi hchild).trans hi)
        (.child hd ⟨_, State.getElem?_nodes hi, hchild⟩) h
      refine ⟨j, g, hj, hleaf, ?_⟩
      rwa [List.length_cons, Nat.add_comm p.length 1, ← Nat.add_assoc]

section

variable {s s1 s2 s3 : State} (h : Pipeline s s1 s2 s3)
include h

/-- A leaf's frequency is its symbol's number of occurrences. -/
theorem Pipeline.freq_leaf {j : Nat} {x : Byte} {f : LenWord} (hj : j < s2.nodeCnt.toNat)
    (hn : s2.nodeAt j = .leaf x f) : f.toNat = s.symbols.count x := by
  have hget := State.getElem?_nodes hj
  have hkey : j < s1.table.length := by
    by_contra hkj
    obtain ⟨g, l, r, hnode, -⟩ := h.built.inv.exists_merge h.tableOk.length_table_le (Nat.le_of_not_lt hkj)
      ((State.length_nodes s2).symm ▸ hj)
    rw [hget, hn] at hnode
    cases hnode
  rw [h.built.inv.getElem?_leaf hkey, hn] at hget
  cases hget
  exact h.counts _ (List.getElem_mem hkey)

/-- A symbol's leaf lies as deep as its code is long. -/
theorem Pipeline.exists_leaf {x : Byte} (hx : x ∈ s.symbols) :
    ∃ j, freqAt s2.nodes j = s.symbols.count x ∧
      AtDepth s2.nodes s2.root.toNat j (s3.codeOf x).len.toNat := by
  obtain ⟨p, hp, -, hdigits⟩ := h.exists_code hx
  obtain ⟨j, f, hj, hn, hd⟩ := h.isTree.exists_leaf_atDepth h.isTree.root_lt .root hp
  refine ⟨j, ?_, ?_⟩
  · rw [State.freqAt_nodes hj, hn, ← h.freq_leaf hj hn]
    rfl
  · rwa [← CtEntry.length_digits, hdigits, ← Nat.zero_add p.length]

end

theorem symLen_ne_zero_of_mem {s : State} {x : Byte} (h : x ∈ s.symbols) : s.symLen ≠ 0 := by
  intro h0
  have hlen := List.length_pos_of_mem h
  rw [State.length_symbols, h0] at hlen
  exact absurd hlen (by decide)

/-- Settles O53: the rarer symbol's leaf is merged first, and so lies at least as deep. -/
theorem rarerSymbolsHaveLongerCodes : Obligations.RarerSymbolsHaveLongerCodes := by
  intro s s1 s2 s3 h1 h2 h3 x y hx hxy
  have h := pipeline_of_exec (symLen_ne_zero_of_mem hx) h1 h2 h3
  have hy : y ∈ s.symbols := List.count_pos_iff.mp (Nat.zero_lt_of_lt hxy)
  obtain ⟨i, hfi, hi⟩ := h.exists_leaf hx
  obtain ⟨j, hfj, hj⟩ := h.exists_leaf hy
  refine h.built.inv.depth_le h.tableOk.length_table_le h.tableOk.sum hi hj ?_
  rw [comesBefore_iff]
  omega

end Sys2Proof.Machine
end

section
/-! The length of the pipeline's stream as a sum over the table, over the leaves of the tree, and over its Internal
nodes (spec/46_invariants.md, R255). -/

namespace Sys2Proof.Machine

/-! ### Sums over the tree -/

/-- What a node adds to the length of the stream: an Internal node its frequency, a digit for each symbol below it. -/
def digitsAt (n : Node) : Nat :=
  match n with
  | .leaf _ _ => 0
  | .internal f _ _ => f.toNat

/-- Node `k` has the weight of what is below it: a leaf the weight of its symbol, an Internal node the sum of its
children's (R127). -/
def State.weighs (s : State) (w : Byte → Nat) (k : Nat) : Prop :=
  match s.nodeAt k with
  | .leaf x f => f.toNat = w x
  | .internal f l r => f.toNat = (s.nodeAt l.toNat).freq.toNat + (s.nodeAt r.toNat).freq.toNat

/-- The weight of a tree is that of its leaves, and the weighted length of its paths is the sum of its Internal
frequencies. -/
theorem Subtree.weighted {s : State} {w : Byte → Nat} {i : Nat} {t : CodeTree} (h : Subtree s i t)
    (hw : ∀ k ∈ t.indices, s.weighs w k) :
    (t.bindings.map (fun b => w b.1)).sum = (s.nodeAt i).freq.toNat ∧
      (t.bindings.map (fun b => w b.1 * b.2.length)).sum = (t.indices.map (fun k => digitsAt (s.nodeAt k))).sum := by
  induction h with
  | @leaf i x f hn =>
    have hi : s.weighs w i := hw i List.mem_cons_self
    simp only [State.weighs, hn] at hi
    simp [CodeTree.bindings, CodeTree.indices, digitsAt, hn, Node.freq, hi]
  | @branch i f l r tl tr hn _ _ ihl ihr =>
    simp only [CodeTree.indices, List.forall_mem_cons, List.forall_mem_append] at hw
    obtain ⟨hi, hl, hr⟩ := hw
    obtain ⟨hwl, hdl⟩ := ihl hl
    obtain ⟨hwr, hdr⟩ := ihr hr
    simp only [State.weighs, hn] at hi
    simp only [CodeTree.bindings, CodeTree.indices, List.map_append, List.map_map, List.sum_append, List.map_cons,
      List.sum_cons, hn, Node.freq, digitsAt, Function.comp_def, List.length_cons, Nat.mul_succ, List.sum_map_add,
      hwl, hwr, hdl, hdr, hi, true_and]
    omega

/-- In a finished merge loop the leaves add nothing. -/
theorem MergeInv.sum_digitsAt {table : List FtEntry} {nodes : List Node} {root : Nat}
    (h : MergeInv table nodes [root]) (hk : table.length ≤ Config.alphabetMax) :
    (nodes.map digitsAt).sum = ((nodes.drop table.length).map (fun n => n.freq.toNat)).sum := by
  obtain ⟨more, rfl, hmore⟩ := h.exists_internals hk
  have hleaves : ((leavesOf table).map digitsAt).sum = 0 := by
    simp [leavesOf, digitsAt, Function.comp_def]
  have hinternals : more.map digitsAt = more.map (fun n => n.freq.toNat) := by
    refine List.map_congr_left fun x hx => ?_
    obtain ⟨f, l, r, rfl⟩ := hmore x hx
    rfl
  rw [List.map_append, List.sum_append, hleaves, hinternals, List.drop_left' (length_leavesOf table), Nat.zero_add]

/-! ### The stream of the pipeline -/

/-- A sum over a sequence, by its distinct elements. -/
theorem sum_map_eq_sum_eraseDups (xs : List Byte) (f : Byte → Nat) :
    (xs.map f).sum = (xs.eraseDups.map (fun x => xs.count x * f x)).sum := by
  have hset : xs.eraseDups.toFinset = xs.toFinset := by
    ext x
    simp
  rw [Finset.sum_list_map_count, ← hset, List.sum_toFinset _ (nodup_eraseDups xs)]
  simp only [smul_eq_mul]

section

variable {s s1 s2 s3 : State} (h : Pipeline s s1 s2 s3)
include h

/-- Each node of the tree has the number of occurrences of the symbols below it. -/
theorem Pipeline.weighs {k : Nat} (hk : k < s2.nodeCnt.toNat) : s2.weighs (fun x => s.symbols.count x) k := by
  unfold State.weighs
  split
  · rename_i x f hn
    exact h.freq_leaf hk hn
  · rename_i f l r hn
    have hchild : ∀ c ∈ [l.toNat, r.toNat], c < s2.nodeCnt.toNat := fun c hc =>
      (h.isTree.childrenAt_lt hk (by simpa only [State.childrenAt, hn, childrenOf] using hc)).trans hk
    have hfreq := h.built.inv.freqAt_merge h.tableOk.length_table_le h.tableOk.sum
      ((State.getElem?_nodes hk).trans (congrArg some hn))
    rw [State.freqAt_nodes hk, hn, State.freqAt_nodes (hchild _ (by simp)), State.freqAt_nodes (hchild _ (by simp))]
      at hfreq
    exact hfreq

/-- The weighted length of the codes is the sum of the Internal frequencies (R255). -/
theorem Pipeline.sum_codes : (s.symbols.eraseDups.map (fun x => s.symbols.count x * (s3.codeOf x).len.toNat)).sum =
    ((s2.nodes.drop s1.ftK.toNat).map (fun n => n.freq.toNat)).sum := by
  obtain ⟨t, ht, -, hle⟩ := h.isTree.exists_subtree h.isTree.root_lt
  have hroot := h.isTree.root_lt
  have hkeys := h.leafSymbols_eq ▸ h.isTree.keys_perm ht hle
  obtain ⟨-, hlength⟩ := ht.weighted fun k hk => h.weighs ((hle k hk).trans_lt hroot)
  have hcode : t.bindings.map (fun b => s.symbols.count b.1 * (s3.codeOf b.1).len.toNat) =
      t.bindings.map (fun b => s.symbols.count b.1 * b.2.length) := by
    refine List.map_congr_left fun b hb => ?_
    obtain ⟨-, hdigits⟩ := (h.codes b.1 b.2).mpr (ht.mem_bindings.mp hb)
    rw [← CtEntry.length_digits, hdigits]
  have hnodes : s2.nodes.map digitsAt = (List.range s2.nodeCnt.toNat).map (fun k => digitsAt (s2.nodeAt k)) := by
    rw [State.nodes, List.map_map]
    rfl
  calc (s.symbols.eraseDups.map (fun x => s.symbols.count x * (s3.codeOf x).len.toNat)).sum
      = ((t.bindings.map Prod.fst).map (fun x => s.symbols.count x * (s3.codeOf x).len.toNat)).sum :=
        (hkeys.map _).sum_eq.symm
    _ = (t.indices.map (fun k => digitsAt (s2.nodeAt k))).sum := by
        rw [List.map_map, ← hlength, ← hcode]
        rfl
    _ = (s2.nodes.map digitsAt).sum := by
        rw [hnodes, ((h.isTree.indices_perm_range ht hle).map _).sum_eq]
    _ = ((s2.nodes.drop s1.ftK.toNat).map (fun n => n.freq.toNat)).sum := by
        rw [h.built.inv.sum_digitsAt h.tableOk.length_table_le, State.length_table]

end

/-- A code has at most 255 digits (R9). -/
theorem sum_len_le (s : State) (xs : List Byte) :
    (xs.map (fun x => (s.codeOf x).len.toNat)).sum ≤ codeMax * xs.length := by
  have hsum := List.sum_le_card_nsmul (xs.map (fun x => (s.codeOf x).len.toNat)) codeMax
    (List.forall_mem_map.mpr fun x _ => Nat.le_of_lt_succ (s.codeOf x).len.isLt)
  rwa [List.length_map, smul_eq_mul, Nat.mul_comm] at hsum

/-- Settles O54: the stream's length is the sum of the codes' lengths over the input, regrouped by symbol. -/
theorem encodedLengthIsTheWeightedSum : Obligations.EncodedLengthIsTheWeightedSum := by
  intro s s1 s2 s3 s4 hwritten hne h1 h2 h3 h4
  have h := pipeline_of_exec hne h1 h2 h3
  obtain ⟨t, ht, -, -, hlen⟩ := encodeConcatenatesTheCodes s3 (h.valid_codes hwritten)
  rw [h4] at ht
  cases ht
  rw [h.symbols_eq hwritten] at hlen
  have hgrouped := hlen.trans (sum_map_eq_sum_eraseDups s.symbols _)
  refine ⟨hgrouped.trans ?_, hgrouped.trans h.sum_codes, ?_⟩
  · rw [← h.keys, List.map_map]
    congr 1
    refine List.map_congr_left fun e he => ?_
    rw [h.counts e he]
    rfl
  · rw [hlen, ← State.length_symbols]
    exact sum_len_le s3 s.symbols

end Sys2Proof.Machine
end
